-- ==== Sys2Proof/Word.lean ====
section
/-! DEFINITION. The value types of 00_scope.md R8: bytes, 32-bit words, and the fixed-length
sequences the core holds (10_state.md R21 to R25). Everything is unsigned; nothing is ever
sign-extended. -/

namespace Sys2Proof

/-- A byte (R8): 8 bits, bit 7 the most significant. -/
abbrev Byte := BitVec 8

/-- A word (R8): 32 bits, bit 31 the most significant. -/
abbrev Word := BitVec 32

/-- Sixteen bytes in flat index order: a block, the State grid `S` (R22, `S[k]` with `k = r + 4c`),
the feedback register `FB` (R23), a keystream block (R24). -/
abbrev Block := Vector Byte 16

/-- The 32 bytes of a key (R25). -/
abbrev Key := Vector Byte 32

/-- The round-key schedule `W[0..59]` (R21). -/
abbrev Schedule := Vector Word 60

/-- A micro-operation word (30_encoding.md R94): code in bits 9:6, argument in bits 5:0. -/
abbrev UopWord := BitVec 10

end Sys2Proof
end

