-- ==== Sys2Proof/Config.lean ====
section
/-! DEFINITION. The parameters of 00_scope.md R6, the two parameters the spec leaves open
(92_eei_decisions.md D21, D24), and the free values. -/

namespace Sys2Proof.Config

/-- KEY_BYTES (R6): the length of a key. -/
abbrev keyBytes : Nat := 32
/-- IV_BYTES (R6): the length of an initialization vector. -/
abbrev ivBytes : Nat := 16
/-- BLOCK_BYTES (R6): the length of a block, of the State, of FB. -/
abbrev blockBytes : Nat := 16
/-- NB (R6): columns of the State, words per round-key slice. -/
abbrev nb : Nat := 4
/-- NK (R6): key words loaded directly; period of the schedule recurrence. -/
abbrev nk : Nat := 8
/-- NR (R6): rounds. -/
abbrev nr : Nat := 14
/-- KS_WORDS (R6): words of the schedule. -/
abbrev ksWords : Nat := 60
/-- KS_SLICES (R6): round-key slices. -/
abbrev ksSlices : Nat := 15
/-- RCON_ENTRIES (R6, R116): entries of the round-constant table. -/
abbrev rconEntries : Nat := 10
/-- CHUNK_MAX (R6): most data bytes consumed per keystream block. -/
abbrev chunkMax : Nat := 16
/-- The largest value of a one-byte length field (R6 LENF_BYTES = 1, R82): 255. -/
abbrev lenFieldMax : Nat := 255

/-- N_INSTANCES (R6, D21): how many core instances share one schedule; the default is 1. The
argument of `Machine.State.resetOf`. -/
abbrev nInstances : Nat := 1

/-- PORT_BASE (D24): where the platform places the frame port. OPEN, and no rule reads it, so it has
no value here. -/
opaque portBase : Nat

/-- A byte nobody knows: a cell of `S` or `FB` after a reset event (10_state.md R37 "holds no value").
It has no body, so nothing can be proved about its value; the argument is the count of free values
used so far (`State.freeUsed`). -/
opaque freeByte : Nat → Byte

/-- A word nobody knows: a word of `W` after a reset event (10_state.md R37, 70_reset_and_hazards.md
R235: neither "the old key is gone" nor "it is still there" may be assumed). -/
opaque freeWord : Nat → Word

end Sys2Proof.Config
end

