-- ==== Sys2Proof/Machine/Field.lean ====
section
/-! DEFINITION. The constant tables and finite-field primitives of 40_field_primitives.md (R110 to
R117), with the byte and word views of 00_scope.md R9. All are pure functions (R120). -/

namespace Sys2Proof.Machine

/-- `byte_k(w) = w[31-8k : 24-8k]` (R9): byte 0 is the most significant byte. -/
def byteOf (k : Nat) (w : Word) : Byte := (w >>> (24 - 8 * k)).truncate 8

/-- `word(b0,b1,b2,b3)` (R9): the first byte becomes the most significant one. -/
def wordOf (b0 b1 b2 b3 : Byte) : Word := b0 ++ b1 ++ b2 ++ b3

/-- `xtime(b)` (R111): multiply by x; the test is on bit 7 before the shift. -/
def xtime (b : Byte) : Byte := (b <<< 1) ^^^ (if b.getLsbD 7 then 0x1B else 0x00)

/-- The loop of `gmul` (R112), from bit `k` on with `n` bits to go: `p` collects the product and `a`
is doubled at every bit of `b`. -/
def gmulLoop : Nat → Nat → Byte → Byte → Byte → Byte
  | 0, _, _, _, p => p
  | n + 1, k, a, b, p => gmulLoop n (k + 1) (xtime a) b (if b.getLsbD k then p ^^^ a else p)

/-- `gmul(a, b)` (R112): the product in GF(2^8), by shift-and-add over the bits of `b`. -/
def gmul (a b : Byte) : Byte := gmulLoop 8 0 a b 0x00

/-- One row of the substitution table of R113, as the table prints it: the row of high digit `h`,
sixteen entries, column 0 leftmost. The spec marks the entries as general knowledge (TESTED by its
known-answer vector: notes/assumptions/14.md). -/
def sboxRow (h : Nat) : BitVec 128 :=
  match h with
  | 0 => 0x637c777bf26b6fc53001672bfed7ab76
  | 1 => 0xca82c97dfa5947f0add4a2af9ca472c0
  | 2 => 0xb7fd9326363ff7cc34a5e5f171d83115
  | 3 => 0x04c723c31896059a071280e2eb27b275
  | 4 => 0x09832c1a1b6e5aa0523bd6b329e32f84
  | 5 => 0x53d100ed20fcb15b6acbbe394a4c58cf
  | 6 => 0xd0efaafb434d338545f9027f503c9fa8
  | 7 => 0x51a3408f929d38f5bcb6da2110fff3d2
  | 8 => 0xcd0c13ec5f974417c4a77e3d645d1973
  | 9 => 0x60814fdc222a908846eeb814de5e0bdb
  | 10 => 0xe0323a0a4906245cc2d3ac629195e479
  | 11 => 0xe7c8376d8dd54ea96c56f4ea657aae08
  | 12 => 0xba78252e1ca6b4c6e8dd741f4bbd8b8a
  | 13 => 0x703eb5664803f60e613557b986c11d9e
  | 14 => 0xe1f8981169d98e949b1e87e9ce5528df
  | _ => 0x8ca1890dbfe6426841992d0fb054bb16

/-- `SBOX[v]` (R113): the row is the high hex digit of `v`, the column the low digit. -/
def sbox (v : Byte) : Byte :=
  (sboxRow (v.toNat / 16) >>> (8 * (15 - v.toNat % 16))).truncate 8

/-- `subWord(w)` (R115): each byte of the word is substituted in its own place. -/
def subWord (w : Word) : Word :=
  wordOf (sbox (byteOf 0 w)) (sbox (byteOf 1 w)) (sbox (byteOf 2 w)) (sbox (byteOf 3 w))

/-- `rotWord(w)` (R117, 90_conflicts.md C2): rotate left by 8 bits; the most significant byte becomes
the least significant one. -/
def rotWord (w : Word) : Word := (w <<< 8) ||| (w >>> 24)

/-- `rc(j)` (R116): doubling from 0x01. -/
def rc : Nat → Byte
  | 0 => 0x01
  | j + 1 => xtime (rc j)

/-- `RCON[j]` (R116): `rc(j)` in the top byte. The table has ten entries, `j` in 0..9
(`Config.rconEntries`); the key schedule reads 0..6 (41_key_schedule.md R137). -/
def rcon (j : Nat) : Word := wordOf (rc j) 0x00 0x00 0x00

end Sys2Proof.Machine
end

