-- ==== Sys2Proof/Machine/Cipher.lean ====
section
/-! DEFINITION. The pure functions of 41_key_schedule.md, 42_state_transforms.md and
43_block_encryptor.md on values: `KeyExpand`, the State transforms, `EncryptBlock`. The
micro-operations and the commands are written over them. -/

namespace Sys2Proof.Machine

/-! ## The key schedule (41_key_schedule.md) -/

/-- `word(key[4i], key[4i+1], key[4i+2], key[4i+3])` (R53, R131): a big-endian read of the key. -/
def keyWord (key : Key) (i : Nat) : Word :=
  wordOf (key.getD (4 * i) 0) (key.getD (4 * i + 1) 0) (key.getD (4 * i + 2) 0) (key.getD (4 * i + 3) 0)

/-- The value KSWORD(i) writes, from `prev = W[i-1]` and `back = W[i-8]` (R132, R137): in the first
branch rotate, then substitute, then add the round constant. -/
def nextWord (i : Nat) (prev back : Word) : Word :=
  back ^^^
    (if i % 8 = 0 then subWord (rotWord prev) ^^^ rcon (i / 8 - 1)
     else if i % 8 = 4 then subWord prev
     else prev)

/-- KSLOAD on a schedule (R131): words 0 to 7 become the key, words 8 to 59 stay. -/
def loadKeyWords (key : Key) (w : Schedule) : Schedule :=
  Vector.ofFn fun i => if i.val < Config.nk then keyWord key i.val else w[i]

/-- KSWORD(i) on a schedule (R132): word `i` is written, all others stay. -/
def stepWord (w : Schedule) (i : Nat) : Schedule :=
  w.setIfInBounds i (nextWord i (w.getD (i - 1) 0) (w.getD (i - 8) 0))

/-- The indices of the expansion loop, 8 to 59 in increasing order (R134). -/
def scheduleIndices : List Nat := List.range' 8 52

/-- KSLOAD; KSWORD(8); …; KSWORD(59) on a schedule (R134). -/
def expandInto (key : Key) (w : Schedule) : Schedule :=
  scheduleIndices.foldl stepWord (loadKeyWords key w)

/-- The first `8 + n` words of the schedule by the recurrence of R130, each new word appended to the
words before it. -/
def keyExpandWords (key : Key) : Nat → List Word
  | 0 => (List.range 8).map (keyWord key)
  | n + 1 =>
    let ws := keyExpandWords key n
    ws ++ [nextWord (n + 8) (ws.getD (n + 7) 0) (ws.getD n 0)]

/-- `KeyExpand(key)` (R130): the 60 words, a function of the key alone. -/
def keyExpand (key : Key) : Schedule := Vector.ofFn fun i => (keyExpandWords key 52).getD i.val 0

/-! ## The State grid (10_state.md R22) -/

/-- Row of flat index `k` (R22): `k mod 4`. -/
def row (k : Fin 16) : Fin 4 := ⟨k.val % 4, Nat.mod_lt _ (by decide)⟩

/-- Column of flat index `k` (R22): `k div 4`. -/
def col (k : Fin 16) : Fin 4 := ⟨k.val / 4, Nat.div_lt_of_lt_mul k.isLt⟩

/-- `S[r,c]` (R22): the cell at flat index `r + 4c`. -/
def cell (s : Block) (r c : Fin 4) : Byte := s[r.val + 4 * c.val]

/-! ## The four transforms (42_state_transforms.md) -/

/-- SubBytes (R147). -/
def subBytes (s : Block) : Block := Vector.ofFn fun k => sbox s[k]

/-- ShiftRows (R148): row `r` is rotated left by `r`; every read is of the old State. -/
def shiftRows (s : Block) : Block := Vector.ofFn fun k => cell s (row k) (col k + row k)

/-- MixColumn (R149): the new cell of row `r` of the column `(a0, a1, a2, a3)`. Every operand is an
original value (70_reset_and_hazards.md R243). -/
def mixColumn (a0 a1 a2 a3 : Byte) (r : Fin 4) : Byte :=
  let t := a0 ^^^ a1 ^^^ a2 ^^^ a3
  match r with
  | 0 => a0 ^^^ t ^^^ xtime (a0 ^^^ a1)
  | 1 => a1 ^^^ t ^^^ xtime (a1 ^^^ a2)
  | 2 => a2 ^^^ t ^^^ xtime (a2 ^^^ a3)
  | 3 => a3 ^^^ t ^^^ xtime (a3 ^^^ a0)

/-- MixColumns (R150): MixColumn on each column. -/
def mixColumns (s : Block) : Block :=
  Vector.ofFn fun k =>
    mixColumn (cell s 0 (col k)) (cell s 1 (col k)) (cell s 2 (col k)) (cell s 3 (col k)) (row k)

/-- AddRoundKey with slice `k` of the schedule (R152): row `r` of column `c` meets
`byte_r(W[4k + c])`. -/
def addRoundKey (w : Schedule) (k : Nat) (s : Block) : Block :=
  Vector.ofFn fun j => s[j] ^^^ byteOf (row j).val (w.getD (4 * k + (col j).val) 0)

/-! ## The block encryptor (43_block_encryptor.md) -/

/-- One full round with slice `r` (R165). -/
def fullRound (w : Schedule) (s : Block) (r : Nat) : Block :=
  addRoundKey w r (mixColumns (shiftRows (subBytes s)))

/-- EncryptBlock (R165): slice 0, rounds 1 to 13, and round 14 without MixColumns (R168). Load and
Serialize are the identity on flat indices (20_memory.md R55). -/
def encryptBlock (b : Block) (w : Schedule) : Block :=
  addRoundKey w 14 (shiftRows (subBytes
    ((List.range' 1 13).foldl (fullRound w) (addRoundKey w 0 b))))

end Sys2Proof.Machine
end

