-- ==== Sys2Proof/Syntax.lean ====
section
/-! DEFINITION. The instructions: the five host commands and the eleven datapath micro-operations of
spec/opcode_table.json (30_encoding.md R80, R91, R95), one constructor per row. -/

namespace Sys2Proof

/-- Where LDSTATE loads from (R145): argument 0 is the block operand, argument 1 is `FB`. -/
inductive LoadSource where
  | block
  | feedback
deriving DecidableEq, Repr

/-- The abstract commands of R93, whose operands are byte sequences of any length, and the
micro-operations of R95. -/
inductive Instr where
  /-- KEYEXP (R133), opcode 0x01. -/
  | keyexp (key : List Byte)
  /-- ENCBLK (R167), opcode 0x02. -/
  | encblk (block : List Byte)
  /-- STREAM (R187), opcode 0x03. -/
  | stream (key iv data : List Byte)
  /-- OFBINIT (R185), opcode 0x04. -/
  | ofbinit (iv : List Byte)
  /-- OFBCHUNK (R186), opcode 0x05. -/
  | ofbchunk (data : List Byte)
  /-- KSLOAD (R131), code 0x1. -/
  | ksload
  /-- KSWORD i (R132), code 0x2, i in 8..59. -/
  | ksword (i : Nat)
  /-- LDSTATE src (R145), code 0x3. -/
  | ldstate (src : LoadSource)
  /-- SUBBYTES (R147), code 0x4. -/
  | subbytes
  /-- SHIFTROWS (R148), code 0x5. -/
  | shiftrows
  /-- MIXCOLUMNS (R150), code 0x6. -/
  | mixcolumns
  /-- ADDROUNDKEY k (R152), code 0x7, k in 0..14. -/
  | addroundkey (k : Nat)
  /-- STSTATE (R146), code 0x8. -/
  | ststate
  /-- FBLOAD (R182), code 0x9. -/
  | fbload
  /-- OFBXOR n (R183), code 0xA, n in 1..16. -/
  | ofbxor (n : Nat)
  /-- FBUPDATE (R184), code 0xB. -/
  | fbupdate
deriving DecidableEq, Repr

/-- Is it a host command (format CMD of R80), not a micro-operation (format UOP)? -/
def Instr.isCommand : Instr → Bool
  | .keyexp _ | .encblk _ | .stream _ _ _ | .ofbinit _ | .ofbchunk _ => true
  | .ksload | .ksword _ | .ldstate _ | .subbytes | .shiftrows | .mixcolumns | .addroundkey _
  | .ststate | .fbload | .ofbxor _ | .fbupdate => false

end Sys2Proof
end

