-- ==== Sys2Proof/Machine/State.lean ====
section
/-! DEFINITION. The state of the machine (10_state.md), the reasons a step can stop, and the state after
reset (R37). The spec's own registers stand first in each structure; the fields that hold a command in
progress and the frame port are the model's own shape for the operands, the result and the frames of
R20, R25, R51 and R81. -/

namespace Sys2Proof.Machine

/-- The result codes of 60_exceptions.md R205: what `STATUS.ERR` holds. -/
inductive ResultCode where
  | ok
  | invalidKeyLength
  | invalidIVLength
  | invalidBlockLength
  | noSchedule
  | noStream
  | invalidChunkLength
  | illegalCommand
deriving DecidableEq, Repr

/-- `SEQ.PHASE` (R30). -/
inductive Phase where
  | idle
  | validate
  | kexp
  | cipher
  | emit
deriving DecidableEq, Repr

/-- `SEQ.STEP` (R30): the transform within a round. -/
inductive RoundStep where
  | subbytes
  | shiftrows
  | mixcolumns
  | addroundkey
deriving DecidableEq, Repr

/-- The sequencer counters `SEQ` (R30), the core's stand-in for a program counter: `PHASE` (3 bits),
`WI` (6 bits, 0..60), `RND` (4 bits, 0..14), `STEP` (2 bits), `OFF` (a natural number). -/
structure Seq where
  phase : Phase
  wi : Nat
  rnd : Nat
  step : RoundStep
  off : Nat
deriving DecidableEq, Repr

/-- In IDLE all five counters are 0 (R30). -/
def Seq.idle : Seq := ⟨.idle, 0, 0, .subbytes, 0⟩

/-- The result of a running command (20_memory.md R51), a sparse byte memory indexed by offset: strictly
rising offsets. An offset that is not listed has not been written and has no value (DESIGN CHOICE, safe:
notes/assumptions/10.md). -/
abbrev Memory := List Host.Cell

/-- Which command is running. -/
inductive CommandKind where
  | keyexp
  | encblk
  | stream
  | ofbinit
  | ofbchunk
deriving DecidableEq, Repr

/-- A command in progress, at the grain of micro-operations (R33): its operands, the result written so
far, and the micro-operation words the sequencer has still to issue. Operands of a fixed length are
held after their length check (R215), so their length is in their type. The shape is a DESIGN CHOICE,
safe (notes/assumptions/5.md). -/
structure Work where
  /-- A frame that has been accepted and is still to be validated (R31, PHASE = VALIDATE). -/
  held : Option (List Byte)
  /-- The command whose micro-operations are being issued. -/
  running : Option CommandKind
  /-- The key operand. -/
  key : Key
  /-- The IV operand. -/
  iv : Block
  /-- The block operand `blk` of ENCBLK. -/
  blk : Block
  /-- The data operand of STREAM and OFBCHUNK, read through `MemRead` (R51). -/
  data : List Byte
  /-- The result, written through `MemWrite` (R51). -/
  out : Memory
  /-- The words of the command's fixed sequence not yet issued, the next one first. -/
  pending : List UopWord
deriving DecidableEq, Repr

/-- No command in progress. -/
def Work.none : Work where
  held := Option.none
  running := Option.none
  key := Vector.replicate 32 0
  iv := Vector.replicate 16 0
  blk := Vector.replicate 16 0
  data := []
  out := []
  pending := []

/-- What one core instance owns (R20, R36, 60_exceptions.md R223): its own `S`, `FB`, `FB_VALID`,
`STATUS`, `SEQ` and frame port. -/
structure CoreInstance where
  /-- `S[0..15]` (R22), in flat index order. -/
  grid : Block
  /-- `FB[0..15]` (R23). -/
  fb : Block
  /-- `FB_VALID`, which is also `STATUS[4]` (R27, R28). -/
  fbValid : Bool
  /-- `STATUS.ERR`, `STATUS[2:0]` (R28). -/
  err : ResultCode
  /-- `STATUS.BUSY`, `STATUS[5]` (R28, 70_reset_and_hazards.md R246). -/
  busy : Bool
  /-- `SEQ` (R30). -/
  seq : Seq
  /-- The command in progress. -/
  work : Work
  /-- The frame port, inbound: frames the host has offered and the core has not accepted, in the order
  offered (70_reset_and_hazards.md R246). -/
  offered : List (List Byte)
  /-- The frame port, outbound: the response frames produced, oldest first (30_encoding.md R89,
  70_reset_and_hazards.md R251). -/
  responses : List (List Byte)
deriving DecidableEq, Repr

/-- The two levels of description of 00_scope.md R7: a command is one step, or each micro-operation is.
That State says which is a DESIGN CHOICE, safe (notes/assumptions/4.md). -/
inductive Grain where
  | command
  | microOperation
deriving DecidableEq, Repr

/-- The machine: the schedule and its flag, which instances may share (R64, R223), the instance that
acts, the others, and the inputs from outside. -/
structure State where
  /-- `W[0..59]` (R21). -/
  w : Schedule
  /-- `KS_VALID`, which is also `STATUS[3]` of every instance (R26, R28). -/
  ksValid : Bool
  /-- The instance that acts. -/
  this : CoreInstance
  /-- The other `N_INSTANCES - 1` instances that share `w` and `ksValid` (60_exceptions.md R223). -/
  peers : List CoreInstance
  /-- From outside: before each step to come, how many places the turn passes on among the instances
  (`0`: the same instance goes on). When the list is empty the same instance goes on. DESIGN CHOICE, safe
  (notes/assumptions/7.md). -/
  turns : List Nat
  /-- Which level of description the step follows (00_scope.md R7). -/
  grain : Grain
  /-- The reset input (70_reset_and_hazards.md R235): is it asserted? A level that only the outside sets:
  DESIGN CHOICE, safe (notes/assumptions/16.md). -/
  resetIn : Bool
  /-- How many free values (`Config.freeByte`, `Config.freeWord`) have been used: the model's own
  (notes/assumptions/2.md). -/
  freeUsed : Nat
deriving DecidableEq, Repr

/-- Why a step stops with a fault. -/
inductive Fault where
  /-- Raised by OFBXOR: `MemRead(off, n)` would read past the end of the data operand, which R51
  excludes ("requires `off + n ≤ len(data)`"). No command's own sequence raises it. Safe. -/
  | dataOperandRange
deriving DecidableEq, Repr

/-- Why a step has no meaning. -/
inductive Refusal where
  /-- An instruction of the opcode table without a meaning in this model: none is left. Safe. -/
  | notModelled (mnemonic : String)
  /-- Raised by the step when the sequencer's next word is none of R95's patterns
  (93_implementation_defined.md U10: stuck). No command's own sequence holds such a word. Safe. -/
  | reservedWord
  /-- Raised by KSWORD, ADDROUNDKEY and OFBXOR with an argument outside the range of R95 ("never issued
  and has no meaning", U10: stuck). Safe. -/
  | reservedArgument
  /-- Raised by a command that would rewrite `W`, and by KSLOAD and KSWORD, while another instance sharing it
  is busy, and by a command that would read `W` while another instance is rewriting it (70_reset_and_hazards.md R242:
  "a model refuses it (no step)"). Safe. -/
  | scheduleInUse
deriving DecidableEq, Repr

/-- One instance after reset (R37). `S` and `FB` "hold no value": zero here is a DESIGN CHOICE, unsafe
(notes/assumptions/1.md). -/
def CoreInstance.reset : CoreInstance where
  grid := Vector.replicate 16 0
  fb := Vector.replicate 16 0
  fbValid := false
  err := .ok
  busy := false
  seq := Seq.idle
  work := Work.none
  offered := []
  responses := []

/-- The machine after reset with `n` instances (R37, `N_INSTANCES` of R6; `n = 0` counts as 1). `W`
"holds no value": zero here is a DESIGN CHOICE, unsafe (notes/assumptions/1.md); the grain is one of the
levels of R7 (notes/assumptions/4.md). -/
def State.resetOf (n : Nat) : State where
  w := Vector.replicate 60 0
  ksValid := false
  this := CoreInstance.reset
  peers := List.replicate (n - 1) CoreInstance.reset
  turns := []
  grain := .command
  resetIn := false
  freeUsed := 0

/-- The machine after reset (R37), with the default number of instances. -/
def State.reset : State := State.resetOf Config.nInstances

end Sys2Proof.Machine
end

