-- ==== Sys2Proof/Machine/Ops.lean ====
section
/-! DEFINITION. The named operations over the state: register writes, the result memory, the end of a
command and the raising of an error (60_exceptions.md R214), the turn, and the reset event
(70_reset_and_hazards.md R235). -/

namespace Sys2Proof.Machine

/-! ## Register writes -/

/-- `W <- w` (R21). -/
def State.setW (w : Schedule) (s : State) : State := { s with w := w }

/-- `KS_VALID <- b` (R26). -/
def State.setKsValid (b : Bool) (s : State) : State := { s with ksValid := b }

/-- `S <- g` (R22). -/
def State.setGrid (g : Block) (s : State) : State := { s with this := { s.this with grid := g } }

/-- `FB <- b`, always all 16 bytes (R23). -/
def State.setFb (b : Block) (s : State) : State := { s with this := { s.this with fb := b } }

/-- `FB_VALID <- b` (R27). -/
def State.setFbValid (b : Bool) (s : State) : State := { s with this := { s.this with fbValid := b } }

/-- `SEQ <- q` (R10, R30). -/
def State.setSeq (q : Seq) (s : State) : State := { s with this := { s.this with seq := q } }

/-- The command in progress becomes `k`. -/
def State.setWork (k : Work) (s : State) : State := { s with this := { s.this with work := k } }

/-! ## The result memory (20_memory.md R51) -/

/-- Canonical form: strictly rising offsets. -/
def Memory.wf (m : Memory) : Bool := decide (m.Pairwise fun a b => a.1 < b.1)

/-- The byte at an offset of the result; an offset not yet written has none. -/
def Memory.read (m : Memory) (a : Nat) : Option Byte :=
  match m with
  | [] => none
  | (b, v) :: rest => if a = b then some v else Memory.read rest a

/-- One byte written, in canonical form. -/
def Memory.writeByte (m : Memory) (a : Nat) (v : Byte) : Memory :=
  match m with
  | [] => [(a, v)]
  | (b, u) :: rest =>
    if a < b then (a, v) :: (b, u) :: rest
    else if a = b then (a, v) :: rest
    else (b, u) :: Memory.writeByte rest a v

/-- `MemWrite(off, n, v)` (R10, R51), with `n` the number of bytes of `v`. -/
def Memory.write (m : Memory) (off : Nat) (v : List Byte) : Memory :=
  match v with
  | [] => m
  | b :: rest => Memory.write (Memory.writeByte m off b) (off + 1) rest

/-- The bytes of the result in increasing offset order. -/
def Memory.bytes (m : Memory) : List Byte := m.map Prod.snd

/-- `MemWrite` on the result of the running command. -/
def State.memWrite (off : Nat) (v : List Byte) (s : State) : State :=
  s.setWork { s.this.work with out := s.this.work.out.write off v }

/-- `MemRead(off, n)` (R10, R51): the bytes `data[off .. off+n)` of the data operand of the running
command, which must lie inside it (a chunk past its end: DEDUCED, safe, notes/assumptions/11.md). -/
def State.memRead (off n : Nat) (s : State) : Option (List Byte) :=
  if off + n ≤ s.this.work.data.length then some ((s.this.work.data.drop off).take n) else none

/-! ## The end of a command -/

/-- The number of a result code (60_exceptions.md R205). -/
def ResultCode.code : ResultCode → Byte
  | .ok => 0
  | .invalidKeyLength => 1
  | .invalidIVLength => 2
  | .invalidBlockLength => 3
  | .noSchedule => 4
  | .noStream => 5
  | .invalidChunkLength => 6
  | .illegalCommand => 7

/-- The core becomes idle: no command in progress, `SEQ` idle, `BUSY = 0` (R31, R246). -/
def State.idle (s : State) : State :=
  { s with this := { s.this with busy := false, seq := Seq.idle, work := Work.none } }

/-- A command ends: `STATUS.ERR <- c`, one response frame is produced, whose byte 0 is the code
(30_encoding.md R89), and the core is idle. -/
def State.respond (c : ResultCode) (payload : List Byte) (s : State) : State :=
  { s.idle with
    this := { s.idle.this with err := c, responses := s.this.responses ++ [c.code :: payload] } }

/-- `raise E` (60_exceptions.md R214), the core's one exception entry: `STATUS.ERR <- code(E)`,
`SEQ <- IDLE`, the response is the single byte `code(E)`, nothing else changes. There is no return
from it (R216): the next frame is treated like any other. -/
def State.raise (e : ResultCode) (s : State) : State := s.respond e []

/-! ## The turn among instances (60_exceptions.md R223) -/

/-- The turn passes to the next instance, in a fixed cyclic order (DESIGN CHOICE, safe:
notes/assumptions/7.md). -/
def State.nextInstance (s : State) : State :=
  match s.peers with
  | [] => s
  | p :: ps => { s with this := p, peers := ps ++ [s.this] }

/-- The turn passes on by `k` places. -/
def State.rotate : Nat → State → State
  | 0, s => s
  | k + 1, s => State.rotate k s.nextInstance

/-- The turn the outside has set for this step is taken. -/
def State.passTurn (s : State) : State :=
  match s.turns with
  | [] => s
  | k :: ts => State.rotate k { s with turns := ts }

/-! ## The shared schedule (70_reset_and_hazards.md R242) -/

/-- Is another instance that shares `W` busy? It counts whatever it is busy with (DEDUCED, safe:
notes/assumptions/9.md). -/
def State.scheduleInUse (s : State) : Bool := s.peers.any fun p => p.busy

/-- A word with code 0x1 or 0x2 writes `W` (KSLOAD, KSWORD: R33). -/
def writesSchedule (w : UopWord) : Bool := w.toNat / 64 == 1 || w.toNat / 64 == 2

/-- Has another instance writes of `W` still to make? That a read is refused then is DEDUCED, safe
(notes/assumptions/8.md). -/
def State.scheduleChanging (s : State) : Bool :=
  s.peers.any fun p => p.work.pending.any writesSchedule

/-! ## The reset event (70_reset_and_hazards.md R235) -/

/-- Sixteen bytes nobody knows. -/
def freeBlock (base : Nat) : Block := Vector.ofFn fun i => Config.freeByte (base + i.val)

/-- One instance under reset (R37): a command in progress is abandoned without a response; `S` and `FB`
hold no value. What the host has offered and what it has been answered are the host's and stay (DESIGN
CHOICE, unsafe: notes/assumptions/16.md). -/
def CoreInstance.underReset (base : Nat) (c : CoreInstance) : CoreInstance :=
  { CoreInstance.reset with
    grid := freeBlock base
    fb := freeBlock (base + 16)
    offered := c.offered
    responses := c.responses }

/-- The other instances under reset. -/
def resetPeers (base : Nat) (cs : List CoreInstance) : List CoreInstance :=
  match cs with
  | [] => []
  | c :: rest => c.underReset base :: resetPeers (base + 32) rest

/-- The machine while the reset input is asserted (R235, R37): `KS_VALID` is 0 and `W` holds no value;
neither "the old key is gone" nor "it is still there" can be proved. -/
def State.underReset (s : State) : State :=
  { s with
    w := Vector.ofFn fun i => Config.freeWord (s.freeUsed + i.val)
    ksValid := false
    this := s.this.underReset s.freeUsed
    peers := resetPeers (s.freeUsed + 32) s.peers
    freeUsed := s.freeUsed + 60 + 32 * (s.peers.length + 1) }

end Sys2Proof.Machine
end

