-- ==== Sys2Proof/Machine/Operands.lean ====
section
/-! DEFINITION. The operand forms: operands of exact length (20_memory.md R59), the order of a command's
checks (60_exceptions.md R215), the chunks of the data operand (20_memory.md R58), the keystream
exclusive-or, and a schedule as bytes (30_encoding.md R90). -/

namespace Sys2Proof.Machine

/-- An operand of exactly `n` bytes; any other length gives none (R59: never split, truncated or
padded). -/
def exactly (n : Nat) (l : List Byte) : Option (Vector Byte n) :=
  if h : l.length = n then some ⟨l.toArray, by simpa using h⟩ else none

/-- The checks of KEYEXP (R215): `len(key) = 32`. -/
def checkKeyexp (key : List Byte) : Except ResultCode Key :=
  match exactly 32 key with
  | none => .error .invalidKeyLength
  | some k => .ok k

/-- The checks of ENCBLK (R215): `len(block) = 16`, then `KS_VALID = 1`. -/
def checkEncblk (block : List Byte) (s : State) : Except ResultCode Block :=
  match exactly 16 block with
  | none => .error .invalidBlockLength
  | some b => if s.ksValid then .ok b else .error .noSchedule

/-- The checks of STREAM (R215): `len(key) = 32`, then `len(iv) = 16`. -/
def checkStream (key iv : List Byte) : Except ResultCode (Key × Block) :=
  match exactly 32 key with
  | none => .error .invalidKeyLength
  | some k =>
    match exactly 16 iv with
    | none => .error .invalidIVLength
    | some v => .ok (k, v)

/-- The checks of OFBINIT (R215): `len(iv) = 16`, then `KS_VALID = 1`. -/
def checkOfbinit (iv : List Byte) (s : State) : Except ResultCode Block :=
  match exactly 16 iv with
  | none => .error .invalidIVLength
  | some v => if s.ksValid then .ok v else .error .noSchedule

/-- The checks of OFBCHUNK (R215): `1 ≤ len(data) ≤ 16`, then `KS_VALID = 1`, then `FB_VALID = 1`. -/
def checkOfbchunk (data : List Byte) (s : State) : Except ResultCode Unit :=
  if data.length < 1 ∨ 16 < data.length then .error .invalidChunkLength
  else if s.ksValid = false then .error .noSchedule
  else if s.this.fbValid = false then .error .noStream
  else .ok ()

/-- The chunks of `data` (R58), with fuel; the fuel never runs out before the data. -/
def chunksWithin : Nat → List Byte → List (List Byte)
  | 0, _ => []
  | _ + 1, [] => []
  | n + 1, b :: bs => (b :: bs).take 16 :: chunksWithin n ((b :: bs).drop 16)

/-- The chunks of `data` (R58): chunk n is `data[16n .. min(16n+16, len(data)))`. -/
def chunks (data : List Byte) : List (List Byte) := chunksWithin data.length data

/-- `d[j] ^ ks[j]` for each byte of the chunk (R183): only the leading bytes of the keystream block are
used when the chunk is short. -/
def xorChunk (chunk : List Byte) (ks : Block) : List Byte :=
  List.zipWith (fun d k => d ^^^ k) chunk ks.toList

/-- A word as four bytes, most significant first (R90). -/
def wordBytes (w : Word) : List Byte := [byteOf 0 w, byteOf 1 w, byteOf 2 w, byteOf 3 w]

/-- The schedule as 240 bytes (R89, R90). -/
def scheduleBytes (w : Schedule) : List Byte := w.toList.flatMap wordBytes

end Sys2Proof.Machine
end

