-- ==== Sys2Proof/Machine/Flags.lean ====
section
/-! DEFINITION. The status register as the byte of 10_state.md R28, and the codes of the sequencer
counters (R30): views of fields that State stores once. -/

namespace Sys2Proof.Machine

/-- A flag as a bit at position `k`. -/
def flagBit (b : Bool) (k : Nat) : Byte := if b then 1 <<< k else 0

/-- `STATUS` (R28) of an instance under the flag `KS_VALID`: ERR in bits 2:0, KS_VALID in 3, FB_VALID in
4, BUSY in 5, bits 7:6 zero. -/
def CoreInstance.status (ksValid : Bool) (c : CoreInstance) : Byte :=
  c.err.code ||| flagBit ksValid 3 ||| flagBit c.fbValid 4 ||| flagBit c.busy 5

/-- `STATUS` of the acting instance. -/
def State.status (s : State) : Byte := s.this.status s.ksValid

/-- `PHASE` as its 3-bit number (R30). -/
def Phase.code : Phase → BitVec 3
  | .idle => 0
  | .validate => 1
  | .kexp => 2
  | .cipher => 3
  | .emit => 4

/-- `STEP` as its 2-bit number (R30). -/
def RoundStep.code : RoundStep → BitVec 2
  | .subbytes => 0
  | .shiftrows => 1
  | .mixcolumns => 2
  | .addroundkey => 3

end Sys2Proof.Machine
end

