-- ==== Sys2Proof/Machine/BlockEncryptor.lean ====
section
/-! DEFINITION. The meaning of 43_block_encryptor.md: ENCBLK. -/

namespace Sys2Proof.Machine

/-- ENCBLK (R167): `S` becomes the last State of the encryption, whose serialisation is the answer. -/
def execEncblk (block : List Byte) (s : State) : Host.Outcome State Fault Refusal :=
  match checkEncblk block s with
  | .error e => .next (s.raise e)
  | .ok b =>
    if s.scheduleChanging then .refused .scheduleInUse
    else .next ((s.setGrid (encryptBlock b s.w)).respond .ok (encryptBlock b s.w).toList)

end Sys2Proof.Machine
end

