-- ==== Sys2Proof/Machine/KeySchedule.lean ====
section
/-! DEFINITION. The meanings of 41_key_schedule.md: KSLOAD, KSWORD, KEYEXP. -/

namespace Sys2Proof.Machine

/-- A write of `W` (R21): it has no step while another instance that shares `W` is busy
(70_reset_and_hazards.md R242, 92_eei_decisions.md D21, 93_implementation_defined.md U5; that each single
write is tested is DEDUCED, safe: notes/assumptions/21.md). -/
def writeSchedule (w : Schedule) (s : State) : Host.Outcome State Fault Refusal :=
  if s.scheduleInUse then .refused .scheduleInUse else .next (s.setW w)

/-- KSLOAD (R131): `W[0..7]` from the key operand. -/
def execKsload (s : State) : Host.Outcome State Fault Refusal :=
  writeSchedule (loadKeyWords s.this.work.key s.w) s

/-- KSWORD i (R132): `W[i]`, for i in 8..59; another argument has no meaning (R95). -/
def execKsword (i : Nat) (s : State) : Host.Outcome State Fault Refusal :=
  if 8 ≤ i ∧ i ≤ 59 then writeSchedule (stepWord s.w i) s else .refused .reservedArgument

/-- KEYEXP (R133). `S` and `FB` are not touched (notes/assumptions/18.md). -/
def execKeyexp (key : List Byte) (s : State) : Host.Outcome State Fault Refusal :=
  match checkKeyexp key with
  | .error e => .next (s.raise e)
  | .ok k =>
    if s.scheduleInUse then .refused .scheduleInUse
    else
      .next ((((s.setW (expandInto k s.w)).setKsValid true).setFbValid false).respond .ok
        (scheduleBytes (expandInto k s.w)))

end Sys2Proof.Machine
end

