-- ==== Sys2Proof/Machine/OfbStream.lean ====
section
/-! DEFINITION. The meanings of 44_ofb_stream.md: FBLOAD, OFBXOR, FBUPDATE, OFBINIT, OFBCHUNK, STREAM. -/

namespace Sys2Proof.Machine

/-- FBLOAD (R182): `FB` from the IV operand, and `FB_VALID <- 1`. -/
def execFbload (s : State) : Host.Outcome State Fault Refusal :=
  .next ((s.setFb s.this.work.iv).setFbValid true)

/-- OFBXOR n (R183), n in 1..16, at `off = SEQ.OFF`; another argument has no meaning (R95), and the
chunk lies inside the data operand (R51). -/
def execOfbxor (n : Nat) (s : State) : Host.Outcome State Fault Refusal :=
  if 1 ≤ n ∧ n ≤ 16 then
    match s.memRead s.this.seq.off n with
    | none => .fault .dataOperandRange
    | some d => .next (s.memWrite s.this.seq.off (xorChunk d s.this.grid))
  else .refused .reservedArgument

/-- FBUPDATE (R184): `FB` becomes the whole keystream block, never the output chunk (R247). -/
def execFbupdate (s : State) : Host.Outcome State Fault Refusal := .next (s.setFb s.this.grid)

/-- OFBINIT (R185). It does not read `W`, so no use of the schedule by another instance stops it: DEDUCED,
unsafe (notes/assumptions/19.md). The other instance's writes of `W` wait for it (`writeSchedule`). -/
def execOfbinit (iv : List Byte) (s : State) : Host.Outcome State Fault Refusal :=
  match checkOfbinit iv s with
  | .error e => .next (s.raise e)
  | .ok v => .next (((s.setFb v).setFbValid true).respond .ok [])

/-- OFBCHUNK (R186): one iteration of the loop of R180. -/
def execOfbchunk (data : List Byte) (s : State) : Host.Outcome State Fault Refusal :=
  match checkOfbchunk data s with
  | .error e => .next (s.raise e)
  | .ok () =>
    if s.scheduleChanging then .refused .scheduleInUse
    else
      .next (((s.setGrid (encryptBlock s.this.fb s.w)).setFb (encryptBlock s.this.fb s.w)).respond .ok
        (xorChunk data (encryptBlock s.this.fb s.w)))

/-- What the chunk loop carries (R180, R187): `S`, `FB` and the output so far. -/
structure StreamRun where
  grid : Block
  fb : Block
  out : List Byte
deriving DecidableEq, Repr

/-- One iteration of the loop (R180): the feedback for the next chunk is the full keystream block. -/
def streamChunk (w : Schedule) (r : StreamRun) (chunk : List Byte) : StreamRun :=
  { grid := encryptBlock r.fb w
    fb := encryptBlock r.fb w
    out := r.out ++ xorChunk chunk (encryptBlock r.fb w) }

/-- The chunk loop over all of `data` (R180, R58). -/
def streamLoop (w : Schedule) (start : StreamRun) (data : List Byte) : StreamRun :=
  (chunks data).foldl (streamChunk w) start

/-- `StreamTransform(key, iv, data)` (R180) on values of the right length. -/
def streamTransform (key : Key) (iv : Block) (data : List Byte) : List Byte :=
  (streamLoop (keyExpand key) ⟨iv, iv, []⟩ data).out

/-- The keystream blocks (R180): `K_0 = EncryptBlock(iv, w)` and `K_n = EncryptBlock(K_(n-1), w)`. -/
def keystreamBlock (w : Schedule) (iv : Block) : Nat → Block
  | 0 => encryptBlock iv w
  | n + 1 => encryptBlock (keystreamBlock w iv n) w

/-- The feedback after `n` chunks (R191): the IV at first, then the last keystream block. -/
def feedbackAfter (w : Schedule) (iv : Block) : Nat → Block
  | 0 => iv
  | n + 1 => keystreamBlock w iv n

/-- STREAM (R187). `S` is written when `data` is not empty. -/
def execStream (key iv data : List Byte) (s : State) : Host.Outcome State Fault Refusal :=
  match checkStream key iv with
  | .error e => .next (s.raise e)
  | .ok (k, v) =>
    if s.scheduleInUse then .refused .scheduleInUse
    else
      let w := expandInto k s.w
      let r := streamLoop w ⟨s.this.grid, v, []⟩ data
      .next (((((s.setW w).setKsValid true).setGrid r.grid).setFb r.fb).setFbValid true |>.respond .ok r.out)

end Sys2Proof.Machine
end

