-- ==== Sys2Proof/Machine/StateTransforms.lean ====
section
/-! DEFINITION. The meanings of 42_state_transforms.md: LDSTATE, STSTATE, SUBBYTES, SHIFTROWS,
MIXCOLUMNS, ADDROUNDKEY. None of them can fail (R154). -/

namespace Sys2Proof.Machine

/-- LDSTATE src (R145): all 16 cells of `S`, from the block operand or from `FB`. -/
def execLdstate (src : LoadSource) (s : State) : Host.Outcome State Fault Refusal :=
  match src with
  | .block => .next (s.setGrid s.this.work.blk)
  | .feedback => .next (s.setGrid s.this.fb)

/-- SUBBYTES (R147). -/
def execSubbytes (s : State) : Host.Outcome State Fault Refusal :=
  .next (s.setGrid (subBytes s.this.grid))

/-- SHIFTROWS (R148). -/
def execShiftrows (s : State) : Host.Outcome State Fault Refusal :=
  .next (s.setGrid (shiftRows s.this.grid))

/-- MIXCOLUMNS (R150). -/
def execMixcolumns (s : State) : Host.Outcome State Fault Refusal :=
  .next (s.setGrid (mixColumns s.this.grid))

/-- ADDROUNDKEY k (R152), k in 0..14; another argument has no meaning (R95). -/
def execAddroundkey (k : Nat) (s : State) : Host.Outcome State Fault Refusal :=
  if k ≤ 14 then .next (s.setGrid (addRoundKey s.w k s.this.grid)) else .refused .reservedArgument

/-- STSTATE (R146): the 16 result bytes at offset 0. -/
def execStstate (s : State) : Host.Outcome State Fault Refusal :=
  .next (s.memWrite 0 s.this.grid.toList)

end Sys2Proof.Machine
end

