-- ==== Sys2Proof/Machine/Dispatch.lean ====
section
/-! DEFINITION. One arm per instruction: exec gives each instruction of the opcode table its meaning. -/

namespace Sys2Proof.Machine

def exec (i : Instr) (s : State) : Host.Outcome State Fault Refusal :=
  match i with
  -- 41_key_schedule.md, 43_block_encryptor.md, 44_ofb_stream.md: the host commands
  | .keyexp key => Sys2Proof.Machine.execKeyexp key s
  | .encblk block => Sys2Proof.Machine.execEncblk block s
  | .stream key iv data => Sys2Proof.Machine.execStream key iv data s
  | .ofbinit iv => Sys2Proof.Machine.execOfbinit iv s
  | .ofbchunk data => Sys2Proof.Machine.execOfbchunk data s
  -- the micro-operations of 30_encoding.md R95
  | .ksload => Sys2Proof.Machine.execKsload s
  | .ksword j => Sys2Proof.Machine.execKsword j s
  | .ldstate src => Sys2Proof.Machine.execLdstate src s
  | .subbytes => Sys2Proof.Machine.execSubbytes s
  | .shiftrows => Sys2Proof.Machine.execShiftrows s
  | .mixcolumns => Sys2Proof.Machine.execMixcolumns s
  | .addroundkey k => Sys2Proof.Machine.execAddroundkey k s
  | .ststate => Sys2Proof.Machine.execStstate s
  | .fbload => Sys2Proof.Machine.execFbload s
  | .ofbxor n => Sys2Proof.Machine.execOfbxor n s
  | .fbupdate => Sys2Proof.Machine.execFbupdate s

end Sys2Proof.Machine
end

