-- ==== Sys2Proof/WellFormed.lean ====
section
/-! DEFINITION. Which instructions have an encoding that something may issue: a command whose counted
operands fit a length byte (30_encoding.md R82, R93), a micro-operation whose argument is in the range
of R95. Whether an operand has the RIGHT length is no matter of form: a command with a 31-byte key is
well-formed and fails with its own error (R92). -/

namespace Sys2Proof

/-- The operand fits a counted field (R82): a length byte says 0..255. -/
def fitsLengthByte (operand : List Byte) : Bool := operand.length ≤ Config.lenFieldMax

/-- The well-formed instructions. -/
def Instr.wellFormed : Instr → Bool
  | .keyexp key => fitsLengthByte key
  | .encblk block => fitsLengthByte block
  | .stream key iv _ => fitsLengthByte key && fitsLengthByte iv
  | .ofbinit iv => fitsLengthByte iv
  | .ofbchunk _ => true
  | .ksword i => 8 ≤ i && i ≤ 59
  | .addroundkey k => k ≤ 14
  | .ofbxor n => 1 ≤ n && n ≤ 16
  | .ksload | .ldstate _ | .subbytes | .shiftrows | .mixcolumns | .ststate | .fbload
  | .fbupdate => true

end Sys2Proof
end

