-- ==== Sys2Proof/Decode.lean ====
section
/-! DEFINITION. Decoding (30_encoding.md R91 to R95): command frames are byte sequences whose length the
transport delivers (R81), micro-operation words are 10 bits. Both decoders are total and reject by name;
after them the encoders, written from the same tables. -/

namespace Sys2Proof

/-- Why a frame or a word has no meaning. A frame's rejection is `Illegal` of R93 whatever the name. -/
inductive DecodeError where
  /-- `L = 0`: no opcode byte (R92). -/
  | noOpcode
  /-- An opcode byte outside 0x01..0x05 (R91). -/
  | illegalOpcode
  /-- A length byte is missing (R92). -/
  | missingLength
  /-- A counted field runs past the end of the frame (R92). -/
  | fieldPastEnd
  /-- Bytes follow the last field of a command without a tail field (R92). -/
  | trailingBytes
  /-- A micro-operation code 0x0 or 0xC..0xF (R95, 93_implementation_defined.md U10). -/
  | reservedCode
  /-- Argument bits set that the word's pattern in R95 fixes at 0 (U10). -/
  | reservedBits
deriving DecidableEq, Repr

/-- A counted field at the head of `f` (R82): its bytes and the rest of the frame. -/
def countedField (f : List Byte) : Except DecodeError (List Byte × List Byte) :=
  match f with
  | [] => .error .missingLength
  | n :: rest =>
    if rest.length < n.toNat then .error .fieldPastEnd
    else .ok (rest.take n.toNat, rest.drop n.toNat)

/-- A command with one counted field and no tail (R84, R85, R87): the field fills the frame. -/
def soleField (make : List Byte → Instr) (f : List Byte) : Except DecodeError Instr :=
  match countedField f with
  | .error e => .error e
  | .ok (operand, []) => .ok (make operand)
  | .ok (_, _ :: _) => .error .trailingBytes

/-- The fields of STREAM (R86): key, iv, and the tail `data`. -/
def streamFields (f : List Byte) : Except DecodeError Instr :=
  match countedField f with
  | .error e => .error e
  | .ok (key, rest) =>
    match countedField rest with
    | .error e => .error e
    | .ok (iv, data) => .ok (.stream key iv data)

/-- `Decode(f, L)` (R93), with `L = f.length`. -/
def decodeFrame (f : List Byte) : Except DecodeError Instr :=
  match f with
  | [] => .error .noOpcode
  | opcode :: rest =>
    match opcode.toNat with
    | 0x01 => soleField .keyexp rest
    | 0x02 => soleField .encblk rest
    | 0x03 => streamFields rest
    | 0x04 => soleField .ofbinit rest
    | 0x05 => .ok (.ofbchunk rest)
    | _ => .error .illegalOpcode

/-- The code field `uop[9:6]` (R94). -/
def uopCode (w : UopWord) : Nat := w.toNat / 64

/-- The argument field `uop[5:0]`, unsigned (R94). -/
def uopArg (w : UopWord) : Nat := w.toNat % 64

/-- A micro-operation without an argument has `uop[5:0] = 0` (R94). -/
def bareUop (i : Instr) (arg : Nat) : Except DecodeError Instr :=
  if arg = 0 then .ok i else .error .reservedBits

/-- The micro-operation a word names by the patterns of R95 and of the opcode table. An argument that
fits the pattern but not the range R95 shows (KSWORD 7) still names its micro-operation; its meaning
refuses it (DESIGN CHOICE, safe: notes/assumptions/13.md). -/
def decodeUop (w : UopWord) : Except DecodeError Instr :=
  let arg := uopArg w
  match uopCode w with
  | 0x1 => bareUop .ksload arg
  | 0x2 => .ok (.ksword arg)
  | 0x3 => if arg = 0 then .ok (.ldstate .block)
           else if arg = 1 then .ok (.ldstate .feedback) else .error .reservedBits
  | 0x4 => bareUop .subbytes arg
  | 0x5 => bareUop .shiftrows arg
  | 0x6 => bareUop .mixcolumns arg
  | 0x7 => if arg < 16 then .ok (.addroundkey arg) else .error .reservedBits
  | 0x8 => bareUop .ststate arg
  | 0x9 => bareUop .fbload arg
  | 0xA => if arg < 32 then .ok (.ofbxor arg) else .error .reservedBits
  | 0xB => bareUop .fbupdate arg
  | _ => .error .reservedCode

/-- The two encoded things of R80. -/
inductive Encoded where
  | frame (bytes : List Byte)
  | uop (word : UopWord)
deriving DecidableEq, Repr

/-- Decoding of either encoded thing. -/
def decode : Encoded → Except DecodeError Instr
  | .frame f => decodeFrame f
  | .uop w => decodeUop w

/-! ## The encoder -/

/-- A counted field (R82): the length byte, then the bytes. -/
def putCounted (operand : List Byte) : List Byte := BitVec.ofNat 8 operand.length :: operand

/-- A micro-operation word (R94) from its code and argument. -/
def putUop (code arg : Nat) : UopWord := BitVec.ofNat 4 code ++ BitVec.ofNat 6 arg

/-- The argument of LDSTATE (R145). -/
def LoadSource.arg : LoadSource → Nat
  | .block => 0
  | .feedback => 1

/-- The frame (R84 to R88) or word (R95) of an instruction. -/
def encode : Instr → Encoded
  | .keyexp key => .frame (0x01 :: putCounted key)
  | .encblk block => .frame (0x02 :: putCounted block)
  | .stream key iv data => .frame (0x03 :: (putCounted key ++ putCounted iv ++ data))
  | .ofbinit iv => .frame (0x04 :: putCounted iv)
  | .ofbchunk data => .frame (0x05 :: data)
  | .ksload => .uop (putUop 0x1 0)
  | .ksword i => .uop (putUop 0x2 i)
  | .ldstate src => .uop (putUop 0x3 src.arg)
  | .subbytes => .uop (putUop 0x4 0)
  | .shiftrows => .uop (putUop 0x5 0)
  | .mixcolumns => .uop (putUop 0x6 0)
  | .addroundkey k => .uop (putUop 0x7 k)
  | .ststate => .uop (putUop 0x8 0)
  | .fbload => .uop (putUop 0x9 0)
  | .ofbxor n => .uop (putUop 0xA n)
  | .fbupdate => .uop (putUop 0xB 0)

/-! ## The opcode table's numbering of bits -/

/-- The first `n` bytes of a number whose bits are counted from the first byte's bit 0. -/
def tableBytes : Nat → Nat → List Byte
  | 0, _ => []
  | n + 1, w => BitVec.ofNat 8 w :: tableBytes n (w / 256)

/-- `f` with zero bytes after it up to length `n`. -/
def zeroFilled (n : Nat) (f : List Byte) : List Byte := f ++ List.replicate (n - f.length) 0

/-- The frame that begins with `f` and whose further bytes are zeros, up to the end that its own length
bytes give (R84 to R87): zero length bytes and zero operand bytes. OFBCHUNK's operand is a tail (R88),
so nothing is added to it. -/
def completedFrame (f : List Byte) : List Byte :=
  match f with
  | [] => []
  | opcode :: _ =>
    if opcode = 0x01 ∨ opcode = 0x02 ∨ opcode = 0x04 then
      zeroFilled (2 + (f.getD 1 0).toNat) f
    else if opcode = 0x03 then
      zeroFilled (3 + (f.getD 1 0).toNat + (f.getD (2 + (f.getD 1 0).toNat) 0).toNat) f
    else f

/-- The encoded thing a row of spec/opcode_table.json stands for: a CMD row fixes the first byte of a
frame (8 bits), a UOP row has 10 bits (16 in whole bytes). Every UOP code is 1 or more, so a
micro-operation word is at least 64, and no opcode byte is (notes/assumptions/13.md). -/
def encodedOfTable (nbits w : Nat) : Encoded :=
  if 8 < nbits ∧ nbits ≤ 16 ∧ 64 ≤ w ∧ w < 1024 then .uop (BitVec.ofNat 10 w)
  else .frame (completedFrame (tableBytes (nbits / 8) w))

/-- The instruction the decoder reads from a row's bits (`encodedOfTable` lays them out). -/
def decodeTableWord (nbits w : Nat) : Option Instr := (decode (encodedOfTable nbits w)).toOption

end Sys2Proof
end

