-- ==== Sys2Proof/Machine/Sequencer.lean ====
section
/-! DEFINITION. The sequencer: the fixed micro-operation sequences of the commands (41_key_schedule.md
R134, 43_block_encryptor.md R166, 44_ofb_stream.md R185 to R187), the counters `SEQ` (10_state.md R30,
R31), the acceptance of a frame, the start of a command and its end, at the grain of micro-operations.
-/

namespace Sys2Proof.Machine

/-! ## The fixed sequences -/

/-- KSLOAD; KSWORD(8); …; KSWORD(59): 53 words (R134). -/
def keyExpandProgram : List UopWord := putUop 0x1 0 :: scheduleIndices.map (putUop 0x2)

/-- SUBBYTES; SHIFTROWS; MIXCOLUMNS; ADDROUNDKEY(r) (R166). -/
def roundProgram (r : Nat) : List UopWord := [putUop 0x4 0, putUop 0x5 0, putUop 0x6 0, putUop 0x7 r]

/-- `CIPHER(src)`: 57 words (R166); the last round has no MIXCOLUMNS (R168). -/
def cipherProgram (src : LoadSource) : List UopWord :=
  [putUop 0x3 src.arg, putUop 0x7 0] ++ (List.range' 1 13).flatMap roundProgram
    ++ [putUop 0x4 0, putUop 0x5 0, putUop 0x7 14]

/-- `CIPHER(1)`; OFBXOR(n); FBUPDATE for a chunk of n bytes (R186, R187). -/
def chunkProgram (chunk : List Byte) : List UopWord :=
  cipherProgram .feedback ++ [putUop 0xA chunk.length, putUop 0xB 0]

/-- The words of OFBINIT: FBLOAD alone (R185). -/
def ofbinitProgram : List UopWord := [putUop 0x9 0]

/-- The words of STREAM (R187): the key expansion, FBLOAD, and one round of the loop per chunk. -/
def streamProgram (data : List Byte) : List UopWord :=
  keyExpandProgram ++ ofbinitProgram ++ (chunks data).flatMap chunkProgram

/-! ## The counters (R31) -/

/-- The counters when the sequencer comes to micro-operation `i`. The load that opens a key expansion or
a block encryption runs with the counters at the first value R31 lists; FBLOAD, for which R31 names no
phase, leaves them (DESIGN CHOICE, unsafe: notes/assumptions/6.md). -/
def Seq.entering (i : Instr) (q : Seq) : Seq :=
  match i with
  | .ksload => { q with phase := .kexp, wi := 8 }
  | .ksword _ => { q with phase := .kexp }
  | .ldstate _ => { q with phase := .cipher, rnd := 0, step := .addroundkey }
  | .subbytes | .shiftrows | .mixcolumns | .addroundkey _ => { q with phase := .cipher }
  | .ststate | .ofbxor _ | .fbupdate => { q with phase := .emit }
  | .fbload | .keyexp _ | .encblk _ | .stream _ _ _ | .ofbinit _ | .ofbchunk _ => q

/-- How the counters count when micro-operation `i` has run (R31): WI 8, 9, …, 59, then 60; (RND, STEP)
(0,3), (1,0), …, (13,3), (14,0), (14,1), (14,3), the pair (14,2) being skipped; OFF by 16 (R187). -/
def Seq.leaving (i : Instr) (q : Seq) : Seq :=
  match i with
  | .ksword j => { q with wi := j + 1 }
  | .subbytes => { q with step := .shiftrows }
  | .shiftrows => { q with step := if q.rnd = Config.nr then .addroundkey else .mixcolumns }
  | .mixcolumns => { q with step := .addroundkey }
  | .addroundkey k => if k < Config.nr then { q with rnd := k + 1, step := .subbytes } else q
  | .fbupdate => { q with off := q.off + 16 }
  | .ksload | .ldstate _ | .ststate | .fbload | .ofbxor _ | .keyexp _ | .encblk _ | .stream _ _ _
  | .ofbinit _ | .ofbchunk _ => q

/-- The counters when the sequencer comes to the first of the words `ws`. -/
def Seq.toward (ws : List UopWord) (q : Seq) : Seq :=
  match ws with
  | [] => q
  | w :: _ =>
    match decodeUop w with
    | .ok i => q.entering i
    | .error _ => q

/-! ## From a frame to its micro-operations -/

/-- The frame at the head of the port is taken from it; `rest` stays offered. -/
def State.take (rest : List (List Byte)) (s : State) : State :=
  { s with this := { s.this with offered := rest } }

/-- A frame is accepted (R31, 70_reset_and_hazards.md R246): `BUSY = 1`, `PHASE` goes to VALIDATE. Whatever
other instances do, it is accepted (notes/assumptions/20.md). -/
def State.accept (f : List Byte) (rest : List (List Byte)) (s : State) : State :=
  { s with
    this := { s.this with
      offered := rest
      busy := true
      seq := { Seq.idle with phase := .validate }
      work := { Work.none with held := some f } } }

/-- The micro-operations of a command begin: its operands are held and its words pending. -/
def State.begin (k : Work) (s : State) : State :=
  (s.setWork k).setSeq (s.this.seq.toward k.pending)

/-- KEYEXP validated and begun (R133). -/
def startKeyexp (key : List Byte) (s : State) : Host.Outcome State Fault Refusal :=
  match checkKeyexp key with
  | .error e => .next (s.raise e)
  | .ok k =>
    if s.scheduleInUse then .refused .scheduleInUse
    else .next (s.begin { Work.none with running := some .keyexp, key := k, pending := keyExpandProgram })

/-- ENCBLK validated and begun (R167): `CIPHER(0)`; STSTATE. -/
def startEncblk (block : List Byte) (s : State) : Host.Outcome State Fault Refusal :=
  match checkEncblk block s with
  | .error e => .next (s.raise e)
  | .ok b =>
    if s.scheduleChanging then .refused .scheduleInUse
    else
      .next (s.begin { Work.none with
        running := some .encblk, blk := b, pending := cipherProgram .block ++ [putUop 0x8 0] })

/-- OFBINIT validated and begun (R185). It does not read `W`, so it is performed also while another instance
is rewriting `W`: DEDUCED, unsafe (notes/assumptions/19.md). -/
def startOfbinit (iv : List Byte) (s : State) : Host.Outcome State Fault Refusal :=
  match checkOfbinit iv s with
  | .error e => .next (s.raise e)
  | .ok v =>
    .next (s.begin { Work.none with running := some .ofbinit, iv := v, pending := ofbinitProgram })

/-- OFBCHUNK validated and begun (R186). -/
def startOfbchunk (data : List Byte) (s : State) : Host.Outcome State Fault Refusal :=
  match checkOfbchunk data s with
  | .error e => .next (s.raise e)
  | .ok () =>
    if s.scheduleChanging then .refused .scheduleInUse
    else
      .next (s.begin { Work.none with
        running := some .ofbchunk, data := data, pending := chunkProgram data })

/-- STREAM validated and begun (R187). -/
def startStream (key iv data : List Byte) (s : State) : Host.Outcome State Fault Refusal :=
  match checkStream key iv with
  | .error e => .next (s.raise e)
  | .ok (k, v) =>
    if s.scheduleInUse then .refused .scheduleInUse
    else
      .next (s.begin { Work.none with
        running := some .stream, key := k, iv := v, data := data, pending := streamProgram data })

/-- A command validated and begun. No frame decodes to a micro-operation, so the last arm is never
taken. Here, and not at acceptance, the use of the shared schedule is tested (70_reset_and_hazards.md R242):
DESIGN CHOICE, unsafe (notes/assumptions/20.md). -/
def start (i : Instr) (s : State) : Host.Outcome State Fault Refusal :=
  match i with
  | .keyexp key => startKeyexp key s
  | .encblk block => startEncblk block s
  | .stream key iv data => startStream key iv data s
  | .ofbinit iv => startOfbinit iv s
  | .ofbchunk data => startOfbchunk data s
  | .ksload | .ksword _ | .ldstate _ | .subbytes | .shiftrows | .mixcolumns | .addroundkey _
  | .ststate | .fbload | .ofbxor _ | .fbupdate => .refused .reservedWord

/-! ## From the last micro-operation to the response -/

/-- The command in progress ends (R133, R167, R185 to R187): what is left of its effect after its last
micro-operation, and its response (30_encoding.md R89). A micro-operation outside any command has
no response (DEDUCED, unsafe: notes/assumptions/12.md). -/
def State.finishCommand (s : State) : State :=
  match s.this.work.running with
  | none => s.idle
  | some .keyexp => (s.setFbValid false).respond .ok (scheduleBytes s.w)
  | some .ofbinit => s.respond .ok []
  | some .encblk | some .stream | some .ofbchunk => s.respond .ok s.this.work.out.bytes

/-- `KS_VALID` is set by the last micro-operation of the key expansion of a command (R26, R245). Outside a
command KSWORD 59 sets no flag (R132; DEDUCED, unsafe: notes/assumptions/12.md). -/
def State.markSchedule (i : Instr) (s : State) : State :=
  if i = .ksword 59 ∧ s.this.work.running.isSome then s.setKsValid true else s

/-- What the sequencer does when micro-operation `i` has run and the words `rest` are left. -/
def State.afterUop (i : Instr) (rest : List UopWord) (s : State) : State :=
  let t := s.markSchedule i
  match rest with
  | [] => t.finishCommand
  | _ :: _ =>
    (t.setWork { t.this.work with pending := rest }).setSeq ((t.this.seq.leaving i).toward rest)

end Sys2Proof.Machine
end

