-- ==== Sys2Proof/Machine/Step.lean ====
section
/-! DEFINITION. One step of the machine. An instance with micro-operation words pending issues the next
one; an idle one takes the frame at the head of its port; reset overrides everything. -/

namespace Sys2Proof.Machine

/-- The sequencer issues a micro-operation word (30_encoding.md R80, R94), and the counters go on. -/
def issue (word : UopWord) (rest : List UopWord) (s : State) : Host.Outcome State Fault Refusal :=
  match decodeUop word with
  | .error _ => .refused .reservedWord
  | .ok i =>
    match exec i s with
    | .next t => .next (t.afterUop i rest)
    | .fault e => .fault e
    | .refused r => .refused r

/-- A whole frame is performed (00_scope.md R7): a malformed one is refused with IllegalCommand
(60_exceptions.md R212). -/
def perform (f : List Byte) (s : State) : Host.Outcome State Fault Refusal :=
  match decodeFrame f with
  | .error _ => .next (s.raise .illegalCommand)
  | .ok i => exec i s

/-- An accepted frame is validated and its command begun, at the grain of micro-operations. -/
def validateFrame (f : List Byte) (s : State) : Host.Outcome State Fault Refusal :=
  match decodeFrame f with
  | .error _ => .next (s.raise .illegalCommand)
  | .ok i => start i s

/-- An instance with nothing in progress: while `BUSY = 1` the port holds frames back
(70_reset_and_hazards.md R246); with no frame offered the core waits (R235). Acceptance makes no test of the
shared schedule, whose use is tested at validation (`start`): DESIGN CHOICE, unsafe
(notes/assumptions/20.md). -/
def takeFrame (s : State) : Host.Outcome State Fault Refusal :=
  match s.this.busy, s.this.offered with
  | true, _ => .next s
  | false, [] => .next s
  | false, f :: rest =>
    match s.grain with
    | .command => perform f (s.take rest)
    | .microOperation => .next (s.accept f rest)

/-- The step of the instance that acts. -/
def stepInstance (s : State) : Host.Outcome State Fault Refusal :=
  match s.this.work.pending, s.this.work.held with
  | word :: rest, _ => issue word rest s
  | [], some f => validateFrame f s
  | [], none => takeFrame s

/-- One step: under reset (70_reset_and_hazards.md R235) the core accepts no frame and produces no
response; otherwise the instance whose turn it is acts. -/
def step (s : State) : Host.Outcome State Fault Refusal :=
  if s.resetIn then .next s.underReset else stepInstance s.passTurn

/-- The data operand that stands behind a single micro-operation word: OFBXOR n needs a chunk of n
bytes (DESIGN CHOICE, safe: notes/assumptions/17.md). -/
def operandBehind (word : UopWord) (data : List Byte) : List Byte :=
  if uopCode word = 0xA ∧ data.length < uopArg word then List.replicate (uopArg word) 0 else data

/-- `s` with the instruction of an opcode-table row where the very next step takes it: a frame at the
head of the port of an idle core, or the one word pending at the sequencer (notes/assumptions/3.md). -/
def State.withFetchWord (s : State) (nbits w : Nat) : State :=
  match encodedOfTable nbits w with
  | .frame f =>
    { s with
      turns := []
      grain := .command
      resetIn := false
      this := { s.this with
        busy := false
        work := { s.this.work with held := none, pending := [] }
        offered := f :: s.this.offered } }
  | .uop word =>
    { s with
      turns := []
      resetIn := false
      this := { s.this with
        work := { s.this.work with
          held := none
          pending := [word]
          data := operandBehind word s.this.work.data } } }

end Sys2Proof.Machine
end

