-- ==== Sys2Proof/Safety.lean ====
section
/-! DEFINITION. The terms in which claims speak of the machine: where an instruction stands ready, the
shape of frames and the order of checks as the spec tabulates them, runs of micro-operations and of
commands, and the invariants. -/

namespace Sys2Proof.Machine

/-! ## Where an instruction stands ready -/

/-- The acting instance is idle, with the frame `f` at the head of its port. -/
structure State.ReadyFor (s : State) (f : List Byte) (rest : List (List Byte)) : Prop where
  noReset : s.resetIn = false
  sameTurn : s.turns = []
  noneHeld : s.this.work.held = none
  nonePending : s.this.work.pending = []
  notBusy : s.this.busy = false
  offered : s.this.offered = f :: rest

/-- The sequencer of the acting instance has `word` to issue, and then `rest`. -/
structure State.Issuing (s : State) (word : UopWord) (rest : List UopWord) : Prop where
  noReset : s.resetIn = false
  sameTurn : s.turns = []
  pending : s.this.work.pending = word :: rest

/-! ## Frames and checks as the spec tabulates them -/

/-- Byte `k` of a frame as a number. -/
def frameByte (f : List Byte) (k : Nat) : Nat := (f.getD k 0).toNat

/-- The malformed frames, by the list of 30_encoding.md R92. -/
def malformed (f : List Byte) : Prop :=
  f.length = 0
  ∨ frameByte f 0 = 0 ∨ 6 ≤ frameByte f 0
  ∨ ((frameByte f 0 = 1 ∨ frameByte f 0 = 2 ∨ frameByte f 0 = 4) ∧
      (f.length < 2 ∨ f.length < 2 + frameByte f 1 ∨ 2 + frameByte f 1 < f.length))
  ∨ (frameByte f 0 = 3 ∧
      (f.length < 2 ∨ f.length < 3 + frameByte f 1 ∨
        f.length < 3 + frameByte f 1 + frameByte f (2 + frameByte f 1)))

/-- The result code of a command by the table of 60_exceptions.md R215: the first check that fails, in
the order of the table. A micro-operation makes no check. -/
def firstFailure (i : Instr) (s : State) : ResultCode :=
  match i with
  | .keyexp key => if key.length ≠ 32 then .invalidKeyLength else .ok
  | .encblk block =>
    if block.length ≠ 16 then .invalidBlockLength
    else if s.ksValid = false then .noSchedule else .ok
  | .stream key iv _ =>
    if key.length ≠ 32 then .invalidKeyLength
    else if iv.length ≠ 16 then .invalidIVLength else .ok
  | .ofbinit iv =>
    if iv.length ≠ 16 then .invalidIVLength
    else if s.ksValid = false then .noSchedule else .ok
  | .ofbchunk data =>
    if data.length = 0 ∨ data.length > 16 then .invalidChunkLength
    else if s.ksValid = false then .noSchedule
    else if s.this.fbValid = false then .noStream else .ok
  | .ksload | .ksword _ | .ldstate _ | .subbytes | .shiftrows | .mixcolumns | .addroundkey _
  | .ststate | .fbload | .ofbxor _ | .fbupdate => .ok

/-- The length of the response payload of a command performed with success (30_encoding.md R89). -/
def payloadLength : Instr → Nat
  | .keyexp _ => 240
  | .encblk _ => 16
  | .stream _ _ data => data.length
  | .ofbinit _ => 0
  | .ofbchunk data => data.length
  | .ksload | .ksword _ | .ldstate _ | .subbytes | .shiftrows | .mixcolumns | .addroundkey _
  | .ststate | .fbload | .ofbxor _ | .fbupdate => 0

/-- How many micro-operations a command performed with success is (70_reset_and_hazards.md R249). -/
def microCount : Instr → Nat
  | .keyexp _ => 53
  | .encblk _ => 58
  | .stream _ _ data => 53 + 1 + 59 * ((data.length + 15) / 16)
  | .ofbinit _ => 1
  | .ofbchunk _ => 59
  | .ksload | .ksword _ | .ldstate _ | .subbytes | .shiftrows | .mixcolumns | .addroundkey _
  | .ststate | .fbload | .ofbxor _ | .fbupdate => 1

/-- The steps a frame takes at the grain of micro-operations when the answer's code is `c`: acceptance,
validation, and, on success, the micro-operations. -/
def microSteps (f : List Byte) (c : ResultCode) : Nat :=
  match decodeFrame f with
  | .ok i => if c = .ok then 2 + microCount i else 2
  | .error _ => 2

/-! ## Runs -/

/-- The datapath effect of a sequence of micro-operation words, one after another (R10). -/
def execWords : List UopWord → State → Host.Outcome State Fault Refusal
  | [], s => .next s
  | word :: rest, s =>
    match decodeUop word with
    | .error _ => .refused .reservedWord
    | .ok i =>
      match exec i s with
      | .next t => execWords rest t
      | .fault e => .fault e
      | .refused r => .refused r

/-- A sequence of commands, one after another (20_memory.md R62). -/
def execAll : List Instr → State → Host.Outcome State Fault Refusal
  | [], s => .next s
  | i :: rest, s =>
    match exec i s with
    | .next t => execAll rest t
    | .fault e => .fault e
    | .refused r => .refused r

/-! ## Invariants -/

/-- An instance between commands (R31, 70_reset_and_hazards.md R251). -/
structure CoreInstance.Resting (c : CoreInstance) : Prop where
  notBusy : c.busy = false
  seqIdle : c.seq = Seq.idle
  noWork : c.work = Work.none

/-- What holds between commands: every instance rests; a valid schedule is the expansion of a key
(10_state.md R35); a valid stream stands under a valid schedule (60_exceptions.md R215). -/
structure State.BetweenCommands (s : State) : Prop where
  wholeCommands : s.grain = .command
  resting : ∀ c ∈ s.this :: s.peers, c.Resting
  schedule : s.ksValid = true → ∃ key : Key, s.w = keyExpand key
  stream : ∀ c ∈ s.this :: s.peers, c.fbValid = true → s.ksValid = true

/-- The counters never pass the top values R30 and R31 name, and `OFF` is a multiple of 16. -/
def Seq.legal (q : Seq) : Prop := q.wi ≤ 60 ∧ q.rnd ≤ 14 ∧ q.off % 16 = 0

/-- The counters between acceptance and the end of validation (R31): `PHASE` is VALIDATE, the rest 0. -/
def Seq.validating : Seq := { Seq.idle with phase := .validate }

/-- What holds inside a command as well: legal counters, the result memory in canonical form, and `BUSY`
from the acceptance of a frame until its response (R31, 70_reset_and_hazards.md R246). -/
structure CoreInstance.Sound (c : CoreInstance) : Prop where
  counters : c.seq.legal
  result : c.work.out.wf = true
  /-- `BUSY = 1` exactly while a frame is accepted and not answered. -/
  busyIff : c.busy = true ↔ (c.work.held.isSome = true ∨ c.work.running.isSome = true)
  /-- An accepted frame waits for its validation, and nothing else goes on. -/
  validating : c.work.held.isSome = true →
    c.seq = Seq.validating ∧ c.work.running = none ∧ c.work.pending = []
  /-- A running command has a micro-operation left: no core stays busy with nothing to do. -/
  running : c.work.running.isSome = true → c.work.pending ≠ []

/-- Every instance is sound. -/
def State.Sound (s : State) : Prop := ∀ c ∈ s.this :: s.peers, c.Sound

/-- Two instances that may differ in `S`, and in `FB` where it holds no value. -/
structure CoreInstance.SameValues (a b : CoreInstance) : Prop where
  fbValid : a.fbValid = b.fbValid
  fb : a.fbValid = true → a.fb = b.fb
  err : a.err = b.err
  busy : a.busy = b.busy
  seq : a.seq = b.seq
  work : a.work = b.work
  offered : a.offered = b.offered
  responses : a.responses = b.responses

/-- Two machines that may differ only in registers that hold no value (10_state.md R37, R38): `S`
everywhere, `FB` where `FB_VALID = 0`, `W` where `KS_VALID = 0`. -/
structure State.SameValues (s t : State) : Prop where
  ksValid : s.ksValid = t.ksValid
  w : s.ksValid = true → s.w = t.w
  this : s.this.SameValues t.this
  peers : List.Forall₂ CoreInstance.SameValues s.peers t.peers
  turns : s.turns = t.turns
  grain : s.grain = t.grain
  resetIn : s.resetIn = t.resetIn

end Sys2Proof.Machine
end

