-- ==== Sys2Proof/Certificates/Slice0/Obligations.lean ====
section
/-! DEFINITION. The statements for the provers. Each docstring names the rule it formalises. -/

open Sys2Proof Sys2Proof.Machine

/-! ## Encoding (30_encoding.md) -/

/-- R93, R95: decoding an encoded well-formed instruction gives it back, command or micro-operation, with
every operand. -/
def Obligations.DecodeEncodeRoundTrip : Prop :=
  ∀ i : Instr, i.wellFormed = true → decode (encode i) = .ok i

/-- R93, R95: whatever the decoder reads an instruction from is that instruction's own encoding, so each
frame and each word has one meaning and no bit of it is dropped. -/
def Obligations.DecodedThingIsItsOwnEncoding : Prop :=
  ∀ (e : Encoded) (i : Instr), decode e = .ok i → encode i = e

/-- R92: the malformed frames are the ones of its list, and at either grain such a frame is refused with
IllegalCommand with no other effect than its leaving the port. That at the grain of micro-operations an
accepted frame is refused by the very next step, validation being one step, is the model's choice
(notes/assumptions/4.md). -/
def Obligations.MalformedFrameRaisesIllegalCommand : Prop :=
  (∀ f : List Byte, (∃ e, decodeFrame f = .error e) ↔ malformed f) ∧
  (∀ (s : State) (f : List Byte) (rest : List (List Byte)),
    s.ReadyFor f rest → s.grain = .command → malformed f →
      step s = .next ((s.take rest).raise .illegalCommand)) ∧
  (∀ (s : State) (f : List Byte), s.resetIn = false → s.turns = [] → s.this.work.pending = [] →
    s.this.work.held = some f → malformed f → step s = .next (s.raise .illegalCommand))

/-- R91, R95: frames and micro-operation words written out from the spec's tables (95_test_vectors.md V8,
P5) decode to what the tables say. A sanity statement on fixed words. -/
def Obligations.TableWordsDecode : Prop :=
  decodeFrame [0x01, 0x02, 0xAA, 0xBB] = .ok (.keyexp [0xAA, 0xBB]) ∧
  decodeFrame [0x02, 0x01, 0x11] = .ok (.encblk [0x11]) ∧
  decodeFrame [0x03, 0x01, 0x0A, 0x02, 0x0B, 0x0C, 0x0D] = .ok (.stream [0x0A] [0x0B, 0x0C] [0x0D]) ∧
  decodeFrame [0x04, 0x01, 0x22] = .ok (.ofbinit [0x22]) ∧
  decodeFrame [0x05, 0x6b, 0xc1] = .ok (.ofbchunk [0x6b, 0xc1]) ∧
  decodeUop 0b0001000000#10 = .ok .ksload ∧
  decodeUop 0b0010001000#10 = .ok (.ksword 8) ∧
  decodeUop 0b0011000001#10 = .ok (.ldstate .feedback) ∧
  decodeUop 0b0111001110#10 = .ok (.addroundkey 14) ∧
  decodeUop 0b1010000101#10 = .ok (.ofbxor 5) ∧
  decodeUop 0b1011000000#10 = .ok .fbupdate ∧
  decodeUop 0b0000000000#10 = .error .reservedCode ∧
  decodeUop 0b1100000000#10 = .error .reservedCode

/-- R89, for the states in which the model performs the command (R242): every command that is answered is
answered by exactly one response frame, whose byte 0 is the code; one byte alone on an error, and the
payload length of the table on success. -/
def Obligations.OneResponseFramePerCommand : Prop :=
  ∀ (i : Instr) (s t : State), i.isCommand = true → exec i s = .next t →
    ∃ payload : List Byte,
      t.this.responses = s.this.responses ++ [t.this.err.code :: payload] ∧
      (t.this.err ≠ .ok → payload = []) ∧
      (t.this.err = .ok → payload.length = payloadLength i)

/-- R90: the schedule is serialised word by word, each word most significant byte first, and the first 32
bytes of a KEYEXP payload are the key. -/
def Obligations.ScheduleSerialisedBigEndian : Prop :=
  (∀ (w : Schedule) (i : Nat) (hi : i < 60) (k : Nat), k < 4 →
    (scheduleBytes w)[4 * i + k]? = some (byteOf k w[i])) ∧
  (∀ w : Schedule, (scheduleBytes w).length = 240) ∧
  (∀ key : Key, (scheduleBytes (keyExpand key)).take 32 = key.toList)

/-! ## Field primitives (40_field_primitives.md) -/

/-- R9, R115, R117: the byte view of a word, the byte-wise substitution, and the direction of the
rotation: the most significant byte becomes the least significant one, four rotations are the identity, and
a word of four equal bytes stays; the worked corner values of R115. -/
def Obligations.WordPrimitivesActBytewise : Prop :=
  (∀ b0 b1 b2 b3 : Byte,
    byteOf 0 (wordOf b0 b1 b2 b3) = b0 ∧ byteOf 1 (wordOf b0 b1 b2 b3) = b1 ∧
    byteOf 2 (wordOf b0 b1 b2 b3) = b2 ∧ byteOf 3 (wordOf b0 b1 b2 b3) = b3 ∧
    rotWord (wordOf b0 b1 b2 b3) = wordOf b1 b2 b3 b0 ∧
    subWord (wordOf b0 b1 b2 b3) = wordOf (sbox b0) (sbox b1) (sbox b2) (sbox b3)) ∧
  subWord 0x00000000 = 0x63636363 ∧ subWord 0xFFFFFFFF = 0x16161616 ∧
  (∀ w : Word, rotWord w = ((w <<< 8) &&& 0xFFFFFFFF) ||| (w >>> 24)) ∧
  (∀ b : Byte, rotWord (wordOf b b b b) = wordOf b b b b) ∧
  (∀ w : Word, wordOf (byteOf 0 w) (byteOf 1 w) (byteOf 2 w) (byteOf 3 w) = w) ∧
  (∀ w : Word, rotWord (rotWord (rotWord (rotWord w))) = w)

/-- R112: the product is the sum of the doublings of `a` over the bits of `b`; the products by 0, 1, 2
and 3; the laws of the field product; the worked values. The spec marks the loop form and the laws as its
own derivation ("the loop form is the author's"). -/
def Obligations.FieldProductLaws : Prop :=
  (∀ a b : Byte, gmul a b =
    (List.range 8).foldl (fun p k => if b.getLsbD k then p ^^^ xtime^[k] a else p) 0x00) ∧
  (gmul 0x80 0x02 = 0x1B ∧ gmul 0xFF 0xFF = 0x13 ∧ gmul 0x53 0xCA = 0x01 ∧ gmul 0x57 0x13 = 0xFE ∧
    gmul 0x57 0x83 = 0xC1) ∧
  (∀ a : Byte, gmul a 0x00 = 0x00 ∧ gmul 0x00 a = 0x00 ∧ gmul a 0x01 = a ∧ gmul a 0x02 = xtime a ∧
    gmul a 0x03 = xtime a ^^^ a) ∧
  (∀ a b : Byte, gmul a b = gmul b a) ∧
  (∀ a b c : Byte, gmul (gmul a b) c = gmul a (gmul b c)) ∧
  (∀ a b c : Byte, gmul a (b ^^^ c) = gmul a b ^^^ gmul a c) ∧
  (∀ a b : Byte, gmul a b = 0x00 → a = 0x00 ∨ b = 0x00)

/-- R114, which the spec marks "from general knowledge, not in source": the substitution table is the affine
image of the field inverse. -/
def Obligations.SboxIsAffineOfInverse : Prop :=
  ∃ inv : Byte → Byte,
    inv 0x00 = 0x00 ∧
    (∀ v : Byte, v ≠ 0x00 → gmul v (inv v) = 0x01) ∧
    ∀ v : Byte,
      sbox v = inv v ^^^ (inv v).rotateLeft 1 ^^^ (inv v).rotateLeft 2 ^^^ (inv v).rotateLeft 3
        ^^^ (inv v).rotateLeft 4 ^^^ 0x63

/-- R29, R113: the substitution table is a permutation of the bytes, without a fixed point. -/
def Obligations.SboxIsPermutation : Prop :=
  Function.Bijective sbox ∧ ∀ v : Byte, sbox v ≠ v ∧ sbox v ≠ v ^^^ 0xFF

/-- R151: MixColumn is the product by the MDS matrix, for all inputs. -/
def Obligations.MixColumnIsMatrixProduct : Prop :=
  ∀ a0 a1 a2 a3 : Byte,
    mixColumn a0 a1 a2 a3 0 = gmul 2 a0 ^^^ gmul 3 a1 ^^^ gmul 1 a2 ^^^ gmul 1 a3 ∧
    mixColumn a0 a1 a2 a3 1 = gmul 1 a0 ^^^ gmul 2 a1 ^^^ gmul 3 a2 ^^^ gmul 1 a3 ∧
    mixColumn a0 a1 a2 a3 2 = gmul 1 a0 ^^^ gmul 1 a1 ^^^ gmul 2 a2 ^^^ gmul 3 a3 ∧
    mixColumn a0 a1 a2 a3 3 = gmul 3 a0 ^^^ gmul 1 a1 ^^^ gmul 1 a2 ^^^ gmul 2 a3

/-! ## The key schedule (41_key_schedule.md) -/

/-- R130: the words of `KeyExpand(key)`: the key's words first, then the recurrence. -/
def Obligations.KeyExpandFollowsRecurrence : Prop :=
  ∀ key : Key,
    (∀ (i : Nat) (h : i < 8),
      (keyExpand key)[i] =
        wordOf key[4 * i] key[4 * i + 1] key[4 * i + 2] key[4 * i + 3]) ∧
    (∀ (i : Nat) (_ : 8 ≤ i) (h : i < 60),
      (keyExpand key)[i] =
        (keyExpand key)[i - 8] ^^^
          (if i % 8 = 0 then subWord (rotWord (keyExpand key)[i - 1]) ^^^ rcon (i / 8 - 1)
           else if i % 8 = 4 then subWord (keyExpand key)[i - 1]
           else (keyExpand key)[i - 1]))

/-- R131: KSLOAD completes in every state in which no other instance that shares `W` is busy
(SharedScheduleNotRewrittenInUse states the other case), reads the key operand big-endian into `W[0..7]`,
and changes nothing else. -/
def Obligations.KsloadLoadsKeyWords : Prop :=
  ∀ s : State, s.scheduleInUse = false →
    ∃ t : State, exec .ksload s = .next t ∧ t = { s with w := t.w } ∧
    (∀ (i : Nat) (h : i < 8),
      t.w[i] = wordOf s.this.work.key[4 * i] s.this.work.key[4 * i + 1]
        s.this.work.key[4 * i + 2] s.this.work.key[4 * i + 3]) ∧
    (∀ (i : Nat) (_ : 8 ≤ i) (h : i < 60), t.w[i] = s.w[i])

/-- R132: KSWORD(i) completes for every i in 8..59 while no other instance that shares `W` is busy
(SharedScheduleNotRewrittenInUse states the other case), writes `W[i]` by the three-way rule, and changes
nothing else; outside that range it has no meaning. -/
def Obligations.KswordWritesOneWord : Prop :=
  (∀ (s : State) (i : Nat) (_ : 8 ≤ i) (h : i < 60), s.scheduleInUse = false → ∃ t : State,
    exec (.ksword i) s = .next t ∧ t = { s with w := t.w } ∧
    t.w[i] = s.w[i - 8] ^^^
      (if i % 8 = 0 then subWord (rotWord s.w[i - 1]) ^^^ rcon (i / 8 - 1)
       else if i % 8 = 4 then subWord s.w[i - 1]
       else s.w[i - 1]) ∧
    ∀ (j : Nat) (hj : j < 60), j ≠ i → t.w[j] = s.w[j]) ∧
  (∀ (s : State) (i : Nat), (i < 8 ∨ 59 < i) → exec (.ksword i) s = .refused .reservedArgument)

/-- R134, which the spec derives from R130 to R132: the 53 micro-operations of a key expansion leave `W =
KeyExpand(key)`, whatever `W` held before, and change nothing else, while no other instance that shares `W`
is busy. -/
def Obligations.KeyExpansionSequenceIsKeyExpand : Prop :=
  keyExpandProgram.length = 53 ∧
  ∀ s : State, s.scheduleInUse = false → execWords keyExpandProgram s = .next { s with w := keyExpand s.this.work.key }

/-- R133: KEYEXP completes for every 32-byte key while no instance that shares `W` is busy, with the whole
next state; any other length raises InvalidKeyLength. That the other instances keep even their `FB_VALID` is
the model's inference (notes/assumptions/7.md), and so is the answer to a wrong length while one of them is
busy (notes/assumptions/9.md). -/
def Obligations.KeyexpResult : Prop :=
  (∀ (s : State) (key : Key), s.scheduleInUse = false →
    exec (.keyexp key.toList) s = .next
      { s with
        w := keyExpand key
        ksValid := true
        this := { s.this with
          fbValid := false
          err := .ok
          busy := false
          seq := Seq.idle
          work := Work.none
          responses := s.this.responses ++ [0x00 :: scheduleBytes (keyExpand key)] } }) ∧
  (∀ (s : State) (key : List Byte), key.length ≠ 32 →
    exec (.keyexp key) s = .next (s.raise .invalidKeyLength))

/-! ## The State transforms (42_state_transforms.md) -/

/-- R145: LDSTATE completes in every state; byte `i` of its source goes to row `i mod 4`, column
`i div 4`; nothing else changes. -/
def Obligations.LdstateLoadsColumnMajor : Prop :=
  ∀ (s : State) (src : LoadSource), ∃ t : State,
    exec (.ldstate src) s = .next t ∧ t = { s with this := { s.this with grid := t.this.grid } } ∧
    ∀ (r c : Fin 4), cell t.this.grid r c =
      (match src with
       | .block => s.this.work.blk
       | .feedback => s.this.fb)[r.val + 4 * c.val]

/-- R146: STSTATE completes in every state and stores the 16 bytes of `S` at result offsets 0 to 15,
column-major; every other offset of the result reads as before, and nothing else changes; a block that
has been loaded is stored as it was. -/
def Obligations.StstateStoresSerialisedState : Prop :=
  (∀ s : State, ∃ t : State, exec .ststate s = .next t ∧
    t = { s with this := { s.this with work := { s.this.work with out := t.this.work.out } } } ∧
    (∀ (r c : Fin 4), t.this.work.out.read (r.val + 4 * c.val) = some (cell s.this.grid r c)) ∧
    (∀ a : Nat, 16 ≤ a → t.this.work.out.read a = s.this.work.out.read a)) ∧
  (∀ s : State, ∃ t u : State, exec (.ldstate .block) s = .next t ∧ exec .ststate t = .next u ∧
    ∀ (i : Nat) (h : i < 16), u.this.work.out.read i = some s.this.work.blk[i])

/-- R147: SUBBYTES completes in every state and replaces every cell by its substituted value; nothing
else changes; it commutes with SHIFTROWS. -/
def Obligations.SubbytesSubstitutesEveryCell : Prop :=
  (∀ s : State, ∃ t : State, exec .subbytes s = .next t ∧
    t = { s with this := { s.this with grid := t.this.grid } } ∧
    ∀ (k : Nat) (h : k < 16), t.this.grid[k] = sbox s.this.grid[k]) ∧
  (∀ g : Block, subBytes (shiftRows g) = shiftRows (subBytes g))

/-- R148: SHIFTROWS completes in every state and rotates row `r` left by `r`; nothing else changes; row 0
never moves, and four applications are the identity. The clause in flat indices is the sentence the spec
marks "[derived: the flat table, from the quoted rule and 10_state.md rule R22]". -/
def Obligations.ShiftrowsRotatesRows : Prop :=
  (∀ s : State, ∃ t : State, exec .shiftrows s = .next t ∧
    t = { s with this := { s.this with grid := t.this.grid } } ∧
    (∀ r c : Fin 4, cell t.this.grid r c = cell s.this.grid r (c + r)) ∧
    (∀ (k : Nat) (h : k < 16),
      t.this.grid[k] = s.this.grid[(k + 4 * (k % 4)) % 16]'(Nat.mod_lt _ (by decide)))) ∧
  (∀ g : Block, shiftRows (shiftRows (shiftRows (shiftRows g))) = g)

/-- R150: MIXCOLUMNS completes in every state and mixes each column by R149, from the old values; nothing
else changes. -/
def Obligations.MixcolumnsMixesEachColumn : Prop :=
  ∀ s : State, ∃ t : State, exec .mixcolumns s = .next t ∧
    t = { s with this := { s.this with grid := t.this.grid } } ∧
    ∀ r c : Fin 4, cell t.this.grid r c =
      mixColumn (cell s.this.grid 0 c) (cell s.this.grid 1 c) (cell s.this.grid 2 c)
        (cell s.this.grid 3 c) r

/-- R152: ADDROUNDKEY(k) completes for every k in 0..14; row `r` of column `c` meets
`byte_r(W[4k + c])`; nothing else changes; the same slice twice restores the State; another k has no
meaning. -/
def Obligations.AddroundkeyAddsSlice : Prop :=
  (∀ (s : State) (k : Nat) (h : k < 15), ∃ t : State,
    exec (.addroundkey k) s = .next t ∧ t = { s with this := { s.this with grid := t.this.grid } } ∧
    ∀ r c : Fin 4, cell t.this.grid r c =
      cell s.this.grid r c ^^^ byteOf r.val (s.w[4 * k + c.val]'(by omega))) ∧
  (∀ (w : Schedule) (k : Nat) (g : Block), addRoundKey w k (addRoundKey w k g) = g) ∧
  (∀ (s : State) (k : Nat), 14 < k → exec (.addroundkey k) s = .refused .reservedArgument)

/-! ## The block encryptor (43_block_encryptor.md) -/

/-- R169 ("[derived: the bijection]"): for a fixed schedule, any 60 words, EncryptBlock is a bijection on
blocks. -/
def Obligations.EncryptBlockIsBijective : Prop :=
  ∀ w : Schedule, Function.Bijective fun b => encryptBlock b w

/-- R166, which the spec derives from R165 and R33: the 57 micro-operations of `CIPHER(src)` complete in
every state, leave in `S` the encryption under `W` of the block that LDSTATE loaded, and change nothing
else. -/
def Obligations.CipherSequenceIsEncryptBlock : Prop :=
  ∀ src : LoadSource, (cipherProgram src).length = 57 ∧
    ∀ s : State, execWords (cipherProgram src) s = .next
      { s with this := { s.this with
          grid := encryptBlock
            (match src with
             | .block => s.this.work.blk
             | .feedback => s.this.fb) s.w } }

/-- R167: ENCBLK completes for every 16-byte block under a valid schedule that no other instance is
rewriting, with the whole next state; `W`, `FB` and `FB_VALID` are untouched; the length error comes
before NoSchedule. -/
def Obligations.EncblkResult : Prop :=
  (∀ (s : State) (block : Block), s.ksValid = true → s.scheduleChanging = false →
    exec (.encblk block.toList) s = .next
      { s with this := { s.this with
          grid := encryptBlock block s.w
          err := .ok
          busy := false
          seq := Seq.idle
          work := Work.none
          responses := s.this.responses ++ [0x00 :: (encryptBlock block s.w).toList] } }) ∧
  (∀ (s : State) (block : List Byte), block.length ≠ 16 →
    exec (.encblk block) s = .next (s.raise .invalidBlockLength)) ∧
  (∀ (s : State) (block : List Byte), block.length = 16 → s.ksValid = false →
    exec (.encblk block) s = .next (s.raise .noSchedule))

/-! ## The OFB stream (44_ofb_stream.md) -/

/-- R182, R184: FBLOAD and FBUPDATE complete in every state; FBLOAD takes all 16 bytes of the IV operand
and sets `FB_VALID`; after `CIPHER(1)`, FBUPDATE leaves the whole keystream block in `FB` (R247), whatever
stands in the data operand; nothing else changes. -/
def Obligations.FeedbackIsIvThenKeystream : Prop :=
  (∀ s : State, ∃ t : State, exec .fbload s = .next t ∧
    t = { s with this := { s.this with fb := t.this.fb, fbValid := true } } ∧
    ∀ (j : Nat) (h : j < 16), t.this.fb[j] = s.this.work.iv[j]) ∧
  (∀ s : State, ∃ t : State, exec .fbupdate s = .next t ∧
    t = { s with this := { s.this with fb := t.this.fb } } ∧
    ∀ r c : Fin 4, cell t.this.fb r c = cell s.this.grid r c) ∧
  (∀ s : State, execWords (cipherProgram .feedback ++ [putUop 0xB 0]) s = .next
    { s with this := { s.this with
        grid := encryptBlock s.this.fb s.w
        fb := encryptBlock s.this.fb s.w } })

/-- R183: OFBXOR(n) completes for every n in 1..16 whose chunk lies inside the data operand; it stores the n
bytes `data[off + j] ^ S[j]` at offsets `off + j` of the result; every other offset reads as before, and
nothing else changes. Another n has no meaning (R95). That a chunk past the end of the data faults is the
model's inference (notes/assumptions/11.md): R51 says only that MemRead "requires `off + n ≤ len(data)`". -/
def Obligations.OfbxorStoresLeadingKeystreamBytes : Prop :=
  (∀ (s : State) (n : Nat) (_ : 1 ≤ n) (hn : n ≤ 16)
      (hd : s.this.seq.off + n ≤ s.this.work.data.length), ∃ t : State,
    exec (.ofbxor n) s = .next t ∧
    t = { s with this := { s.this with work := { s.this.work with out := t.this.work.out } } } ∧
    (∀ (j : Nat) (hj : j < n), t.this.work.out.read (s.this.seq.off + j) =
      some (s.this.work.data[s.this.seq.off + j] ^^^ s.this.grid[j])) ∧
    (∀ a : Nat, (a < s.this.seq.off ∨ s.this.seq.off + n ≤ a) →
      t.this.work.out.read a = s.this.work.out.read a)) ∧
  (∀ (s : State) (n : Nat), (n < 1 ∨ 16 < n) → exec (.ofbxor n) s = .refused .reservedArgument) ∧
  (∀ (s : State) (n : Nat), 1 ≤ n → n ≤ 16 → s.this.work.data.length < s.this.seq.off + n →
    exec (.ofbxor n) s = .fault .dataOperandRange)

/-- R185: OFBINIT completes for every 16-byte IV under a valid schedule, with the whole next state; the
length error comes before NoSchedule; on an error a stream in progress survives. That it completes also
while another instance is rewriting `W` is the model's inference (notes/assumptions/19.md). -/
def Obligations.OfbinitResult : Prop :=
  (∀ (s : State) (iv : Block), s.ksValid = true →
    exec (.ofbinit iv.toList) s = .next
      { s with this := { s.this with
          fb := iv
          fbValid := true
          err := .ok
          busy := false
          seq := Seq.idle
          work := Work.none
          responses := s.this.responses ++ [[0x00]] } }) ∧
  (∀ (s : State) (iv : List Byte), iv.length ≠ 16 →
    exec (.ofbinit iv) s = .next (s.raise .invalidIVLength)) ∧
  (∀ (s : State) (iv : List Byte), iv.length = 16 → s.ksValid = false →
    exec (.ofbinit iv) s = .next (s.raise .noSchedule)) ∧
  (∀ (s : State) (e : ResultCode), (s.raise e).this.fb = s.this.fb ∧
    (s.raise e).this.fbValid = s.this.fbValid)

/-- R186: OFBCHUNK completes for every chunk of 1 to 16 bytes of a valid stream under a valid schedule
that no other instance is rewriting, with the whole next state; the three errors come in their order. -/
def Obligations.OfbchunkResult : Prop :=
  (∀ (s : State) (data : List Byte), 1 ≤ data.length → data.length ≤ 16 → s.ksValid = true →
    s.this.fbValid = true → s.scheduleChanging = false →
    ∃ out : List Byte, out.length = data.length ∧
      (∀ (j : Nat) (_ : j < data.length) (h16 : j < 16),
        out[j]? = some (data[j] ^^^ (encryptBlock s.this.fb s.w)[j])) ∧
      exec (.ofbchunk data) s = .next
        { s with this := { s.this with
            grid := encryptBlock s.this.fb s.w
            fb := encryptBlock s.this.fb s.w
            err := .ok
            busy := false
            seq := Seq.idle
            work := Work.none
            responses := s.this.responses ++ [0x00 :: out] } }) ∧
  (∀ (s : State) (data : List Byte), (data.length < 1 ∨ 16 < data.length) →
    exec (.ofbchunk data) s = .next (s.raise .invalidChunkLength)) ∧
  (∀ (s : State) (data : List Byte), 1 ≤ data.length → data.length ≤ 16 → s.ksValid = false →
    exec (.ofbchunk data) s = .next (s.raise .noSchedule)) ∧
  (∀ (s : State) (data : List Byte), 1 ≤ data.length → data.length ≤ 16 → s.ksValid = true →
    s.this.fbValid = false → exec (.ofbchunk data) s = .next (s.raise .noStream))

/-- R187: STREAM completes for every 32-byte key, 16-byte IV and data of any length while no instance that
shares `W` is busy, with the whole next state: `FB` is the last keystream block, or the IV when the data is
empty, and then `S` is not written. The key's length is checked before the IV's, both before any work. That
the other instances keep even their `FB_VALID` is the model's inference (notes/assumptions/7.md), and so is
the answer to a wrong length while one of them is busy (notes/assumptions/9.md). -/
def Obligations.StreamResult : Prop :=
  (∀ (s : State) (key : Key) (iv : Block) (data : List Byte), s.scheduleInUse = false →
    exec (.stream key.toList iv.toList data) s = .next
      { s with
        w := keyExpand key
        ksValid := true
        this := { s.this with
          grid := if data = [] then s.this.grid
            else feedbackAfter (keyExpand key) iv (chunks data).length
          fb := feedbackAfter (keyExpand key) iv (chunks data).length
          fbValid := true
          err := .ok
          busy := false
          seq := Seq.idle
          work := Work.none
          responses := s.this.responses ++ [0x00 :: streamTransform key iv data] } }) ∧
  (∀ data : List Byte, (chunks data).length = (data.length + 15) / 16) ∧
  (∀ (s : State) (key iv data : List Byte), key.length ≠ 32 →
    exec (.stream key iv data) s = .next (s.raise .invalidKeyLength)) ∧
  (∀ (s : State) (key iv data : List Byte), key.length = 32 → iv.length ≠ 16 →
    exec (.stream key iv data) s = .next (s.raise .invalidIVLength))

/-- R180: byte `m` of the output is byte `m` of the data exclusive-ored with byte `m mod 16` of keystream
block `m div 16`, where `K_0 = EncryptBlock(iv, w)` and `K_n = EncryptBlock(K_(n-1), w)`. -/
def Obligations.StreamOutputIsDataXorKeystream : Prop :=
  ∀ (key : Key) (iv : Block) (data : List Byte),
    (streamTransform key iv data).length = data.length ∧
    ∀ (m : Nat) (hm : m < data.length),
      (streamTransform key iv data)[m]? =
        some (data[m] ^^^
          (keystreamBlock (keyExpand key) iv (m / 16))[m % 16]'(Nat.mod_lt _ (by decide)))

/-- R189: self-inverse, length preservation, keystream independence from the data, and the prefix
property; determinism, for the command: the answer to a STREAM does not depend on the state it finds. -/
def Obligations.StreamTransformProperties : Prop :=
  (∀ (k : Key) (v : Block) (m : List Byte),
    streamTransform k v (streamTransform k v m) = m) ∧
  (∀ (k : Key) (v : Block) (m : List Byte), (streamTransform k v m).length = m.length) ∧
  (∀ (k : Key) (v : Block) (m m' : List Byte), m.length = m'.length →
    List.zipWith (· ^^^ ·) (streamTransform k v m) m =
      List.zipWith (· ^^^ ·) (streamTransform k v m') m') ∧
  (∀ (k : Key) (v : Block) (m : List Byte) (n : Nat),
    streamTransform k v (m.take n) = (streamTransform k v m).take n) ∧
  (∀ (s s' t t' : State) (key iv m : List Byte),
    exec (.stream key iv m) s = .next t → exec (.stream key iv m) s' = .next t' →
      t.this.responses.getLast? = t'.this.responses.getLast?)

/-- R189, for the machine: a STREAM of the answer to a STREAM, under the same key and IV, answers the
data. -/
def Obligations.StreamDecryptsItsOwnOutput : Prop :=
  ∀ (s : State) (key : Key) (iv : Block) (data : List Byte), s.scheduleInUse = false →
    ∃ (t u : State) (out : List Byte),
      exec (.stream key.toList iv.toList data) s = .next t ∧
      t.this.responses = s.this.responses ++ [0x00 :: out] ∧
      exec (.stream key.toList iv.toList out) t = .next u ∧
      u.this.responses = t.this.responses ++ [0x00 :: data]

/-- R188, which the spec derives from R185 to R187 and R133: STREAM leaves the core in the same state as
KEYEXP; OFBINIT; OFBCHUNK of each chunk, and the concatenated output is the same; the two differ only when a
length is wrong. With a wrong IV the sequence finds it after its KEYEXP has replaced `W`, STREAM before any
change; with a wrong key STREAM is refused once, and of the sequence the KEYEXP is refused in the same way
and its later commands are answered on their own, under the old schedule. That a wrong-length key is
answered also while another instance is busy is the model's inference (notes/assumptions/9.md). -/
def Obligations.StreamEqualsItsExpansion : Prop :=
  (∀ (s : State) (key : Key) (iv : Block) (data : List Byte),
    s.scheduleInUse = false → s.scheduleChanging = false →
    ∃ (t u : State) (out : List Byte) (outs : List (List Byte)),
      exec (.stream key.toList iv.toList data) s = .next t ∧
      t.this.responses = s.this.responses ++ [0x00 :: out] ∧
      execAll (.keyexp key.toList :: .ofbinit iv.toList :: (chunks data).map .ofbchunk) s = .next u ∧
      u.this.responses = s.this.responses ++
        ([0x00 :: scheduleBytes (keyExpand key), [0x00]] ++ outs.map (0x00 :: ·)) ∧
      outs.flatten = out ∧
      u = { t with this := { t.this with responses := u.this.responses } }) ∧
  (∀ (s : State) (key : Key) (iv data : List Byte), s.scheduleInUse = false → iv.length ≠ 16 →
    exec (.stream key.toList iv data) s = .next (s.raise .invalidIVLength) ∧
    ∃ u : State, execAll [.keyexp key.toList, .ofbinit iv] s = .next u ∧
      u.w = keyExpand key ∧ u.ksValid = true ∧ u.this.err = .invalidIVLength) ∧
  (∀ (s : State) (key iv data : List Byte), key.length ≠ 32 →
    exec (.stream key iv data) s = .next (s.raise .invalidKeyLength) ∧
    execAll [.keyexp key, .ofbinit iv] s = exec (.ofbinit iv) (s.raise .invalidKeyLength))

/-- R58: chunk `n` of the data is `data[16n .. min(16n + 16, len(data)))`; there are `ceil(len(data)/16)`
chunks, and together they are the data. -/
def Obligations.ChunksAreCutAtMultiplesOfSixteen : Prop :=
  ∀ data : List Byte,
    (∀ n : Nat, (chunks data)[n]? =
      if 16 * n < data.length then some ((data.drop (16 * n)).take 16) else none) ∧
    (chunks data).length = (data.length + 15) / 16 ∧
    (chunks data).flatten = data

/-- R190, R191: a sequence of chunks of 1 to 16 bytes each, short ones among them, spends one whole
keystream block a chunk: chunk `n` meets the leading bytes of `K_n`, and `FB` advances by one whole block
each time. -/
def Obligations.EachChunkSpendsOneKeystreamBlock : Prop :=
  ∀ (s : State) (cs : List (List Byte)),
    s.ksValid = true → s.this.fbValid = true → s.scheduleChanging = false →
    (∀ c ∈ cs, 1 ≤ c.length ∧ c.length ≤ 16) →
    ∃ t : State, execAll (cs.map .ofbchunk) s = .next t ∧
      t.this.fb = feedbackAfter s.w s.this.fb cs.length ∧
      t.w = s.w ∧ t.ksValid = true ∧ t.this.fbValid = true ∧
      t.this.responses = s.this.responses ++
        cs.mapIdx fun n c => 0x00 :: xorChunk c (keystreamBlock s.w s.this.fb n)

/-! ## Errors (60_exceptions.md) -/

/-- R214: a command that fails changes `STATUS.ERR`, leaves `SEQ` idle and answers the one byte of its
code; `W`, `S`, `FB`, `KS_VALID`, `FB_VALID` and everything else of the spec's keep their values. -/
def Obligations.ErrorChangesOnlyTheErrorCode : Prop :=
  ∀ (i : Instr) (s t : State), i.isCommand = true → exec i s = .next t → t.this.err ≠ .ok →
    t = { s with this := { s.this with
        err := t.this.err
        busy := false
        seq := Seq.idle
        work := Work.none
        responses := s.this.responses ++ [[t.this.err.code]] } }

/-- R215: the code a command reports is that of the first check of the table that fails, in every state; a
frame that does not decode fails before all of them. That a command with a failing check is answered also
where, with its operands right, another instance's use of the schedule would leave it without a step, is the
model's inference (notes/assumptions/9.md). -/
def Obligations.FirstFailingCheckIsReported : Prop :=
  (∀ (f : List Byte) (e : DecodeError) (s : State), decodeFrame f = .error e →
    perform f s = .next (s.raise .illegalCommand)) ∧
  ∀ (i : Instr) (s : State), i.isCommand = true →
    (∀ t : State, exec i s = .next t → t.this.err = firstFailure i s) ∧
    (firstFailure i s ≠ .ok → exec i s = .next (s.raise (firstFailure i s)))

/-- R236, which the spec derives from R37 and R215: straight after reset KEYEXP and STREAM work at once;
ENCBLK, OFBINIT and OFBCHUNK are refused with NoSchedule after their length check; a malformed frame is
refused with IllegalCommand. -/
def Obligations.FirstCommandAfterReset : Prop :=
  (∀ key : Key, ∃ t, exec (.keyexp key.toList) State.reset = .next t ∧ t.this.err = .ok) ∧
  (∀ (key : Key) (iv : Block) (data : List Byte), ∃ t,
    exec (.stream key.toList iv.toList data) State.reset = .next t ∧ t.this.err = .ok) ∧
  (∀ block : List Byte, ∃ t, exec (.encblk block) State.reset = .next t ∧
    t.this.err = if block.length = 16 then .noSchedule else .invalidBlockLength) ∧
  (∀ iv : List Byte, ∃ t, exec (.ofbinit iv) State.reset = .next t ∧
    t.this.err = if iv.length = 16 then .noSchedule else .invalidIVLength) ∧
  (∀ data : List Byte, ∃ t, exec (.ofbchunk data) State.reset = .next t ∧
    t.this.err = if 1 ≤ data.length ∧ data.length ≤ 16 then .noSchedule else .invalidChunkLength) ∧
  (∀ f : List Byte, malformed f → ∃ t, perform f State.reset = .next t ∧ t.this.err = .illegalCommand)

/-! ## Flags, the schedule, the other instances (10_state.md, 70_reset_and_hazards.md) -/

/-- R28: the fields of the status byte of an instance. -/
def Obligations.StatusByteFields : Prop :=
  ∀ s : State,
    s.status &&& 0x07 = s.this.err.code ∧
    s.status.getLsbD 3 = s.ksValid ∧
    s.status.getLsbD 4 = s.this.fbValid ∧
    s.status.getLsbD 5 = s.this.busy ∧
    s.status.getLsbD 6 = false ∧ s.status.getLsbD 7 = false

/-- R21: only KSLOAD, KSWORD and the commands that run them, KEYEXP and STREAM, change `W`. -/
def Obligations.OnlyKeyExpansionWritesSchedule : Prop :=
  ∀ (i : Instr) (s t : State), exec i s = .next t → t.w ≠ s.w →
    (∃ key, i = .keyexp key) ∨ (∃ key iv data, i = .stream key iv data) ∨ i = .ksload ∨
      ∃ j, i = .ksword j

/-- R26, R217: without a reset, no step clears `KS_VALID`. -/
def Obligations.OnlyResetClearsScheduleFlag : Prop :=
  ∀ s t : State, step s = .next t → s.resetIn = false → s.ksValid = true → t.ksValid = true

/-- R27, R252: an instruction that sets `FB_VALID` is OFBINIT, STREAM or the FBLOAD they run; one that
clears it is KEYEXP. -/
def Obligations.StreamFlagChangesOnlyByItsCommands : Prop :=
  ∀ (i : Instr) (s t : State), exec i s = .next t →
    (s.this.fbValid = false → t.this.fbValid = true →
      (∃ iv, i = .ofbinit iv) ∨ (∃ key iv data, i = .stream key iv data) ∨ i = .fbload) ∧
    (s.this.fbValid = true → t.this.fbValid = false → ∃ key, i = .keyexp key)

/-- R36, R223: no instruction of one instance touches another instance, the inputs from outside, or the
frames still offered to it. That a KEYEXP or STREAM leaves even the `FB_VALID` of the other instances, whose
stream was started under the schedule it replaces, is the model's inference (notes/assumptions/7.md). -/
def Obligations.InstructionsLeaveOtherInstancesAlone : Prop :=
  ∀ (i : Instr) (s t : State), exec i s = .next t →
    t.peers = s.peers ∧ t.turns = s.turns ∧ t.grain = s.grain ∧ t.resetIn = s.resetIn ∧
      t.freeUsed = s.freeUsed ∧ t.this.offered = s.this.offered

/-- R242, with D21 and U5: while another instance that shares `W` is busy, a KEYEXP or STREAM that would rewrite
`W` has no step, at either grain, and neither has a KSLOAD or KSWORD; so no instruction that completes, and no
step of the acting instance, changes `W` then. That at the grain of micro-operations the command is tested when its
accepted frame is validated is the model's choice (notes/assumptions/20.md), and that each write of `W` is
tested is its inference (notes/assumptions/21.md). -/
def Obligations.SharedScheduleNotRewrittenInUse : Prop :=
  (∀ (s : State) (key : List Byte), key.length = 32 → (∃ p ∈ s.peers, p.busy = true) →
    exec (.keyexp key) s = .refused .scheduleInUse ∧
    start (.keyexp key) s = .refused .scheduleInUse) ∧
  (∀ (s : State) (key iv data : List Byte), key.length = 32 → iv.length = 16 →
    (∃ p ∈ s.peers, p.busy = true) →
    exec (.stream key iv data) s = .refused .scheduleInUse ∧
    start (.stream key iv data) s = .refused .scheduleInUse) ∧
  (∀ s : State, (∃ p ∈ s.peers, p.busy = true) → exec .ksload s = .refused .scheduleInUse ∧
    ∀ i : Nat, 8 ≤ i → i < 60 → exec (.ksword i) s = .refused .scheduleInUse) ∧
  (∀ (i : Instr) (s t : State), (∃ p ∈ s.peers, p.busy = true) → exec i s = .next t → t.w = s.w) ∧
  (∀ s t : State, s.resetIn = false → s.turns = [] → (∃ p ∈ s.peers, p.busy = true) →
    step s = .next t → t.w = s.w)

/-- The other side of R242, which the model infers (notes/assumptions/8.md): an ENCBLK or OFBCHUNK that
would read `W` while another instance has writes of it still to make has no step, at either grain. That at
the grain of micro-operations the test is made when the accepted frame is validated is the model's choice
(notes/assumptions/20.md). -/
def Obligations.ScheduleNotReadWhileChanging : Prop :=
  (∀ (s : State) (block : List Byte), block.length = 16 → s.ksValid = true →
    (∃ p ∈ s.peers, ∃ word ∈ p.work.pending, word.toNat / 64 = 1 ∨ word.toNat / 64 = 2) →
    exec (.encblk block) s = .refused .scheduleInUse ∧
    start (.encblk block) s = .refused .scheduleInUse) ∧
  (∀ (s : State) (data : List Byte), 1 ≤ data.length → data.length ≤ 16 → s.ksValid = true →
    s.this.fbValid = true →
    (∃ p ∈ s.peers, ∃ word ∈ p.work.pending, word.toNat / 64 = 1 ∨ word.toNat / 64 = 2) →
    exec (.ofbchunk data) s = .refused .scheduleInUse ∧
    start (.ofbchunk data) s = .refused .scheduleInUse)

/-- R31, R246: a step of an instance takes at most the frame at the head of its port, and none while `BUSY =
1`. The acceptance of a frame sets `BUSY = 1` and `PHASE` to VALIDATE and does nothing else. From then on
every step leaves `BUSY = 1` and answers nothing, until the one that answers the command's one response and
leaves `BUSY = 0`. That acceptance is a step by itself (notes/assumptions/4.md), and one that tests nothing,
whatever other instances do (notes/assumptions/20.md), is the model's choice. -/
def Obligations.BusyPortHoldsFramesBack : Prop :=
  (∀ s t : State, s.resetIn = false → s.turns = [] → step s = .next t →
    (s.this.busy = true → t.this.offered = s.this.offered) ∧
    (t.this.offered = s.this.offered ∨ t.this.offered = s.this.offered.tail)) ∧
  (∀ (s : State) (f : List Byte) (rest : List (List Byte)),
    s.ReadyFor f rest → s.grain = .microOperation → step s = .next
      { s with this := { s.this with
          offered := rest
          busy := true
          seq := Seq.validating
          work := { Work.none with held := some f } } }) ∧
  (∀ s t : State, s.Sound → s.resetIn = false → s.turns = [] → s.this.busy = true →
    step s = .next t →
      (t.this.busy = true ∧ t.this.responses = s.this.responses) ∨
      (t.this.busy = false ∧ ∃ r : List Byte, t.this.responses = s.this.responses ++ [r]))

/-! ## The step, reset and the invariants -/

/-- R7, R81: at the grain of commands, a frame that decodes, at the head of the port of an idle core, is
performed by the very next step, as exec says of the state from which the frame has been taken; with no
frame the core waits. -/
def Obligations.StepPerformsDecodedFrame : Prop :=
  (∀ (s : State) (f : List Byte) (rest : List (List Byte)) (i : Instr),
    s.ReadyFor f rest → s.grain = .command → decodeFrame f = .ok i →
      step s = exec i (s.take rest)) ∧
  (∀ s : State, s.resetIn = false → s.turns = [] → s.this.work.held = none →
    s.this.work.pending = [] → s.this.offered = [] → step s = .next s)

/-- R10, R31, R33: the word at the head of the sequencer's sequence is executed by the very next step as exec
says. If words are left they are what is pending then, `KS_VALID` is set after KSWORD(59) of a command
(R26, R245), the counters go on, and nothing else happens. If none is left the core is idle again
(`BUSY = 0`, `SEQ` idle, no command in progress): a command has answered 0x00 and its payload (R89), with
`STATUS.ERR` 0 and, for KEYEXP, `FB_VALID` 0. That a word outside any command answers nothing is the model's
inference (notes/assumptions/12.md). -/
def Obligations.StepIssuesDecodedMicroOperation : Prop :=
  ∀ (s : State) (word : UopWord) (rest : List UopWord) (i : Instr),
    s.Issuing word rest → decodeUop word = .ok i →
      (∀ t, exec i s = .next t → rest ≠ [] → ∃ u : State, step s = .next u ∧
        u = { t with
          ksValid := t.ksValid || decide (i = .ksword 59 ∧ s.this.work.running.isSome = true)
          this := { t.this with
            seq := u.this.seq
            work := { t.this.work with pending := rest } } }) ∧
      (∀ t, exec i s = .next t → rest = [] → s.this.work.running = none → step s = .next
        { t with this := { t.this with busy := false, seq := Seq.idle, work := Work.none } }) ∧
      (∀ (t : State) (c : CommandKind), exec i s = .next t → rest = [] →
        s.this.work.running = some c → step s = .next
          { t with
            ksValid := t.ksValid || decide (i = .ksword 59)
            this := { t.this with
              fbValid := if c = .keyexp then false else t.this.fbValid
              err := .ok
              busy := false
              seq := Seq.idle
              work := Work.none
              responses := t.this.responses ++ [0x00 ::
                (match c with
                 | .keyexp => scheduleBytes t.w
                 | .ofbinit => []
                 | .encblk | .stream | .ofbchunk => t.this.work.out.map Prod.snd)] } }) ∧
      (∀ r, exec i s = .refused r → step s = .refused r) ∧
      (∀ e, exec i s = .fault e → step s = .fault e)

/-- R31, R166: while `CIPHER(src)` runs, `PHASE` is CIPHER and (RND, STEP) takes the values R31 lists, the
pair (14,2) being skipped. That LDSTATE runs at the first pair (0,3) is the model's choice
(notes/assumptions/6.md). -/
def Obligations.CipherCountersFollowTheRounds : Prop :=
  ∀ (s : State) (src : LoadSource) (word : UopWord) (extra : List UopWord) (q : Seq),
    s.resetIn = false → s.turns = [] →
    s.this.work.pending = cipherProgram src ++ word :: extra →
    s.this.seq = q.toward (cipherProgram src) →
    ∀ j : Nat, j ≤ 56 → ∃ t : State, core.run j s = .next t ∧
      t.this.work.pending = (cipherProgram src).drop j ++ word :: extra ∧
      t.this.seq.phase = .cipher ∧
      t.this.seq.rnd = (if j < 2 then 0 else (j - 2) / 4 + 1) ∧
      t.this.seq.step =
        (if j < 2 ∨ j = 56 then .addroundkey
         else if j % 4 = 2 then .subbytes
         else if j % 4 = 3 then .shiftrows
         else if j % 4 = 0 then .mixcolumns
         else .addroundkey)

/-- R31, R134: while KSWORD(i) of a key expansion runs, no other instance being busy, `PHASE` is KEXP and
`WI` is i; KSLOAD runs at `WI = 8`, the model's choice (notes/assumptions/6.md). -/
def Obligations.KeyExpansionCountersFollowTheWords : Prop :=
  ∀ (s : State) (word : UopWord) (extra : List UopWord) (q : Seq),
    s.resetIn = false → s.turns = [] → s.scheduleInUse = false →
    s.this.work.pending = keyExpandProgram ++ word :: extra →
    s.this.seq = q.toward keyExpandProgram →
    ∀ j : Nat, j ≤ 52 → ∃ t : State, core.run j s = .next t ∧
      t.this.work.pending = keyExpandProgram.drop j ++ word :: extra ∧
      t.this.seq.phase = .kexp ∧ t.this.seq.wi = (if j = 0 then 8 else j + 7)

/-- R31, R187: during output `PHASE` is EMIT, and in STREAM `OFF` goes 0, 16, 32, …. Counted from the step
that validates the accepted frame: in STREAM the words of chunk `n` come 1 + 53 + 1 + 59n steps later, all
with `OFF = 16n`, the 57 of `CIPHER(1)` with `PHASE` = CIPHER and OFBXOR and FBUPDATE with `PHASE` = EMIT; in
ENCBLK STSTATE, and in OFBCHUNK OFBXOR and FBUPDATE, run with `PHASE` = EMIT and `OFF = 0`. That these three
micro-operations are the output R31 speaks of is the model's choice (notes/assumptions/6.md), and so is the
first 1 of each count, that validation is one step (notes/assumptions/4.md). -/
def Obligations.OutputCountersFollowTheChunks : Prop :=
  ∀ (s : State) (f : List Byte), s.resetIn = false → s.turns = [] → s.this.work.pending = [] →
    s.this.work.held = some f → s.this.seq = Seq.validating →
    (∀ (key : Key) (iv : Block) (data : List Byte),
      decodeFrame f = .ok (.stream key.toList iv.toList data) → s.scheduleInUse = false →
      ∀ n j : Nat, 16 * n < data.length → j < 59 →
        ∃ t : State, core.run (1 + 53 + 1 + 59 * n + j) s = .next t ∧
          t.this.work.pending.head? =
            (cipherProgram .feedback ++
              [putUop 0xA (min 16 (data.length - 16 * n)), putUop 0xB 0])[j]? ∧
          t.this.seq.off = 16 * n ∧
          t.this.seq.phase = (if j < 57 then .cipher else .emit)) ∧
    (∀ block : Block, decodeFrame f = .ok (.encblk block.toList) → s.ksValid = true →
      s.scheduleChanging = false →
      ∃ t : State, core.run (1 + 57) s = .next t ∧ t.this.work.pending = [putUop 0x8 0] ∧
        t.this.seq.off = 0 ∧ t.this.seq.phase = .emit) ∧
    (∀ data : List Byte, decodeFrame f = .ok (.ofbchunk data) → 1 ≤ data.length →
      data.length ≤ 16 → s.ksValid = true → s.this.fbValid = true → s.scheduleChanging = false →
      ∀ j : Nat, j < 2 → ∃ t : State, core.run (1 + 57 + j) s = .next t ∧
        t.this.work.pending = [putUop 0xA data.length, putUop 0xB 0].drop j ∧
        t.this.seq.off = 0 ∧ t.this.seq.phase = .emit)

/-- R7, R249, R250: the two levels of description give the same end state. A frame performed in one step
at the grain of commands is performed at the grain of micro-operations in the number of steps R249 counts
(and two more, for acceptance and validation, the model's choice: notes/assumptions/4.md), with the same
registers, flags and response. -/
def Obligations.MicroOperationsPerformTheCommand : Prop :=
  ∀ (s t : State) (f : List Byte) (rest : List (List Byte)),
    s.ReadyFor f rest → s.grain = .command → step s = .next t →
      core.run (microSteps f t.this.err) { s with grain := .microOperation }
        = .next { t with grain := .microOperation }

/-- R235, R37: while the reset input is asserted a step clears both flags and `STATUS`, leaves `SEQ` idle
and no command in progress in every instance, answers nothing and takes no frame. The contents of `W`, `S`
and `FB` are free values. That the offered frames and the responses stay is the model's choice
(notes/assumptions/16.md). That one reset event is for every instance is the model's inference
(notes/assumptions/7.md). -/
def Obligations.ResetEventClearsFlags : Prop :=
  ∀ s : State, s.resetIn = true → ∃ t : State, step s = .next t ∧
    t.ksValid = false ∧ t.resetIn = true ∧
    (∀ c ∈ t.this :: t.peers, c.Resting ∧ c.fbValid = false ∧ c.err = .ok ∧
      c.status t.ksValid = 0x00) ∧
    (t.this :: t.peers).map (·.offered) = (s.this :: s.peers).map (·.offered) ∧
    (t.this :: t.peers).map (·.responses) = (s.this :: s.peers).map (·.responses)

/-- R37: what the spec states of the state after reset, for any number of instances. -/
def Obligations.ResetStateAsTabulated : Prop :=
  ∀ n : Nat, 1 ≤ n →
    (State.resetOf n).ksValid = false ∧
    ((State.resetOf n).this :: (State.resetOf n).peers).length = n ∧
    ∀ c ∈ (State.resetOf n).this :: (State.resetOf n).peers,
      c.Resting ∧ c.fbValid = false ∧ c.err = .ok ∧ c.status (State.resetOf n).ksValid = 0x00

/-- R35, R215, R251: the invariant of BetweenCommands holds at reset. -/
def Obligations.BetweenCommandsAtReset : Prop :=
  ∀ n : Nat, (State.resetOf n).BetweenCommands

/-- R35, R215, R251: every step from a state between commands leads to a state between commands: `W` is
the expansion of a key whenever `KS_VALID = 1`, `FB_VALID = 1` implies `KS_VALID = 1`, every instance
rests. -/
def Obligations.StepKeepsBetweenCommands : Prop :=
  ∀ s t : State, s.BetweenCommands → step s = .next t → t.BetweenCommands

/-- R30, R31, R51, R246: at any grain and in any sound state, a step keeps the counters of every instance
within their top values, `OFF` a multiple of 16, the result memory in canonical form, and `BUSY = 1` exactly
while an accepted frame waits for its validation (then `PHASE` is VALIDATE) or a command has
micro-operations left. -/
def Obligations.StepKeepsCountersAndResultSound : Prop :=
  ∀ s t : State, s.Sound → step s = .next t → t.Sound

/-- R30, R31, R37: the invariant of Sound holds at reset. -/
def Obligations.SoundAtReset : Prop :=
  ∀ n : Nat, (State.resetOf n).Sound

/-- R38, R32, R37: registers that hold no value are not observable. Two machines between commands that
differ only in `S`, in `FB` where `FB_VALID = 0` and in `W` where `KS_VALID = 0` step alike, to machines
that differ only so: the same responses, the same codes, the same flags. -/
def Obligations.UnspecifiedContentsAreUnobservable : Prop :=
  ∀ s s' t : State, s.BetweenCommands → s.SameValues s' → step s = .next t →
    ∃ t' : State, step s' = .next t' ∧ t.SameValues t'
end

