-- ==== Sys2Proof/Laws/Cipher.lean ====
section
/-! SUPPORT. The schedule word by word and the State transforms cell by cell. -/

namespace Sys2Proof.Machine

/-- A read inside a vector. -/
theorem getD_eq_getElem {α : Type} {n : Nat} (v : Vector α n) {i : Nat} (h : i < n) (d : α) :
    v.getD i d = v[i] := by
  simp [Vector.getD, h]

/-- The words KSLOAD leaves (R131). -/
theorem loadKeyWords_getElem (key : Key) (w : Schedule) (i : Nat) (h : i < 60) :
    (loadKeyWords key w)[i] = if i < 8 then keyWord key i else w[i] := by
  simp [loadKeyWords]

/-- A key word, big-endian (R53). -/
theorem keyWord_eq (key : Key) (i : Nat) (h : i < 8) :
    keyWord key i = wordOf key[4 * i] key[4 * i + 1] key[4 * i + 2] key[4 * i + 3] := by
  simp [keyWord, getD_eq_getElem, show 4 * i < 32 by omega, show 4 * i + 1 < 32 by omega,
    show 4 * i + 2 < 32 by omega, show 4 * i + 3 < 32 by omega]

/-- The words KSWORD(i) leaves (R132). -/
theorem stepWord_getElem (w : Schedule) (i : Nat) (hi : 8 ≤ i) (hi' : i < 60) (j : Nat) (hj : j < 60) :
    (stepWord w i)[j] =
      if j = i then nextWord i (w[i - 1]'(by omega)) (w[i - 8]'(by omega)) else w[j] := by
  simp only [stepWord, getD_eq_getElem w (show i - 1 < 60 by omega),
    getD_eq_getElem w (show i - 8 < 60 by omega)]
  split
  · subst_vars; simp
  · simp [Vector.getElem_setIfInBounds, *]; omega

/-- A cell after SubBytes (R147). -/
theorem subBytes_getElem (s : Block) (k : Nat) (h : k < 16) : (subBytes s)[k] = sbox s[k] := by
  simp [subBytes]

/-- A cell of a grid given by its flat cells (R22). -/
theorem cell_ofFn (f : Fin 16 → Byte) (r c : Fin 4) :
    cell (Vector.ofFn f) r c = f ⟨r.val + 4 * c.val, by omega⟩ := by
  simp [cell]

/-- The row of a cell (R22). -/
theorem row_flat (r c : Fin 4) : row ⟨r.val + 4 * c.val, by omega⟩ = r := by
  revert r c; decide

/-- The column of a cell (R22). -/
theorem col_flat (r c : Fin 4) : col ⟨r.val + 4 * c.val, by omega⟩ = c := by
  revert r c; decide

/-- Two grids with the same cells are equal. -/
theorem grid_ext {s t : Block} (h : ∀ r c : Fin 4, cell s r c = cell t r c) : s = t := by
  apply Vector.ext
  intro k hk
  have := h ⟨k % 4, by omega⟩ ⟨k / 4, by omega⟩
  simpa [cell, show k % 4 + 4 * (k / 4) = k by omega] using this

/-- A cell after SubBytes (R147). -/
theorem cell_subBytes (s : Block) (r c : Fin 4) : cell (subBytes s) r c = sbox (cell s r c) := by
  rw [subBytes, cell_ofFn]; rfl

/-- A cell after ShiftRows (R148). -/
theorem cell_shiftRows (s : Block) (r c : Fin 4) : cell (shiftRows s) r c = cell s r (c + r) := by
  rw [shiftRows, cell_ofFn, row_flat, col_flat]

/-- A cell after MixColumns (R150). -/
theorem cell_mixColumns (s : Block) (r c : Fin 4) :
    cell (mixColumns s) r c = mixColumn (cell s 0 c) (cell s 1 c) (cell s 2 c) (cell s 3 c) r := by
  rw [mixColumns, cell_ofFn, row_flat, col_flat]

/-- A cell after AddRoundKey (R152). -/
theorem cell_addRoundKey (w : Schedule) (k : Nat) (hk : k < 15) (s : Block) (r c : Fin 4) :
    cell (addRoundKey w k s) r c =
      cell s r c ^^^ byteOf r.val (w[4 * k + c.val]'(by omega)) := by
  rw [addRoundKey, cell_ofFn, row_flat, col_flat, getD_eq_getElem w (show 4 * k + c.val < 60 by omega)]
  rfl

end Sys2Proof.Machine
end

