-- ==== Sys2Proof/Laws/Memory.lean ====
section
/-! SUPPORT. The laws of the result memory (20_memory.md R51): read after write, and that every operation
keeps the canonical form. -/

namespace Sys2Proof.Machine

/-- Canonical form as a proposition. -/
theorem Memory.wf_iff (m : Memory) : m.wf = true ↔ m.Pairwise fun a b => a.1 < b.1 := by
  simp [Memory.wf]

/-- A read after a write of one byte. -/
theorem Memory.read_writeByte (m : Memory) (a b : Nat) (v : Byte) :
    (m.writeByte a v).read b = if b = a then some v else m.read b := by
  induction m with
  | nil => simp [Memory.writeByte, Memory.read]
  | cons c rest ih =>
    obtain ⟨k, u⟩ := c
    simp only [Memory.writeByte]
    split
    · simp only [Memory.read]
    · split
      · subst_vars; simp only [Memory.read]; split <;> simp_all
      · simp only [Memory.read, ih]; split
        · split <;> simp_all
        · rfl

/-- What a write of one byte lists. -/
theorem Memory.mem_writeByte {m : Memory} {a : Nat} {v : Byte} {c : Host.Cell}
    (h : c ∈ m.writeByte a v) : c = (a, v) ∨ c ∈ m := by
  induction m with
  | nil => simpa [Memory.writeByte] using h
  | cons d rest ih =>
    obtain ⟨k, u⟩ := d
    simp only [Memory.writeByte] at h
    split at h
    · simpa using h
    · split at h
      · rcases List.mem_cons.1 h with h | h
        · exact .inl h
        · exact .inr (List.mem_cons_of_mem _ h)
      · rcases List.mem_cons.1 h with h | h
        · exact .inr (by simp [h])
        · rcases ih h with h | h
          · exact .inl h
          · exact .inr (List.mem_cons_of_mem _ h)

/-- Writing a byte keeps the canonical form. -/
theorem Memory.writeByte_wf {m : Memory} (h : m.wf = true) (a : Nat) (v : Byte) :
    (m.writeByte a v).wf = true := by
  rw [Memory.wf_iff] at h ⊢
  induction m with
  | nil => simp [Memory.writeByte]
  | cons c rest ih =>
    obtain ⟨k, u⟩ := c
    rw [List.pairwise_cons] at h
    simp only [Memory.writeByte]
    split
    · rename_i hak
      refine List.pairwise_cons.2 ⟨?_, List.pairwise_cons.2 h⟩
      intro d hd
      rcases List.mem_cons.1 hd with rfl | hd
      · exact hak
      · exact Nat.lt_trans hak (h.1 d hd)
    · split
      · rename_i _ hak
        subst hak
        exact List.pairwise_cons.2 h
      · refine List.pairwise_cons.2 ⟨?_, ih h.2⟩
        intro d hd
        rcases Memory.mem_writeByte hd with rfl | hd
        · simp only; omega
        · exact h.1 d hd

/-- `MemWrite` keeps the canonical form. -/
theorem Memory.write_wf {m : Memory} (h : m.wf = true) (off : Nat) (v : List Byte) :
    (m.write off v).wf = true := by
  induction v generalizing m off with
  | nil => exact h
  | cons b rest ih => exact ih (Memory.writeByte_wf h off b) (off + 1)

/-- A read after `MemWrite(off, n, v)` (R51): the written bytes inside, the old ones outside. -/
theorem Memory.read_write (m : Memory) (off : Nat) (v : List Byte) (a : Nat) :
    (m.write off v).read a =
      if off ≤ a ∧ a < off + v.length then v[a - off]? else m.read a := by
  induction v generalizing m off with
  | nil => simp [Memory.write]
  | cons b rest ih =>
    rw [Memory.write, ih, Memory.read_writeByte]
    rcases Nat.lt_trichotomy a off with h | h | h
    · rw [if_neg (by omega), if_neg (by omega), if_neg (by simp; omega)]
    · subst h; simp
    · obtain ⟨j, rfl⟩ : ∃ j, a = off + 1 + j := ⟨a - off - 1, by omega⟩
      have e1 : off + 1 + j - off = j + 1 := by omega
      have e2 : off + 1 + j - (off + 1) = j := by omega
      rw [e1, e2, List.getElem?_cons_succ]
      simp only [List.length_cons]
      by_cases hj : j < rest.length
      · rw [if_pos (by omega), if_pos (by omega)]
      · rw [if_neg (by omega), if_neg (by omega), if_neg (by omega)]

/-- Writing just past the last offset appends. -/
theorem Memory.bytes_write_append (m : Memory) (off : Nat) (v : List Byte)
    (h : ∀ c ∈ m, c.1 < off) : (m.write off v).bytes = m.bytes ++ v ∧
      ∀ c ∈ m.write off v, c.1 < off + v.length := by
  induction v generalizing m off with
  | nil => simpa [Memory.write] using h
  | cons b rest ih =>
    have e : m.writeByte off b = m ++ [(off, b)] := by
      clear ih
      induction m with
      | nil => rfl
      | cons c t iht =>
        obtain ⟨k, u⟩ := c
        have hk : k < off := h (k, u) (by simp)
        simp only [Memory.writeByte]
        rw [if_neg (by omega), if_neg (by omega), iht (fun c hc => h c (List.mem_cons_of_mem _ hc))]
        rfl
    have h' : ∀ c ∈ m ++ [(off, b)], c.1 < off + 1 := by
      intro c hc
      rcases List.mem_append.1 hc with hc | hc
      · exact Nat.lt_succ_of_lt (h c hc)
      · simp at hc; subst hc; simp
    obtain ⟨h1, h2⟩ := ih (m ++ [(off, b)]) (off + 1) h'
    refine ⟨?_, ?_⟩
    · rw [Memory.write, e, h1]; simp [Memory.bytes]
    · intro c hc
      rw [Memory.write, e] at hc
      have := h2 c hc
      simp only [List.length_cons]; omega

/-- The result memory of a command that has written nothing is canonical. -/
theorem Memory.wf_empty : Memory.wf [] = true := by decide

/-- The result memory at reset is canonical. -/
theorem Memory.wf_reset : State.reset.this.work.out.wf = true := by decide

end Sys2Proof.Machine
end

