-- ==== Sys2Proof/Laws/Operands.lean ====
section
/-! SUPPORT. The operand forms: operands of exact length, the checks of each command with all their
outcomes (60_exceptions.md R215), and the chunks of the data (20_memory.md R58). -/

namespace Sys2Proof.Machine

/-- An operand of the right length is taken. -/
theorem exactly_toList {n : Nat} (v : Vector Byte n) : exactly n v.toList = some v := by
  obtain ⟨a, ha⟩ := v
  simp [exactly, Vector.toList, ha]

/-- An operand of another length is not. -/
theorem exactly_eq_none {n : Nat} {l : List Byte} (h : l.length ≠ n) : exactly n l = none := by
  simp [exactly, h]

/-- What is taken is the whole operand. -/
theorem exactly_some {n : Nat} {l : List Byte} {v : Vector Byte n} (h : exactly n l = some v) :
    l = v.toList ∧ l.length = n := by
  unfold exactly at h
  split at h
  · rename_i hl
    cases h
    exact ⟨by simp, hl⟩
  · cases h

/-- A sequence of `n` bytes is the list of a vector. -/
theorem exists_toList {n : Nat} {l : List Byte} (h : l.length = n) :
    ∃ v : Vector Byte n, l = v.toList :=
  ⟨⟨l.toArray, by simpa using h⟩, by simp⟩

/-- KEYEXP accepts 32 bytes. -/
theorem checkKeyexp_toList (k : Key) : checkKeyexp k.toList = .ok k := by
  simp [checkKeyexp, exactly_toList]

/-- The checks of KEYEXP, all outcomes. -/
theorem checkKeyexp_cases (key : List Byte) :
    (∃ k : Key, key = k.toList ∧ checkKeyexp key = .ok k) ∨
    (key.length ≠ 32 ∧ checkKeyexp key = .error .invalidKeyLength) := by
  by_cases h : key.length = 32
  · obtain ⟨k, rfl⟩ := exists_toList h
    exact .inl ⟨k, rfl, checkKeyexp_toList k⟩
  · exact .inr ⟨h, by simp [checkKeyexp, exactly_eq_none h]⟩

/-- The checks of ENCBLK, all outcomes. -/
theorem checkEncblk_cases (block : List Byte) (s : State) :
    (∃ b : Block, block = b.toList ∧ s.ksValid = true ∧ checkEncblk block s = .ok b) ∨
    (block.length ≠ 16 ∧ checkEncblk block s = .error .invalidBlockLength) ∨
    (block.length = 16 ∧ s.ksValid = false ∧ checkEncblk block s = .error .noSchedule) := by
  by_cases h : block.length = 16
  · obtain ⟨b, rfl⟩ := exists_toList h
    cases hk : s.ksValid
    · exact .inr (.inr ⟨h, rfl, by simp [checkEncblk, exactly_toList, hk]⟩)
    · exact .inl ⟨b, rfl, rfl, by simp [checkEncblk, exactly_toList, hk]⟩
  · exact .inr (.inl ⟨h, by simp [checkEncblk, exactly_eq_none h]⟩)

/-- The checks of STREAM, all outcomes. -/
theorem checkStream_cases (key iv : List Byte) :
    (∃ (k : Key) (v : Block), key = k.toList ∧ iv = v.toList ∧ checkStream key iv = .ok (k, v)) ∨
    (key.length ≠ 32 ∧ checkStream key iv = .error .invalidKeyLength) ∨
    (key.length = 32 ∧ iv.length ≠ 16 ∧ checkStream key iv = .error .invalidIVLength) := by
  by_cases h : key.length = 32
  · obtain ⟨k, rfl⟩ := exists_toList h
    by_cases h' : iv.length = 16
    · obtain ⟨v, rfl⟩ := exists_toList h'
      exact .inl ⟨k, v, rfl, rfl, by simp [checkStream, exactly_toList]⟩
    · exact .inr (.inr ⟨h, h', by simp [checkStream, exactly_toList, exactly_eq_none h']⟩)
  · exact .inr (.inl ⟨h, by simp [checkStream, exactly_eq_none h]⟩)

/-- The checks of OFBINIT, all outcomes. -/
theorem checkOfbinit_cases (iv : List Byte) (s : State) :
    (∃ v : Block, iv = v.toList ∧ s.ksValid = true ∧ checkOfbinit iv s = .ok v) ∨
    (iv.length ≠ 16 ∧ checkOfbinit iv s = .error .invalidIVLength) ∨
    (iv.length = 16 ∧ s.ksValid = false ∧ checkOfbinit iv s = .error .noSchedule) := by
  by_cases h : iv.length = 16
  · obtain ⟨b, rfl⟩ := exists_toList h
    cases hk : s.ksValid
    · exact .inr (.inr ⟨h, rfl, by simp [checkOfbinit, exactly_toList, hk]⟩)
    · exact .inl ⟨b, rfl, rfl, by simp [checkOfbinit, exactly_toList, hk]⟩
  · exact .inr (.inl ⟨h, by simp [checkOfbinit, exactly_eq_none h]⟩)

/-- The checks of OFBCHUNK, all outcomes. -/
theorem checkOfbchunk_cases (data : List Byte) (s : State) :
    (1 ≤ data.length ∧ data.length ≤ 16 ∧ s.ksValid = true ∧ s.this.fbValid = true ∧
      checkOfbchunk data s = .ok ()) ∨
    ((data.length < 1 ∨ 16 < data.length) ∧ checkOfbchunk data s = .error .invalidChunkLength) ∨
    (1 ≤ data.length ∧ data.length ≤ 16 ∧ s.ksValid = false ∧
      checkOfbchunk data s = .error .noSchedule) ∨
    (1 ≤ data.length ∧ data.length ≤ 16 ∧ s.ksValid = true ∧ s.this.fbValid = false ∧
      checkOfbchunk data s = .error .noStream) := by
  unfold checkOfbchunk
  by_cases h : data.length < 1 ∨ 16 < data.length
  · exact .inr (.inl ⟨h, by rw [if_pos h]⟩)
  · rw [if_neg h]
    cases s.ksValid <;> cases s.this.fbValid <;> simp <;> omega

@[simp] theorem chunks_nil : chunks [] = [] := rfl

/-- Fuel beyond the length of the data changes nothing. -/
theorem chunksWithin_eq (n : Nat) (d : List Byte) (h : d.length ≤ n) : chunksWithin n d = chunks d := by
  unfold chunks
  generalize hm : d.length = m
  induction n using Nat.strongRecOn generalizing d m with
  | ind n ih =>
    cases d with
    | nil => cases n <;> cases m <;> simp_all [chunksWithin]
    | cons b bs =>
      cases n with
      | zero => simp at h
      | succ n =>
        subst hm
        simp only [List.length_cons, chunksWithin]
        congr 1
        simp only [List.length_cons, Nat.add_le_add_iff_right] at h
        have hd : ((b :: bs).drop 16).length ≤ bs.length := by simp
        rw [ih n (by omega) _ (by omega) _ rfl]
        rw [ih bs.length (by omega) _ hd _ rfl]

/-- The first chunk and the others. -/
theorem chunks_cons (b : Byte) (bs : List Byte) :
    chunks (b :: bs) = (b :: bs).take 16 :: chunks ((b :: bs).drop 16) := by
  conv_lhs => unfold chunks
  simp only [List.length_cons, chunksWithin]
  rw [chunksWithin_eq]
  simp

/-- The first chunk and the others, for data that is not empty. -/
theorem chunks_of_ne_nil {d : List Byte} (h : d ≠ []) :
    chunks d = d.take 16 :: chunks (d.drop 16) := by
  cases d with
  | nil => exact absurd rfl h
  | cons b bs => exact chunks_cons b bs

/-- An induction over the data, one chunk at a time. -/
theorem chunk_induction {P : List Byte → Prop} (nil : P [])
    (step : ∀ d, d ≠ [] → P (d.drop 16) → P d) (d : List Byte) : P d := by
  generalize h : d.length = n
  induction n using Nat.strongRecOn generalizing d with
  | ind n ih =>
    by_cases hd : d = []
    · subst hd; exact nil
    · have : 0 < d.length := List.length_pos_of_ne_nil hd
      exact step d hd (ih (d.drop 16).length (by simp; omega) _ rfl)

/-- The chunks, joined, are the data (R58). -/
theorem chunks_flatten (d : List Byte) : (chunks d).flatten = d := by
  induction d using chunk_induction with
  | nil => rfl
  | step d hd ih => rw [chunks_of_ne_nil hd, List.flatten_cons, ih, List.take_append_drop]

/-- Every chunk has 1 to 16 bytes (R58). -/
theorem chunks_bounds (d : List Byte) : ∀ c ∈ chunks d, 1 ≤ c.length ∧ c.length ≤ 16 := by
  induction d using chunk_induction with
  | nil => simp
  | step d hd ih =>
    rw [chunks_of_ne_nil hd]
    have : 0 < d.length := List.length_pos_of_ne_nil hd
    intro c hc
    rcases List.mem_cons.1 hc with rfl | hc
    · simp; omega
    · exact ih c hc

@[simp] theorem xorChunk_length (c : List Byte) (ks : Block) :
    (xorChunk c ks).length = min c.length 16 := by
  simp [xorChunk]

end Sys2Proof.Machine
end

