-- ==== Sys2Proof/Laws/State.lean ====
section
/-! SUPPORT. What each named operation does to each field of the state, by rfl: an operation on the acting
instance is given by the record update of `this`, and every other field is unchanged. -/

namespace Sys2Proof.Machine

variable (s : State)

@[simp] theorem State.setW_w (w : Schedule) : (s.setW w).w = w := rfl
@[simp] theorem State.setW_ksValid (w : Schedule) : (s.setW w).ksValid = s.ksValid := rfl
@[simp] theorem State.setW_this (w : Schedule) : (s.setW w).this = s.this := rfl
@[simp] theorem State.setW_peers (w : Schedule) : (s.setW w).peers = s.peers := rfl
@[simp] theorem State.setW_turns (w : Schedule) : (s.setW w).turns = s.turns := rfl
@[simp] theorem State.setW_grain (w : Schedule) : (s.setW w).grain = s.grain := rfl
@[simp] theorem State.setW_resetIn (w : Schedule) : (s.setW w).resetIn = s.resetIn := rfl
@[simp] theorem State.setW_freeUsed (w : Schedule) : (s.setW w).freeUsed = s.freeUsed := rfl

@[simp] theorem State.setW_scheduleInUse (w : Schedule) :
    (s.setW w).scheduleInUse = s.scheduleInUse := rfl

@[simp] theorem State.setKsValid_w (b : Bool) : (s.setKsValid b).w = s.w := rfl
@[simp] theorem State.setKsValid_ksValid (b : Bool) : (s.setKsValid b).ksValid = b := rfl
@[simp] theorem State.setKsValid_this (b : Bool) : (s.setKsValid b).this = s.this := rfl
@[simp] theorem State.setKsValid_peers (b : Bool) : (s.setKsValid b).peers = s.peers := rfl
@[simp] theorem State.setKsValid_turns (b : Bool) : (s.setKsValid b).turns = s.turns := rfl
@[simp] theorem State.setKsValid_grain (b : Bool) : (s.setKsValid b).grain = s.grain := rfl
@[simp] theorem State.setKsValid_resetIn (b : Bool) : (s.setKsValid b).resetIn = s.resetIn := rfl
@[simp] theorem State.setKsValid_freeUsed (b : Bool) : (s.setKsValid b).freeUsed = s.freeUsed := rfl

@[simp] theorem State.setGrid_w (g : Block) : (s.setGrid g).w = s.w := rfl
@[simp] theorem State.setGrid_ksValid (g : Block) : (s.setGrid g).ksValid = s.ksValid := rfl
@[simp] theorem State.setGrid_this (g : Block) :
    (s.setGrid g).this =
      { s.this with grid := g } := rfl
@[simp] theorem State.setGrid_peers (g : Block) : (s.setGrid g).peers = s.peers := rfl
@[simp] theorem State.setGrid_turns (g : Block) : (s.setGrid g).turns = s.turns := rfl
@[simp] theorem State.setGrid_grain (g : Block) : (s.setGrid g).grain = s.grain := rfl
@[simp] theorem State.setGrid_resetIn (g : Block) : (s.setGrid g).resetIn = s.resetIn := rfl
@[simp] theorem State.setGrid_freeUsed (g : Block) : (s.setGrid g).freeUsed = s.freeUsed := rfl

@[simp] theorem State.setFb_w (b : Block) : (s.setFb b).w = s.w := rfl
@[simp] theorem State.setFb_ksValid (b : Block) : (s.setFb b).ksValid = s.ksValid := rfl
@[simp] theorem State.setFb_this (b : Block) : (s.setFb b).this = { s.this with fb := b } := rfl
@[simp] theorem State.setFb_peers (b : Block) : (s.setFb b).peers = s.peers := rfl
@[simp] theorem State.setFb_turns (b : Block) : (s.setFb b).turns = s.turns := rfl
@[simp] theorem State.setFb_grain (b : Block) : (s.setFb b).grain = s.grain := rfl
@[simp] theorem State.setFb_resetIn (b : Block) : (s.setFb b).resetIn = s.resetIn := rfl
@[simp] theorem State.setFb_freeUsed (b : Block) : (s.setFb b).freeUsed = s.freeUsed := rfl

@[simp] theorem State.setFbValid_w (b : Bool) : (s.setFbValid b).w = s.w := rfl
@[simp] theorem State.setFbValid_ksValid (b : Bool) : (s.setFbValid b).ksValid = s.ksValid := rfl
@[simp] theorem State.setFbValid_this (b : Bool) :
    (s.setFbValid b).this =
      { s.this with fbValid := b } := rfl
@[simp] theorem State.setFbValid_peers (b : Bool) : (s.setFbValid b).peers = s.peers := rfl
@[simp] theorem State.setFbValid_turns (b : Bool) : (s.setFbValid b).turns = s.turns := rfl
@[simp] theorem State.setFbValid_grain (b : Bool) : (s.setFbValid b).grain = s.grain := rfl
@[simp] theorem State.setFbValid_resetIn (b : Bool) : (s.setFbValid b).resetIn = s.resetIn := rfl
@[simp] theorem State.setFbValid_freeUsed (b : Bool) : (s.setFbValid b).freeUsed = s.freeUsed := rfl

@[simp] theorem State.setSeq_w (q : Seq) : (s.setSeq q).w = s.w := rfl
@[simp] theorem State.setSeq_ksValid (q : Seq) : (s.setSeq q).ksValid = s.ksValid := rfl
@[simp] theorem State.setSeq_this (q : Seq) : (s.setSeq q).this = { s.this with seq := q } := rfl
@[simp] theorem State.setSeq_peers (q : Seq) : (s.setSeq q).peers = s.peers := rfl
@[simp] theorem State.setSeq_turns (q : Seq) : (s.setSeq q).turns = s.turns := rfl
@[simp] theorem State.setSeq_grain (q : Seq) : (s.setSeq q).grain = s.grain := rfl
@[simp] theorem State.setSeq_resetIn (q : Seq) : (s.setSeq q).resetIn = s.resetIn := rfl
@[simp] theorem State.setSeq_freeUsed (q : Seq) : (s.setSeq q).freeUsed = s.freeUsed := rfl

@[simp] theorem State.setWork_w (k : Work) : (s.setWork k).w = s.w := rfl
@[simp] theorem State.setWork_ksValid (k : Work) : (s.setWork k).ksValid = s.ksValid := rfl
@[simp] theorem State.setWork_this (k : Work) :
    (s.setWork k).this =
      { s.this with work := k } := rfl
@[simp] theorem State.setWork_peers (k : Work) : (s.setWork k).peers = s.peers := rfl
@[simp] theorem State.setWork_turns (k : Work) : (s.setWork k).turns = s.turns := rfl
@[simp] theorem State.setWork_grain (k : Work) : (s.setWork k).grain = s.grain := rfl
@[simp] theorem State.setWork_resetIn (k : Work) : (s.setWork k).resetIn = s.resetIn := rfl
@[simp] theorem State.setWork_freeUsed (k : Work) : (s.setWork k).freeUsed = s.freeUsed := rfl

@[simp] theorem State.memWrite_w (off : Nat) (v : List Byte) : (s.memWrite off v).w = s.w := rfl
@[simp] theorem State.memWrite_ksValid (off : Nat) (v : List Byte) :
    (s.memWrite off v).ksValid =
      s.ksValid := rfl
@[simp] theorem State.memWrite_this (off : Nat) (v : List Byte) :
    (s.memWrite off v).this =
      { s.this with work := { s.this.work with out := s.this.work.out.write off v } } := rfl
@[simp] theorem State.memWrite_peers (off : Nat) (v : List Byte) :
    (s.memWrite off v).peers =
      s.peers := rfl
@[simp] theorem State.memWrite_turns (off : Nat) (v : List Byte) :
    (s.memWrite off v).turns =
      s.turns := rfl
@[simp] theorem State.memWrite_grain (off : Nat) (v : List Byte) :
    (s.memWrite off v).grain =
      s.grain := rfl
@[simp] theorem State.memWrite_resetIn (off : Nat) (v : List Byte) :
    (s.memWrite off v).resetIn =
      s.resetIn := rfl
@[simp] theorem State.memWrite_freeUsed (off : Nat) (v : List Byte) :
    (s.memWrite off v).freeUsed =
      s.freeUsed := rfl

@[simp] theorem State.idle_w : s.idle.w = s.w := rfl
@[simp] theorem State.idle_ksValid : s.idle.ksValid = s.ksValid := rfl
@[simp] theorem State.idle_this :
    s.idle.this =
      { s.this with busy := false, seq := Seq.idle, work := Work.none } := rfl
@[simp] theorem State.idle_peers : s.idle.peers = s.peers := rfl
@[simp] theorem State.idle_turns : s.idle.turns = s.turns := rfl
@[simp] theorem State.idle_grain : s.idle.grain = s.grain := rfl
@[simp] theorem State.idle_resetIn : s.idle.resetIn = s.resetIn := rfl
@[simp] theorem State.idle_freeUsed : s.idle.freeUsed = s.freeUsed := rfl

@[simp] theorem State.respond_w (c : ResultCode) (p : List Byte) : (s.respond c p).w = s.w := rfl
@[simp] theorem State.respond_ksValid (c : ResultCode) (p : List Byte) :
    (s.respond c p).ksValid =
      s.ksValid := rfl
@[simp] theorem State.respond_this (c : ResultCode) (p : List Byte) :
    (s.respond c p).this =
      { s.this with busy := false, seq := Seq.idle, work := Work.none, err := c, responses := s.this.responses ++ [c.code :: p] } := rfl
@[simp] theorem State.respond_peers (c : ResultCode) (p : List Byte) :
    (s.respond c p).peers =
      s.peers := rfl
@[simp] theorem State.respond_turns (c : ResultCode) (p : List Byte) :
    (s.respond c p).turns =
      s.turns := rfl
@[simp] theorem State.respond_grain (c : ResultCode) (p : List Byte) :
    (s.respond c p).grain =
      s.grain := rfl
@[simp] theorem State.respond_resetIn (c : ResultCode) (p : List Byte) :
    (s.respond c p).resetIn =
      s.resetIn := rfl
@[simp] theorem State.respond_freeUsed (c : ResultCode) (p : List Byte) :
    (s.respond c p).freeUsed =
      s.freeUsed := rfl

@[simp] theorem State.raise_w (e : ResultCode) : (s.raise e).w = s.w := rfl
@[simp] theorem State.raise_ksValid (e : ResultCode) : (s.raise e).ksValid = s.ksValid := rfl
@[simp] theorem State.raise_this (e : ResultCode) :
    (s.raise e).this =
      { s.this with busy := false, seq := Seq.idle, work := Work.none, err := e, responses := s.this.responses ++ [[e.code]] } := rfl
@[simp] theorem State.raise_peers (e : ResultCode) : (s.raise e).peers = s.peers := rfl
@[simp] theorem State.raise_turns (e : ResultCode) : (s.raise e).turns = s.turns := rfl
@[simp] theorem State.raise_grain (e : ResultCode) : (s.raise e).grain = s.grain := rfl
@[simp] theorem State.raise_resetIn (e : ResultCode) : (s.raise e).resetIn = s.resetIn := rfl
@[simp] theorem State.raise_freeUsed (e : ResultCode) : (s.raise e).freeUsed = s.freeUsed := rfl

@[simp] theorem State.take_w (r : List (List Byte)) : (s.take r).w = s.w := rfl
@[simp] theorem State.take_ksValid (r : List (List Byte)) : (s.take r).ksValid = s.ksValid := rfl
@[simp] theorem State.take_this (r : List (List Byte)) :
    (s.take r).this =
      { s.this with offered := r } := rfl
@[simp] theorem State.take_peers (r : List (List Byte)) : (s.take r).peers = s.peers := rfl
@[simp] theorem State.take_turns (r : List (List Byte)) : (s.take r).turns = s.turns := rfl
@[simp] theorem State.take_grain (r : List (List Byte)) : (s.take r).grain = s.grain := rfl
@[simp] theorem State.take_resetIn (r : List (List Byte)) : (s.take r).resetIn = s.resetIn := rfl
@[simp] theorem State.take_freeUsed (r : List (List Byte)) : (s.take r).freeUsed = s.freeUsed := rfl

@[simp] theorem State.begin_w (k : Work) : (s.begin k).w = s.w := rfl
@[simp] theorem State.begin_ksValid (k : Work) : (s.begin k).ksValid = s.ksValid := rfl
@[simp] theorem State.begin_this (k : Work) :
    (s.begin k).this =
      { s.this with work := k, seq := s.this.seq.toward k.pending } := rfl
@[simp] theorem State.begin_peers (k : Work) : (s.begin k).peers = s.peers := rfl
@[simp] theorem State.begin_turns (k : Work) : (s.begin k).turns = s.turns := rfl
@[simp] theorem State.begin_grain (k : Work) : (s.begin k).grain = s.grain := rfl
@[simp] theorem State.begin_resetIn (k : Work) : (s.begin k).resetIn = s.resetIn := rfl
@[simp] theorem State.begin_freeUsed (k : Work) : (s.begin k).freeUsed = s.freeUsed := rfl

end Sys2Proof.Machine
end

