-- ==== Sys2Proof/Laws/Exec.lean ====
section
/-! SUPPORT. Everything a meaning can answer, said once: the inversion lemmas of the commands and of the
micro-operations that may stop, and what all commands and all micro-operations have in common. -/

namespace Sys2Proof.Machine

/-- Everything KEYEXP can answer (R133). -/
theorem execKeyexp_cases (key : List Byte) (s : State) :
    (∃ k : Key, key = k.toList ∧ s.scheduleInUse = false ∧
      execKeyexp key s = .next ((((s.setW (expandInto k s.w)).setKsValid true).setFbValid false).respond
        .ok (scheduleBytes (expandInto k s.w)))) ∨
    (key.length = 32 ∧ s.scheduleInUse = true ∧ execKeyexp key s = .refused .scheduleInUse) ∨
    (key.length ≠ 32 ∧ execKeyexp key s = .next (s.raise .invalidKeyLength)) := by
  rcases checkKeyexp_cases key with ⟨k, rfl, h⟩ | ⟨h, e⟩
  · cases hu : s.scheduleInUse
    · exact .inl ⟨k, rfl, rfl, by simp [execKeyexp, h, hu]⟩
    · exact .inr (.inl ⟨by simp, rfl, by simp [execKeyexp, h, hu]⟩)
  · exact .inr (.inr ⟨h, by simp [execKeyexp, e]⟩)

/-- Everything ENCBLK can answer (R167). -/
theorem execEncblk_cases (block : List Byte) (s : State) :
    (∃ b : Block, block = b.toList ∧ s.ksValid = true ∧ s.scheduleChanging = false ∧
      execEncblk block s =
        .next ((s.setGrid (encryptBlock b s.w)).respond .ok (encryptBlock b s.w).toList)) ∨
    (block.length = 16 ∧ s.ksValid = true ∧ s.scheduleChanging = true ∧
      execEncblk block s = .refused .scheduleInUse) ∨
    (block.length ≠ 16 ∧ execEncblk block s = .next (s.raise .invalidBlockLength)) ∨
    (block.length = 16 ∧ s.ksValid = false ∧ execEncblk block s = .next (s.raise .noSchedule)) := by
  rcases checkEncblk_cases block s with ⟨b, rfl, hk, h⟩ | ⟨h, e⟩ | ⟨h, hk, e⟩
  · cases hc : s.scheduleChanging
    · exact .inl ⟨b, rfl, hk, rfl, by simp [execEncblk, h, hc]⟩
    · exact .inr (.inl ⟨by simp, hk, rfl, by simp [execEncblk, h, hc]⟩)
  · exact .inr (.inr (.inl ⟨h, by simp [execEncblk, e]⟩))
  · exact .inr (.inr (.inr ⟨h, hk, by simp [execEncblk, e]⟩))

/-- Everything STREAM can answer (R187). -/
theorem execStream_cases (key iv data : List Byte) (s : State) :
    (∃ (k : Key) (v : Block), key = k.toList ∧ iv = v.toList ∧ s.scheduleInUse = false ∧
      execStream key iv data s =
        .next ((((((s.setW (expandInto k s.w)).setKsValid true).setGrid
          (streamLoop (expandInto k s.w) ⟨s.this.grid, v, []⟩ data).grid).setFb
          (streamLoop (expandInto k s.w) ⟨s.this.grid, v, []⟩ data).fb).setFbValid true).respond .ok
          (streamLoop (expandInto k s.w) ⟨s.this.grid, v, []⟩ data).out)) ∨
    (key.length = 32 ∧ iv.length = 16 ∧ s.scheduleInUse = true ∧
      execStream key iv data s = .refused .scheduleInUse) ∨
    (key.length ≠ 32 ∧ execStream key iv data s = .next (s.raise .invalidKeyLength)) ∨
    (key.length = 32 ∧ iv.length ≠ 16 ∧
      execStream key iv data s = .next (s.raise .invalidIVLength)) := by
  rcases checkStream_cases key iv with ⟨k, v, rfl, rfl, h⟩ | ⟨h, e⟩ | ⟨h, h', e⟩
  · cases hu : s.scheduleInUse
    · exact .inl ⟨k, v, rfl, rfl, rfl, by simp [execStream, h, hu]⟩
    · exact .inr (.inl ⟨by simp, by simp, rfl, by simp [execStream, h, hu]⟩)
  · exact .inr (.inr (.inl ⟨h, by simp [execStream, e]⟩))
  · exact .inr (.inr (.inr ⟨h, h', by simp [execStream, e]⟩))

/-- Everything OFBINIT can answer (R185). -/
theorem execOfbinit_cases (iv : List Byte) (s : State) :
    (∃ v : Block, iv = v.toList ∧ s.ksValid = true ∧
      execOfbinit iv s = .next (((s.setFb v).setFbValid true).respond .ok [])) ∨
    (iv.length ≠ 16 ∧ execOfbinit iv s = .next (s.raise .invalidIVLength)) ∨
    (iv.length = 16 ∧ s.ksValid = false ∧ execOfbinit iv s = .next (s.raise .noSchedule)) := by
  rcases checkOfbinit_cases iv s with ⟨v, rfl, hk, h⟩ | ⟨h, e⟩ | ⟨h, hk, e⟩
  · exact .inl ⟨v, rfl, hk, by simp [execOfbinit, h]⟩
  · exact .inr (.inl ⟨h, by simp [execOfbinit, e]⟩)
  · exact .inr (.inr ⟨h, hk, by simp [execOfbinit, e]⟩)

/-- Everything OFBCHUNK can answer (R186). -/
theorem execOfbchunk_cases (data : List Byte) (s : State) :
    (1 ≤ data.length ∧ data.length ≤ 16 ∧ s.ksValid = true ∧ s.this.fbValid = true ∧
      s.scheduleChanging = false ∧
      execOfbchunk data s = .next (((s.setGrid (encryptBlock s.this.fb s.w)).setFb
        (encryptBlock s.this.fb s.w)).respond .ok (xorChunk data (encryptBlock s.this.fb s.w)))) ∨
    (1 ≤ data.length ∧ data.length ≤ 16 ∧ s.ksValid = true ∧ s.this.fbValid = true ∧
      s.scheduleChanging = true ∧ execOfbchunk data s = .refused .scheduleInUse) ∨
    ((data.length < 1 ∨ 16 < data.length) ∧
      execOfbchunk data s = .next (s.raise .invalidChunkLength)) ∨
    (1 ≤ data.length ∧ data.length ≤ 16 ∧ s.ksValid = false ∧
      execOfbchunk data s = .next (s.raise .noSchedule)) ∨
    (1 ≤ data.length ∧ data.length ≤ 16 ∧ s.ksValid = true ∧ s.this.fbValid = false ∧
      execOfbchunk data s = .next (s.raise .noStream)) := by
  rcases checkOfbchunk_cases data s with
    ⟨h1, h2, hk, hf, h⟩ | ⟨h, e⟩ | ⟨h1, h2, hk, e⟩ | ⟨h1, h2, hk, hf, e⟩
  · cases hc : s.scheduleChanging
    · exact .inl ⟨h1, h2, hk, hf, rfl, by simp [execOfbchunk, h, hc]⟩
    · exact .inr (.inl ⟨h1, h2, hk, hf, rfl, by simp [execOfbchunk, h, hc]⟩)
  · exact .inr (.inr (.inl ⟨h, by simp [execOfbchunk, e]⟩))
  · exact .inr (.inr (.inr (.inl ⟨h1, h2, hk, by simp [execOfbchunk, e]⟩)))
  · exact .inr (.inr (.inr (.inr ⟨h1, h2, hk, hf, by simp [execOfbchunk, e]⟩)))

/-- Where a write of `W` completes, and how (R242). -/
theorem writeSchedule_next {w : Schedule} {s t : State} (h : writeSchedule w s = .next t) :
    s.scheduleInUse = false ∧ t = s.setW w := by
  unfold writeSchedule at h
  split at h
  · cases h
  · rename_i hu
    cases h
    exact ⟨by simpa using hu, rfl⟩

/-- A write of `W` completes while no other instance is busy. -/
theorem writeSchedule_unused {s : State} (h : s.scheduleInUse = false) (w : Schedule) :
    writeSchedule w s = .next (s.setW w) := by simp [writeSchedule, h]

/-- A write of `W` has no step while another instance is busy. -/
theorem writeSchedule_used {s : State} (h : s.scheduleInUse = true) (w : Schedule) :
    writeSchedule w s = .refused .scheduleInUse := by simp [writeSchedule, h]

/-- Where KSLOAD completes, and how (R131). -/
theorem execKsload_next {s t : State} (h : execKsload s = .next t) :
    s.scheduleInUse = false ∧ t = s.setW (loadKeyWords s.this.work.key s.w) := writeSchedule_next h

/-- Where KSWORD completes, and how (R132). -/
theorem execKsword_next {i : Nat} {s t : State} (h : execKsword i s = .next t) :
    8 ≤ i ∧ i ≤ 59 ∧ s.scheduleInUse = false ∧ t = s.setW (stepWord s.w i) := by
  unfold execKsword at h
  split at h
  · rename_i hi
    exact ⟨hi.1, hi.2, writeSchedule_next h⟩
  · cases h

/-- Where ADDROUNDKEY completes, and how (R152). -/
theorem execAddroundkey_next {k : Nat} {s t : State} (h : execAddroundkey k s = .next t) :
    k ≤ 14 ∧ t = s.setGrid (addRoundKey s.w k s.this.grid) := by
  unfold execAddroundkey at h
  split at h
  · rename_i hk
    cases h
    exact ⟨hk, rfl⟩
  · cases h

/-- Where OFBXOR completes, and how (R183). -/
theorem execOfbxor_next {n : Nat} {s t : State} (h : execOfbxor n s = .next t) :
    1 ≤ n ∧ n ≤ 16 ∧ s.this.seq.off + n ≤ s.this.work.data.length ∧
      t = s.memWrite s.this.seq.off
        (xorChunk ((s.this.work.data.drop s.this.seq.off).take n) s.this.grid) := by
  unfold execOfbxor State.memRead at h
  split at h
  · rename_i hn
    split at h
    · cases h
    · rename_i d hd
      split at hd
      · rename_i hl
        cases hd
        cases h
        exact ⟨hn.1, hn.2, hl, rfl⟩
      · cases hd
  · cases h

/-- LDSTATE from either source (R145). -/
theorem execLdstate_eq (src : LoadSource) (s : State) :
    execLdstate src s = .next (s.setGrid
      (match src with
       | .block => s.this.work.blk
       | .feedback => s.this.fb)) := by
  cases src <;> rfl

/-- What no micro-operation touches: it writes `W`, `S`, `FB`, `FB_VALID` or the result, and nothing else. -/
theorem execUop_frame {i : Instr} {s t : State} (hi : i.isCommand = false) (h : exec i s = .next t) :
    t.this.busy = s.this.busy ∧ t.this.seq = s.this.seq ∧ t.this.err = s.this.err ∧
    t.this.offered = s.this.offered ∧ t.this.responses = s.this.responses ∧
    t.this.work = { s.this.work with out := t.this.work.out } ∧
    t.ksValid = s.ksValid ∧ t.peers = s.peers ∧ t.turns = s.turns ∧ t.grain = s.grain ∧
    t.resetIn = s.resetIn ∧ t.freeUsed = s.freeUsed ∧
    (s.this.work.out.wf = true → t.this.work.out.wf = true) := by
  cases i with
  | keyexp _ | encblk _ | stream _ _ _ | ofbinit _ | ofbchunk _ => cases hi
  | ksload => obtain ⟨_, rfl⟩ := execKsload_next h; simp
  | ksword j => obtain ⟨_, _, _, rfl⟩ := execKsword_next h; simp
  | addroundkey k => obtain ⟨_, rfl⟩ := execAddroundkey_next h; simp
  | ofbxor n =>
    obtain ⟨_, _, _, rfl⟩ := execOfbxor_next h
    simpa using fun h => Memory.write_wf h _ _
  | ldstate src =>
    rw [exec, execLdstate_eq] at h
    injection h with h
    subst h
    simp
  | ststate =>
    simp only [exec, execStstate, Host.Outcome.next.injEq] at h
    subst h
    simpa using fun h => Memory.write_wf h _ _
  | subbytes | shiftrows | mixcolumns | fbload | fbupdate =>
    simp only [exec, execSubbytes, execShiftrows, execMixcolumns, execFbload, execFbupdate,
      Host.Outcome.next.injEq] at h
    subst h
    simp

/-- What every command leaves: an idle instance, one response more, and the other instances as they
were. -/
theorem execCommand_answers {i : Instr} {s t : State} (hi : i.isCommand = true) (h : exec i s = .next t) :
    t.this.busy = false ∧ t.this.seq = Seq.idle ∧ t.this.work = Work.none ∧ t.peers = s.peers ∧
    ∃ r, t.this.responses = s.this.responses ++ [r] := by
  cases i with
  | keyexp k =>
    rcases execKeyexp_cases k s with ⟨_, _, _, e⟩ | ⟨_, _, e⟩ | ⟨_, e⟩ <;> rw [exec, e] at h <;>
      first | (injection h with h; subst h; simp) | injection h
  | encblk k =>
    rcases execEncblk_cases k s with ⟨_, _, _, _, e⟩ | ⟨_, _, _, e⟩ | ⟨_, e⟩ | ⟨_, _, e⟩ <;>
      rw [exec, e] at h <;> first | (injection h with h; subst h; simp) | injection h
  | stream k v d =>
    rcases execStream_cases k v d s with ⟨_, _, _, _, _, e⟩ | ⟨_, _, _, e⟩ | ⟨_, e⟩ | ⟨_, _, e⟩ <;>
      rw [exec, e] at h <;> first | (injection h with h; subst h; simp) | injection h
  | ofbinit k =>
    rcases execOfbinit_cases k s with ⟨_, _, _, e⟩ | ⟨_, e⟩ | ⟨_, _, e⟩ <;> rw [exec, e] at h <;>
      injection h with h <;> subst h <;> simp
  | ofbchunk k =>
    rcases execOfbchunk_cases k s with
      ⟨_, _, _, _, _, e⟩ | ⟨_, _, _, _, _, e⟩ | ⟨_, e⟩ | ⟨_, _, _, e⟩ | ⟨_, _, _, _, e⟩ <;>
      rw [exec, e] at h <;> first | (injection h with h; subst h; simp) | injection h
  | ksload | ksword _ | ldstate _ | subbytes | shiftrows | mixcolumns | addroundkey _ | ststate
  | fbload | ofbxor _ | fbupdate => cases hi

end Sys2Proof.Machine
end

