-- ==== Sys2Proof/Laws/PerInstr.lean ====
section
/-! SUPPORT. The statements made for every instruction one by one (LAWS.json): family EncodedForm, which of
the two formats of 30_encoding.md R80 an instruction is encoded in. -/

namespace Sys2Proof.Laws.EncodedForm

/-- R80: a host command is encoded as a frame, whose first byte names a command (R91), and a
micro-operation as a word, whose code is none of the reserved ones (R95). -/
def Statement (i : Instr) : Prop :=
  match encode i with
  | .frame f => i.isCommand = true ∧ ∃ opcode operands, f = opcode :: operands ∧ 1 ≤ opcode.toNat ∧
      opcode.toNat ≤ 5
  | .uop w => i.isCommand = false ∧ 1 ≤ uopCode w ∧ uopCode w ≤ 11

/-- The code field of a word is the code it was made from (R94). -/
theorem uopCode_putUop (code arg : Nat) (hc : code < 16) : uopCode (putUop code arg) = code := by
  have ha : arg % 2 ^ 6 < 2 ^ 6 := Nat.mod_lt _ (by decide)
  simp only [uopCode, putUop, BitVec.toNat_append, BitVec.toNat_ofNat]
  rw [Nat.mod_eq_of_lt (by omega : code < 2 ^ 4), ← Nat.shiftLeft_add_eq_or_of_lt ha, Nat.shiftLeft_eq]
  omega

theorem keyexp (key : List Byte) : Statement (.keyexp key) := ⟨rfl, _, _, rfl, by decide, by decide⟩
theorem encblk (block : List Byte) : Statement (.encblk block) := ⟨rfl, _, _, rfl, by decide, by decide⟩
theorem stream (key iv data : List Byte) : Statement (.stream key iv data) :=
  ⟨rfl, _, _, rfl, by decide, by decide⟩
theorem ofbinit (iv : List Byte) : Statement (.ofbinit iv) := ⟨rfl, _, _, rfl, by decide, by decide⟩
theorem ofbchunk (data : List Byte) : Statement (.ofbchunk data) :=
  ⟨rfl, _, _, rfl, by decide, by decide⟩
theorem ksload : Statement .ksload := ⟨rfl, by decide, by decide⟩
theorem ksword (i : Nat) : Statement (.ksword i) := by
  simp [Statement, encode, Instr.isCommand, uopCode_putUop]
theorem ldstate (src : LoadSource) : Statement (.ldstate src) := by
  simp [Statement, encode, Instr.isCommand, uopCode_putUop]
theorem subbytes : Statement .subbytes := ⟨rfl, by decide, by decide⟩
theorem shiftrows : Statement .shiftrows := ⟨rfl, by decide, by decide⟩
theorem mixcolumns : Statement .mixcolumns := ⟨rfl, by decide, by decide⟩
theorem addroundkey (k : Nat) : Statement (.addroundkey k) := by
  simp [Statement, encode, Instr.isCommand, uopCode_putUop]
theorem ststate : Statement .ststate := ⟨rfl, by decide, by decide⟩
theorem fbload : Statement .fbload := ⟨rfl, by decide, by decide⟩
theorem ofbxor (n : Nat) : Statement (.ofbxor n) := by
  simp [Statement, encode, Instr.isCommand, uopCode_putUop]
theorem fbupdate : Statement .fbupdate := ⟨rfl, by decide, by decide⟩

end Sys2Proof.Laws.EncodedForm
end

