-- ==== Sys2Proof/Laws/Schedule.lean ====
section
/-! SUPPORT. The key expansion: the words of `KeyExpand` (41_key_schedule.md R130), and that the sequence
of R134 computes them whatever `W` held before. -/

namespace Sys2Proof.Machine

/-- After `n` turns of the recurrence there are `8 + n` words. -/
theorem keyExpandWords_length (key : Key) (n : Nat) : (keyExpandWords key n).length = n + 8 := by
  induction n with
  | zero => simp [keyExpandWords]
  | succ n ih => simp [keyExpandWords, ih]

/-- A word once written stays. -/
theorem keyExpandWords_stable (key : Key) (n m j : Nat) (hj : j < n + 8) (hnm : n ≤ m) :
    (keyExpandWords key m).getD j 0 = (keyExpandWords key n).getD j 0 := by
  induction m, hnm using Nat.le_induction with
  | base => rfl
  | succ m hm ih =>
    rw [← ih]
    simp only [keyExpandWords]
    rw [List.getD_append _ _ _ _ (by rw [keyExpandWords_length]; omega)]

/-- The word a turn of the recurrence adds. -/
theorem keyExpandWords_new (key : Key) (n : Nat) :
    (keyExpandWords key (n + 1)).getD (n + 8) 0 =
      nextWord (n + 8) ((keyExpandWords key n).getD (n + 7) 0) ((keyExpandWords key n).getD n 0) := by
  simp only [keyExpandWords]
  rw [List.getD_append_right _ _ _ _ (by rw [keyExpandWords_length])]
  simp [keyExpandWords_length]

/-- The first eight words are the key. -/
theorem keyExpandWords_old (key : Key) (i : Nat) (h : i < 8) :
    (keyExpandWords key 0).getD i 0 = keyWord key i := by
  simp [keyExpandWords, List.getD, h]

/-- A word of `KeyExpand`. -/
theorem keyExpand_getElem (key : Key) (i : Nat) (h : i < 60) :
    (keyExpand key)[i] = (keyExpandWords key 52).getD i 0 := by
  simp [keyExpand]

/-- The schedule in the middle of a key expansion: the words computed so far, and the old ones above. -/
theorem expandUpTo_getElem (key : Key) (w : Schedule) (n : Nat) (hn : n ≤ 52) (j : Nat) (hj : j < 60) :
    ((List.range' 8 n).foldl stepWord (loadKeyWords key w))[j] =
      if j < n + 8 then (keyExpandWords key n).getD j 0 else w[j] := by
  induction n generalizing j with
  | zero =>
    simp only [List.range'_zero, List.foldl_nil, loadKeyWords_getElem]
    split
    · rw [keyExpandWords_old _ _ (by omega)]
    · rfl
  | succ n ih =>
    rw [List.range'_1_concat, List.foldl_append, List.foldl_cons, List.foldl_nil,
      stepWord_getElem _ _ (by omega) (by omega)]
    rw [ih (by omega), ih (by omega), ih (by omega)]
    by_cases hj' : j = 8 + n
    · subst hj'
      rw [if_pos rfl, if_pos (by omega), if_pos (by omega), if_pos (by omega)]
      have := keyExpandWords_new key n
      rw [show 8 + n = n + 8 by omega, this]
      rfl
    · rw [if_neg hj']
      by_cases h2 : j < n + 8
      · rw [if_pos h2, if_pos (by omega), keyExpandWords_stable key n (n + 1) j h2 (by omega)]
      · rw [if_neg h2, if_neg (by omega)]

/-- The key expansion on a schedule gives `KeyExpand(key)`, whatever stood there before. -/
theorem expandInto_eq (key : Key) (w : Schedule) : expandInto key w = keyExpand key := by
  apply Vector.ext
  intro j hj
  rw [expandInto, scheduleIndices, expandUpTo_getElem key w 52 (by omega) j hj, if_pos (by omega)]
  simp [keyExpand]

end Sys2Proof.Machine
end

