-- ==== Sys2Proof/Laws/Sequencer.lean ====
section
/-! SUPPORT. The words the sequencer issues decode to the micro-operations they are written for, and one
step of an instance that has a word to issue; what validation can do. -/

namespace Sys2Proof.Machine

/-- The word of KSLOAD. -/
theorem decodeUop_ksload : decodeUop (putUop 0x1 0) = .ok .ksload := by decide

/-- The words of KSWORD in a key expansion. -/
theorem decodeUop_ksword : ∀ i ∈ scheduleIndices, decodeUop (putUop 0x2 i) = .ok (.ksword i) := by decide

/-- The words of LDSTATE. -/
theorem decodeUop_ldstate (src : LoadSource) : decodeUop (putUop 0x3 src.arg) = .ok (.ldstate src) := by
  cases src <;> decide

/-- The word of SUBBYTES. -/
theorem decodeUop_subbytes : decodeUop (putUop 0x4 0) = .ok .subbytes := by decide

/-- The word of SHIFTROWS. -/
theorem decodeUop_shiftrows : decodeUop (putUop 0x5 0) = .ok .shiftrows := by decide

/-- The word of MIXCOLUMNS. -/
theorem decodeUop_mixcolumns : decodeUop (putUop 0x6 0) = .ok .mixcolumns := by decide

/-- The words of ADDROUNDKEY, slices 0 to 14. -/
theorem decodeUop_addroundkey : ∀ k < 15, decodeUop (putUop 0x7 k) = .ok (.addroundkey k) := by decide

/-- The word of STSTATE. -/
theorem decodeUop_ststate : decodeUop (putUop 0x8 0) = .ok .ststate := by decide

/-- The word of FBLOAD. -/
theorem decodeUop_fbload : decodeUop (putUop 0x9 0) = .ok .fbload := by decide

/-- The words of OFBXOR, chunks of up to 16 bytes. -/
theorem decodeUop_ofbxor : ∀ n < 17, decodeUop (putUop 0xA n) = .ok (.ofbxor n) := by decide

/-- The word of FBUPDATE. -/
theorem decodeUop_fbupdate : decodeUop (putUop 0xB 0) = .ok .fbupdate := by decide

/-- A word names a micro-operation only. -/
theorem decodeUop_isCommand {w : UopWord} {i : Instr} (h : decodeUop w = .ok i) : i.isCommand = false := by
  unfold decodeUop bareUop at h
  dsimp only at h
  repeat' split at h
  all_goals first | (cases h; rfl) | (cases h)

/-- A frame names a command only. -/
theorem decodeFrame_isCommand {f : List Byte} {i : Instr} (h : decodeFrame f = .ok i) :
    i.isCommand = true := by
  unfold decodeFrame soleField streamFields at h
  repeat' split at h
  all_goals first | (cases h; rfl) | (cases h)

/-- Everything validation can do: the command is refused with an error, or it begins, with the first of
its words to come. -/
theorem start_cases {i : Instr} {s t : State} (h : start i s = .next t) :
    (∃ e, t = s.raise e) ∨
    ∃ k : Work, t = s.begin k ∧ k.held = none ∧ k.running.isSome = true ∧ k.pending ≠ [] ∧ k.out = [] := by
  cases i with
  | keyexp key =>
    simp only [start, startKeyexp] at h
    repeat' split at h
    all_goals cases h
    · exact .inl ⟨_, rfl⟩
    · exact .inr ⟨_, rfl, rfl, rfl, by simp [keyExpandProgram], rfl⟩
  | encblk block =>
    simp only [start, startEncblk] at h
    repeat' split at h
    all_goals cases h
    · exact .inl ⟨_, rfl⟩
    · exact .inr ⟨_, rfl, rfl, rfl, by simp, rfl⟩
  | stream key iv data =>
    simp only [start, startStream] at h
    repeat' split at h
    all_goals cases h
    · exact .inl ⟨_, rfl⟩
    · exact .inr ⟨_, rfl, rfl, rfl, by simp [streamProgram, keyExpandProgram], rfl⟩
  | ofbinit iv =>
    simp only [start, startOfbinit] at h
    repeat' split at h
    all_goals cases h
    · exact .inl ⟨_, rfl⟩
    · exact .inr ⟨_, rfl, rfl, rfl, by simp [ofbinitProgram], rfl⟩
  | ofbchunk data =>
    simp only [start, startOfbchunk] at h
    repeat' split at h
    all_goals cases h
    · exact .inl ⟨_, rfl⟩
    · exact .inr ⟨_, rfl, rfl, rfl, by simp [chunkProgram], rfl⟩
  | ksload | ksword _ | ldstate _ | subbytes | shiftrows | mixcolumns | addroundkey _ | ststate
  | fbload | ofbxor _ | fbupdate => cases h

/-- A run in two parts. -/
theorem run_add (m n : Nat) (s t : State) (h : core.run m s = .next t) :
    core.run (m + n) s = core.run n t := by
  induction m generalizing s with
  | zero =>
    rw [Nat.zero_add]
    cases h
    rfl
  | succ m ih =>
    rw [Nat.add_right_comm]
    simp only [Host.Core.run] at h ⊢
    cases hs : core.step s with
    | next u => rw [hs] at h; exact ih u h
    | fault e => rw [hs] at h; cases h
    | refused r => rw [hs] at h; cases h

end Sys2Proof.Machine
end

