-- ==== Sys2Proof/Laws/Stream.lean ====
section
/-! SUPPORT. The chunk loop of 44_ofb_stream.md R180: what it leaves in `FB` and `S`, and its output chunk
by chunk. -/

namespace Sys2Proof.Machine

/-- The keystream after one block is the keystream from that block on. -/
theorem keystreamBlock_shift (w : Schedule) (fb : Block) (n : Nat) :
    keystreamBlock w (encryptBlock fb w) n = keystreamBlock w fb (n + 1) := by
  induction n with
  | zero => rfl
  | succ n ih => simp only [keystreamBlock, ih]

/-- The feedback after one chunk more. -/
theorem feedbackAfter_shift (w : Schedule) (fb : Block) (n : Nat) :
    feedbackAfter w (encryptBlock fb w) n = feedbackAfter w fb (n + 1) := by
  cases n with
  | zero => rfl
  | succ n => exact keystreamBlock_shift w fb n

/-- `FB` after a chunk loop. -/
theorem foldl_streamChunk_fb (w : Schedule) (cs : List (List Byte)) (r : StreamRun) :
    (cs.foldl (streamChunk w) r).fb = feedbackAfter w r.fb cs.length := by
  induction cs generalizing r with
  | nil => rfl
  | cons c cs ih => rw [List.foldl_cons, ih, List.length_cons, ← feedbackAfter_shift]; rfl

/-- `S` after a chunk loop: the last keystream block, or what it was when there is no chunk. -/
theorem foldl_streamChunk_grid (w : Schedule) (cs : List (List Byte)) (r : StreamRun) :
    (cs.foldl (streamChunk w) r).grid = if cs = [] then r.grid else (cs.foldl (streamChunk w) r).fb := by
  induction cs generalizing r with
  | nil => simp
  | cons c cs ih =>
    rw [List.foldl_cons, ih]
    by_cases h : cs = [] <;> simp [h, streamChunk]

/-- The output of a chunk loop: chunk `n` meets keystream block `n`. -/
theorem foldl_streamChunk_out (w : Schedule) (cs : List (List Byte)) (r : StreamRun) :
    (cs.foldl (streamChunk w) r).out =
      r.out ++ (cs.mapIdx fun n c => xorChunk c (keystreamBlock w r.fb n)).flatten := by
  induction cs generalizing r with
  | nil => simp
  | cons c cs ih =>
    rw [List.foldl_cons, ih]
    simp [streamChunk, List.mapIdx_cons, keystreamBlock_shift, keystreamBlock]

/-- There is no chunk exactly when there is no data. -/
theorem chunks_eq_nil (d : List Byte) : chunks d = [] ↔ d = [] := by
  constructor
  · intro h
    by_contra hd
    rw [chunks_of_ne_nil hd] at h
    cases h
  · rintro rfl
    rfl

end Sys2Proof.Machine
end

