-- ==== Sys2Proof/Tests/Slice0.lean ====
section
/-! SUPPORT. Tests of the model: the well-formedness checks, words and frames written out from the spec,
single steps against the vectors of 95_test_vectors.md (every expected value is copied from there or from
the rule named), and a witness for the hypotheses of each statement. -/

namespace Sys2Proof.Tests

open Sys2Proof Sys2Proof.Machine

/-! ## Helpers -/

/-- The `n` bytes of a hex literal, leftmost first (R8). -/
def hex (n x : Nat) : List Byte := (List.range n).map fun i => BitVec.ofNat 8 (x >>> (8 * (n - 1 - i)))

/-- A block from a hex literal. -/
def block (x : Nat) : Block := Vector.ofFn fun i => BitVec.ofNat 8 (x >>> (8 * (15 - i.val)))

/-- A key from a hex literal. -/
def key (x : Nat) : Key := Vector.ofFn fun i => BitVec.ofNat 8 (x >>> (8 * (31 - i.val)))

/-- The key of V4. -/
def keyV4 : Nat := 0x000102030405060708090a0b0c0d0e0f101112131415161718191a1b1c1d1e1f
/-- The corrected key of V1. -/
def keyV1 : Nat := 0x603deb1015ca71be2b73aef0857d77811f352c073b6108d72d9810a30914dff4
/-- The IV of V1. -/
def ivV1 : Nat := 0x000102030405060708090a0b0c0d0e0f
/-- The plaintext block of V1. -/
def plainV1 : Nat := 0x6bc1bee22e409f96e93d7e117393172a

/-- The reset state with a schedule in `W`, `g` in `S`, `b` in `FB`. -/
def sample (w : Schedule) (g b : Block) (fbValid : Bool) : State :=
  { State.reset with
    w := w
    ksValid := true
    this := { CoreInstance.reset with grid := g, fb := b, fbValid := fbValid } }

/-- A schedule that is easy to write: all words zero. -/
def zeroW : Schedule := Vector.replicate 60 0

/-- `s` with frames offered. -/
def offering (fs : List (List Byte)) (s : State) : State := { s with this := { s.this with offered := fs } }

/-- `s` with words pending. -/
def pendingWords (ws : List UopWord) (s : State) : State :=
  s.setWork { s.this.work with pending := ws }

/-- Another instance that shares the schedule and is busy with a key expansion. -/
def busyPeer : CoreInstance :=
  { CoreInstance.reset with
    busy := true
    work := { Work.none with running := some .keyexp, pending := [putUop 0x2 59] } }

/-- The sample state beside a busy instance. -/
def shared : State := { sample zeroW (block 0) (block 0) true with peers := [busyPeer] }

/-- The next state, if there is one. -/
def nextOf (o : Host.Outcome State Fault Refusal) : Option State :=
  match o with
  | .next t => some t
  | _ => none

/-- The last response frame of an outcome. -/
def answer (o : Host.Outcome State Fault Refusal) : Option (List Byte) :=
  (nextOf o).bind fun t => t.this.responses.getLast?

/-- `S` after. -/
def gridAfter (o : Host.Outcome State Fault Refusal) : Option Block := (nextOf o).map (·.this.grid)

/-- `FB` after. -/
def fbAfter (o : Host.Outcome State Fault Refusal) : Option Block := (nextOf o).map (·.this.fb)

/-- `STATUS` after. -/
def statusAfter (o : Host.Outcome State Fault Refusal) : Option Byte := (nextOf o).map State.status

/-! ## Well-formedness: each check refuses an ill-formed term -/

theorem test_wf_keyexp : (Instr.keyexp (List.replicate 256 0)).wellFormed = false := by decide +kernel
theorem test_wf_encblk : (Instr.encblk (List.replicate 256 0)).wellFormed = false := by decide +kernel
theorem test_wf_stream_key : (Instr.stream (List.replicate 256 0) [] []).wellFormed = false := by
  decide +kernel
theorem test_wf_stream_iv : (Instr.stream [] (List.replicate 256 0) []).wellFormed = false := by
  decide +kernel
theorem test_wf_ofbinit : (Instr.ofbinit (List.replicate 256 0)).wellFormed = false := by decide +kernel
theorem test_wf_ksword : (Instr.ksword 7).wellFormed = false ∧ (Instr.ksword 60).wellFormed = false := by
  decide
theorem test_wf_addroundkey : (Instr.addroundkey 15).wellFormed = false := by decide
theorem test_wf_ofbxor : (Instr.ofbxor 0).wellFormed = false ∧ (Instr.ofbxor 17).wellFormed = false := by
  decide

/-! ## Decoding: each constructor from a word of R91 or R95 (95_test_vectors.md V8, P5) -/

theorem test_decode_keyexp : decodeFrame [0x01, 0x00] = .ok (.keyexp []) ∧
    decodeFrame (0x01 :: 0x20 :: hex 32 keyV4) = .ok (.keyexp (hex 32 keyV4)) := by decide
theorem test_decode_encblk : decodeFrame (0x02 :: 0x0f :: List.replicate 15 0) =
    .ok (.encblk (List.replicate 15 0)) := by decide
theorem test_decode_stream : decodeFrame (0x03 :: 0x20 :: (hex 32 keyV4 ++ 0x0f :: hex 16 ivV1)) =
    .ok (.stream (hex 32 keyV4) (hex 15 0x000102030405060708090a0b0c0d0e) [0x0f]) := by decide
theorem test_decode_ofbinit : decodeFrame (0x04 :: 0x10 :: hex 16 ivV1) = .ok (.ofbinit (hex 16 ivV1)) := by
  decide
theorem test_decode_ofbchunk : decodeFrame [0x05] = .ok (.ofbchunk []) ∧
    decodeFrame [0x05, 0xaa] = .ok (.ofbchunk [0xaa]) := by decide
theorem test_decode_illegal : decodeFrame [] = .error .noOpcode ∧
    decodeFrame [0x00] = .error .illegalOpcode ∧ decodeFrame [0x06] = .error .illegalOpcode ∧
    decodeFrame [0xff, 0x00] = .error .illegalOpcode ∧ decodeFrame [0x01] = .error .missingLength ∧
    decodeFrame [0x03, 0x00] = .error .missingLength ∧
    decodeFrame (0x02 :: 0x10 :: List.replicate 15 0) = .error .fieldPastEnd ∧
    decodeFrame (0x04 :: 0x10 :: List.replicate 17 0) = .error .trailingBytes := by decide
theorem test_decode_ksload : decodeUop 0x040 = .ok .ksload := by decide
theorem test_decode_ksword : decodeUop 0x088 = .ok (.ksword 8) ∧ decodeUop 0x0bb = .ok (.ksword 59) := by
  decide
theorem test_decode_ldstate : decodeUop 0x0c0 = .ok (.ldstate .block) ∧
    decodeUop 0x0c1 = .ok (.ldstate .feedback) := by decide
theorem test_decode_subbytes : decodeUop 0x100 = .ok .subbytes := by decide
theorem test_decode_shiftrows : decodeUop 0x140 = .ok .shiftrows := by decide
theorem test_decode_mixcolumns : decodeUop 0x180 = .ok .mixcolumns := by decide
theorem test_decode_addroundkey : decodeUop 0x1ce = .ok (.addroundkey 14) := by decide
theorem test_decode_ststate : decodeUop 0x200 = .ok .ststate := by decide
theorem test_decode_fbload : decodeUop 0x240 = .ok .fbload := by decide
theorem test_decode_ofbxor : decodeUop 0x281 = .ok (.ofbxor 1) ∧ decodeUop 0x290 = .ok (.ofbxor 16) := by
  decide
theorem test_decode_fbupdate : decodeUop 0x2c0 = .ok .fbupdate := by decide
theorem test_decode_reserved : decodeUop 0x000 = .error .reservedCode ∧
    decodeUop 0x300 = .error .reservedCode ∧ decodeUop 0x3ff = .error .reservedCode ∧
    decodeUop 0x041 = .error .reservedBits ∧ decodeUop 0x0c2 = .error .reservedBits ∧
    decodeUop 0x1d0 = .error .reservedBits ∧ decodeUop 0x2a0 = .error .reservedBits := by decide

/-- The first words and the last words of the program of P5, and its length. -/
theorem test_program_ofbchunk : (chunkProgram (hex 5 0x6bc1bee22e)).take 7 =
      [0x0c1, 0x1c0, 0x100, 0x140, 0x180, 0x1c1, 0x100] ∧
    (chunkProgram (hex 5 0x6bc1bee22e)).drop 52 =
      [0x180, 0x1cd, 0x100, 0x140, 0x1ce, 0x285, 0x2c0] ∧
    (chunkProgram (hex 5 0x6bc1bee22e)).length = 59 := by decide

/-! ## Field primitives (V2) -/

theorem test_xtime : [0x00, 0x01, 0x7f, 0x80, 0xff, 0x8d, 0x57, 0xae].map xtime =
    [0x00, 0x02, 0xfe, 0x1b, 0xe5, 0x01, 0xae, 0x47] := by decide
theorem test_gmul : gmul 0x57 0x83 = 0xc1 ∧ gmul 0x57 0x13 = 0xfe ∧ gmul 0x53 0xca = 0x01 := by decide
theorem test_sbox : [0x00, 0x01, 0x52, 0x53, 0x63, 0x7f, 0x80, 0xff].map sbox =
    [0x63, 0x7c, 0x00, 0xed, 0xfb, 0xd2, 0xcd, 0x16] := by decide
theorem test_subWord : subWord 0xcf4f3c09 = 0x8a84eb01 ∧ subWord 0x00010253 = 0x637c77ed := by decide
theorem test_rotWord : rotWord 0x09cf4f3c = 0xcf4f3c09 ∧ rotWord 0x80000000 = 0x00000080 := by decide
theorem test_rcon : (List.range 10).map rcon =
    [0x01000000, 0x02000000, 0x04000000, 0x08000000, 0x10000000, 0x20000000, 0x40000000, 0x80000000,
      0x1b000000, 0x36000000] := by decide

/-! ## One step of each instruction -/

/-- V4: the checkpoints of the schedule, and the status byte of V9 row 8. -/
theorem test_keyexp : (nextOf (step (offering [0x01 :: 0x20 :: hex 32 keyV4] State.reset))).map
      (fun t => (t.w[8], t.w[12], t.w[59], t.status)) =
    some (0xa573c29f, 0x1651a8cd, 0x6d68de36, 0x08) := by decide +kernel
/-- V8: a 31-byte key just out of reset. -/
theorem test_keyexp_short : answer (step (offering [0x01 :: 0x1f :: List.replicate 31 0] State.reset)) =
    some [0x01] := by decide +kernel
/-- V5a: the FIPS-197 block under the schedule V4. -/
theorem test_encblk :
    answer (step (offering [0x02 :: 0x10 :: hex 16 0x00112233445566778899aabbccddeeff]
      (sample (expandInto (key keyV4) zeroW) (block 0) (block 0) false))) =
    some (0x00 :: hex 16 0x8ea2b7ca516745bfeafc49904b496089) := by decide +kernel
/-- V9 row 1: no schedule yet. -/
theorem test_encblk_noSchedule :
    (answer (step (offering [0x02 :: 0x10 :: List.replicate 16 0] State.reset)),
      statusAfter (step (offering [0x02 :: 0x10 :: List.replicate 16 0] State.reset))) =
    (some [0x04], some 0x04) := by decide +kernel
/-- V1: the known-answer vector. -/
theorem test_stream :
    answer (step (offering
      [0x03 :: 0x20 :: (hex 32 keyV1 ++ 0x10 :: (hex 16 ivV1 ++ hex 16 plainV1))] State.reset)) =
    some (0x00 :: hex 16 0xdc7e84bfda79164b7ecd8486985d3860) := by decide +kernel
/-- V3c, n = 17: a second block for one byte, and the whole of `K_1` in `FB`. -/
theorem test_stream_short_tail :
    (nextOf (exec (.stream (hex 32 keyV1) (hex 16 ivV1) (hex 17 0x6bc1bee22e409f96e93d7e117393172aae))
      State.reset)).map (fun t => (t.this.responses, t.this.fb)) =
    some ([0x00 :: hex 17 0xdc7e84bfda79164b7ecd8486985d38604f],
      block 0xe1c656305ed1a7a6563805746fe03edc) := by decide +kernel
/-- P3: OFBINIT loads the IV. -/
theorem test_ofbinit :
    (nextOf (step (offering [0x04 :: 0x10 :: hex 16 ivV1] (sample zeroW (block 0) (block 0) false)))).map
      (fun t => (t.this.fb, t.this.responses, t.status)) =
    some (block ivV1, [[0x00]], 0x18) := by decide +kernel
/-- V3d step 1 and V1b: a short chunk, and the whole keystream block in `FB`. -/
theorem test_ofbchunk :
    (nextOf (step (offering [0x05 :: hex 5 0x6bc1bee22e]
      (sample (expandInto (key keyV1) zeroW) (block 0) (block ivV1) true)))).map
      (fun t => (t.this.responses, t.this.fb)) =
    some ([0x00 :: hex 5 0xdc7e84bfda], block 0xb7bf3a5df43989dd97f0fa97ebce2f4a) := by decide +kernel
/-- V9 row 9: a schedule, but no stream. -/
theorem test_ofbchunk_noStream :
    (answer (step (offering [[0x05, 0xaa]] (sample zeroW (block 0) (block 0) false))),
      statusAfter (step (offering [[0x05, 0xaa]] (sample zeroW (block 0) (block 0) false)))) =
    (some [0x05], some 0x0d) := by decide +kernel
/-- R131's example. -/
theorem test_ksload :
    (nextOf (exec .ksload (State.reset.setWork { Work.none with key := key keyV1 }))).map
      (fun t => (t.w[0], t.w[1], t.w[7], t.w[8])) =
    some (0x603deb10, 0x15ca71be, 0x0914dff4, 0x00000000) := by decide
/-- R132's example for i = 8: W[8] from W[7] and W[0]. -/
theorem test_ksword_8 :
    (nextOf (exec (.ksword 8) (sample (loadKeyWords (key keyV1) zeroW) (block 0) (block 0) false))).map
      (fun t => t.w[8]) = some 0x9ba35411 := by decide
/-- R132's example for i = 12: W[12] from W[11] and W[4]. -/
theorem test_ksword_12 :
    (nextOf (exec (.ksword 12) (sample ((loadKeyWords (key keyV1) zeroW).set 11 0x2067fcde)
      (block 0) (block 0) false))).map (fun t => t.w[12]) = some 0xa8b09c1a := by decide
/-- R145: from the feedback register. -/
theorem test_ldstate : gridAfter (exec (.ldstate .feedback) (sample zeroW (block 0) (block ivV1) true)) =
    some (block ivV1) := by decide
/-- V7b. -/
theorem test_subbytes : gridAfter (exec .subbytes (sample zeroW (block ivV1) (block 0) false)) =
    some (block 0x637c777bf26b6fc53001672bfed7ab76) := by decide
/-- V7b. -/
theorem test_shiftrows : gridAfter (exec .shiftrows (sample zeroW (block ivV1) (block 0) false)) =
    some (block 0x00050a0f04090e03080d02070c01060b) := by decide
/-- V7b. -/
theorem test_mixcolumns : gridAfter (exec .mixcolumns
      (sample zeroW (block 0xdb135345f20a225c01010101c6c6c6c6) (block 0) false)) =
    some (block 0x8e4da1bc9fdc589d01010101c6c6c6c6) := by decide
/-- V7b: slice 1 is the key bytes 16 to 31. -/
theorem test_addroundkey : gridAfter (exec (.addroundkey 1)
      (sample (loadKeyWords (key keyV4) zeroW) (block 0) (block 0) false)) =
    some (block 0x101112131415161718191a1b1c1d1e1f) := by decide
theorem test_addroundkey_15 : exec (.addroundkey 15) State.reset = .refused .reservedArgument := rfl
/-- R146's example. -/
theorem test_ststate : (nextOf (exec .ststate (sample zeroW (block ivV1) (block 0) false))).map
      (fun t => t.this.work.out.bytes) = some (hex 16 ivV1) := by decide
/-- R182's example. -/
theorem test_fbload : (nextOf (exec .fbload (State.reset.setWork { Work.none with iv := block ivV1 }))).map
      (fun t => (t.this.fb, t.this.fbValid)) = some (block ivV1, true) := by decide
/-- R183's example. -/
theorem test_ofbxor : (nextOf (exec (.ofbxor 5)
      ((sample zeroW (block 0xb7bf3a5df43989dd97f0fa97ebce2f4a) (block 0) true).setWork
        { Work.none with data := hex 5 0x6bc1bee22e }))).map (fun t => t.this.work.out.bytes) =
    some (hex 5 0xdc7e84bfda) := by decide
/-- R184's example. -/
theorem test_fbupdate : fbAfter (exec .fbupdate
      (sample zeroW (block 0xb7bf3a5df43989dd97f0fa97ebce2f4a) (block ivV1) true)) =
    some (block 0xb7bf3a5df43989dd97f0fa97ebce2f4a) := by decide

/-! ## The fetch words of the opcode table -/

/-- The next step runs the instruction that `withFetchWord` places. -/
theorem test_withFetchWord_uop : ∀ w ∈ [0x040, 0x0bb, 0x0c0, 0x100, 0x140, 0x180, 0x1c0, 0x200, 0x240, 0x281, 0x2c0],
    (nextOf (step (State.reset.withFetchWord 16 w))).isSome = true := by decide
theorem test_withFetchWord_frame : [1, 2, 3, 4, 5].map
      (fun w => answer (step (State.reset.withFetchWord 8 w))) =
    [some [0x01], some [0x03], some [0x01], some [0x02], some [0x06]] := by decide
theorem test_decodeTableWord : [1, 2, 3, 4, 5].map (decodeTableWord 8) =
      [some (.keyexp []), some (.encblk []), some (.stream [] [] []), some (.ofbinit []),
        some (.ofbchunk [])] ∧
    [0x040, 0x080, 0x0c0, 0x1c0, 0x280].map (decodeTableWord 16) =
      [some .ksload, some (.ksword 0), some (.ldstate .block), some (.addroundkey 0),
        some (.ofbxor 0)] := by decide

/-! ## The step outside the instructions -/

/-- R235: with no frame the core waits. -/
theorem test_step_idle : step State.reset = .next State.reset := rfl
/-- A word no pattern of R95 matches stops the step by name. -/
theorem test_step_reserved : step (pendingWords [0x000] State.reset) = .refused .reservedWord := rfl
/-- R242: a KEYEXP beside a busy instance has no step. -/
theorem test_step_scheduleInUse :
    step (offering [0x01 :: 0x20 :: hex 32 keyV4] shared) = .refused .scheduleInUse := rfl

/-! ## Witnesses: the hypotheses of each statement can be met -/

/-- A frame that decodes, at the head of the port of the reset core. -/
theorem test_readyFor (f : List Byte) : (offering [f] State.reset).ReadyFor f [] :=
  ⟨rfl, rfl, rfl, rfl, rfl, rfl⟩

/-- A word at the sequencer of the reset core. -/
theorem test_issuing (w : UopWord) : (pendingWords [w] State.reset).Issuing w [] := ⟨rfl, rfl, rfl⟩

theorem test_witness_DecodeEncodeRoundTrip :
    (Instr.stream (List.replicate 255 0) [0x01] [0x02]).wellFormed = true ∧
    (Instr.ksword 8).wellFormed = true ∧ (Instr.ksword 59).wellFormed = true ∧
    (Instr.addroundkey 14).wellFormed = true ∧ (Instr.ofbxor 16).wellFormed = true := by decide +kernel

theorem test_witness_DecodedThingIsItsOwnEncoding :
    decode (.frame [0x03, 0x00, 0x00]) = .ok (.stream [] [] []) ∧
    decode (.uop 0x29f) = .ok (.ofbxor 31) := by decide

theorem test_witness_MalformedFrameRaisesIllegalCommand :
    (offering [[0x03, 0x00]] State.reset).ReadyFor [0x03, 0x00] [] ∧
    (offering [[0x03, 0x00]] State.reset).grain = .command ∧ malformed [0x03, 0x00] ∧
    ¬ malformed [0x03, 0x00, 0x00] ∧ malformed [] ∧ malformed [0x06] ∧ ¬ malformed [0x05] ∧
    malformed [0x01, 0x00, 0x00] ∧ malformed [0x01, 0x01] ∧ ¬ malformed [0x01, 0x00] :=
  ⟨test_readyFor _, rfl, by unfold malformed; decide, by unfold malformed; decide,
    by unfold malformed; decide, by unfold malformed; decide, by unfold malformed; decide,
    by unfold malformed; decide, by unfold malformed; decide, by unfold malformed; decide⟩

theorem test_witness_MalformedFrame_held :
    (State.reset.accept [0x06] []).resetIn = false ∧ (State.reset.accept [0x06] []).turns = [] ∧
    (State.reset.accept [0x06] []).this.work.pending = [] ∧
    (State.reset.accept [0x06] []).this.work.held = some [0x06] ∧ malformed [0x06] :=
  ⟨rfl, rfl, rfl, rfl, by unfold malformed; decide⟩

/-- OneResponseFramePerCommand, FirstFailingCheckIsReported, ErrorChangesOnlyTheErrorCode: a command that
is answered with an error. -/
theorem test_witness_command_with_error : (Instr.encblk []).isCommand = true ∧
    firstFailure (.encblk []) State.reset = .invalidBlockLength ∧
    ∃ t, exec (.encblk []) State.reset = .next t ∧ t.this.err = .invalidBlockLength :=
  ⟨rfl, rfl, _, rfl, rfl⟩

/-- OneResponseFramePerCommand, FirstFailingCheckIsReported, StreamFlagChangesOnlyByItsCommands: a command
answered with success, which sets FB_VALID. -/
theorem test_witness_command_with_success :
    (Instr.ofbinit (block ivV1).toList).isCommand = true ∧
    (sample zeroW (block 0) (block 0) false).this.fbValid = false ∧
    ∃ t, exec (.ofbinit (block ivV1).toList) (sample zeroW (block 0) (block 0) false) = .next t ∧
      t.this.err = .ok ∧ t.this.fbValid = true :=
  ⟨rfl, rfl, _, rfl, rfl, rfl⟩

/-- A check that fails before the other (FirstFailingCheckIsReported): both fail. -/
theorem test_witness_first_failure :
    firstFailure (.stream [] [] []) State.reset = .invalidKeyLength ∧
    firstFailure (.ofbchunk []) State.reset = .invalidChunkLength ∧
    firstFailure (.ofbchunk [0x00]) State.reset = .noSchedule ∧
    decodeFrame [0x07] = .error .illegalOpcode := by decide

/-- KeyexpResult, StreamResult, StreamDecryptsItsOwnOutput, StreamEqualsItsExpansion: nobody shares `W`. -/
theorem test_witness_unshared : State.reset.scheduleInUse = false ∧ State.reset.scheduleChanging = false ∧
    (hex 31 0).length ≠ 32 ∧ (hex 33 0).length ≠ 32 ∧ (hex 32 0).length = 32 ∧ (hex 15 0).length ≠ 16 := by
  decide

/-- KswordWritesOneWord at both ends of its range, KeyExpandFollowsRecurrence, KsloadLoadsKeyWords,
ScheduleSerialisedBigEndian. -/
theorem test_witness_word_indices : 8 ≤ 8 ∧ 8 < 60 ∧ 8 ≤ 59 ∧ 59 < 60 ∧ (7 < 8 ∨ 59 < 7) ∧
    (60 < 8 ∨ 59 < 60) ∧ 3 < 4 := by decide

/-- SubbytesSubstitutesEveryCell, ShiftrowsRotatesRows, FeedbackIsIvThenKeystream,
StstateStoresSerialisedState, SboxIsAffineOfInverse, ChunksAreCutAtMultiplesOfSixteen: cells, offsets. -/
theorem test_witness_cell_indices : 15 < 16 ∧ 16 ≤ 16 ∧ (0xff : Byte) ≠ 0x00 ∧
    16 * 0 < (hex 17 0).length ∧ 16 * 1 < (hex 17 0).length ∧ ¬ 16 * 2 < (hex 17 0).length := by decide

/-- AddroundkeyAddsSlice at both ends of its range. -/
theorem test_witness_slice_indices : 0 < 15 ∧ 14 < 15 ∧ ¬ 14 < 14 ∧ 14 < 15 := by decide

/-- EncblkResult, OfbinitResult, OfbchunkResult: a valid schedule, a valid stream. -/
theorem test_witness_valid_stream : (sample zeroW (block 0) (block 0) true).ksValid = true ∧
    (sample zeroW (block 0) (block 0) true).this.fbValid = true ∧
    (sample zeroW (block 0) (block 0) true).scheduleChanging = false ∧
    State.reset.ksValid = false ∧ (sample zeroW (block 0) (block 0) false).this.fbValid = false ∧
    1 ≤ (hex 1 0).length ∧ (hex 1 0).length ≤ 16 ∧ (hex 16 0).length ≤ 16 ∧ 16 < (hex 17 0).length ∧
    (hex 0 0).length < 1 ∧ (hex 16 0).length = 16 ∧ (hex 17 0).length ≠ 16 := by decide

/-- EachChunkSpendsOneKeystreamBlock: a short chunk, then a whole one. -/
theorem test_witness_chunk_sequence :
    ∀ c ∈ [hex 1 0, hex 16 0], 1 ≤ c.length ∧ c.length ≤ 16 := by decide

/-- OfbxorStoresLeadingKeystreamBytes: a chunk that just fits, one that does not, and the ends of n. -/
theorem test_witness_ofbxor :
    (State.reset.setWork { Work.none with data := hex 16 0 }).this.seq.off + 16 ≤
      (State.reset.setWork { Work.none with data := hex 16 0 }).this.work.data.length ∧
    (State.reset.setWork { Work.none with data := hex 15 0 }).this.work.data.length <
      (State.reset.setWork { Work.none with data := hex 15 0 }).this.seq.off + 16 ∧
    1 ≤ 16 ∧ 16 ≤ 16 ∧ (0 < 1 ∨ 16 < 0) ∧ (17 < 1 ∨ 16 < 17) := by decide

/-- StreamTransformProperties: two messages of equal length, and two states in which a STREAM answers. -/
theorem test_witness_equal_lengths : (hex 21 0).length = (hex 21 1).length ∧
    (∃ t, exec (.stream [] [] []) State.reset = .next t) ∧
    ∃ t, exec (.stream [] [] []) (sample zeroW (block 0) (block 0) true) = .next t :=
  ⟨by decide, ⟨_, rfl⟩, ⟨_, rfl⟩⟩

/-- StreamOutputIsDataXorKeystream: the first byte of the second block. -/
theorem test_witness_second_block : 16 < (hex 17 0).length ∧ 16 / 16 = 1 ∧ 16 % 16 = 0 := by decide

/-- FirstCommandAfterReset: a malformed frame. -/
theorem test_witness_malformed : malformed [] := .inl rfl

/-- OnlyKeyExpansionWritesSchedule: an instruction that changes `W`. -/
theorem test_witness_schedule_changes : ∃ t,
    exec .ksload (State.reset.setWork { Work.none with key := key keyV4 }) = .next t ∧
      t.w ≠ (State.reset.setWork { Work.none with key := key keyV4 }).w :=
  ⟨_, rfl, by decide⟩

/-- OnlyResetClearsScheduleFlag: a step with `KS_VALID = 1` and no reset. -/
theorem test_witness_schedule_flag : ∃ t, step (sample zeroW (block 0) (block 0) false) = .next t ∧
    (sample zeroW (block 0) (block 0) false).resetIn = false ∧
    (sample zeroW (block 0) (block 0) false).ksValid = true :=
  ⟨_, rfl, rfl, rfl⟩

/-- StreamFlagChangesOnlyByItsCommands: a KEYEXP clears a set flag. -/
theorem test_witness_stream_flag_cleared :
    (nextOf (exec (.keyexp (hex 32 0)) (sample zeroW (block 0) (block 0) true))).map
      (·.this.fbValid) = some false := by decide +kernel

/-- InstructionsLeaveOtherInstancesAlone: an instruction that completes beside another instance. -/
theorem test_witness_beside_peer : ∃ t, exec .subbytes shared = .next t ∧ shared.peers ≠ [] :=
  ⟨_, rfl, by decide⟩

/-- SharedScheduleNotRewrittenInUse and ScheduleNotReadWhileChanging. -/
theorem test_witness_shared : (∃ p ∈ shared.peers, p.busy = true) ∧
    (∃ p ∈ shared.peers, ∃ word ∈ p.work.pending, word.toNat / 64 = 1 ∨ word.toNat / 64 = 2) ∧
    shared.ksValid = true ∧ shared.this.fbValid = true := by decide

/-- SharedScheduleNotRewrittenInUse: beside a busy instance KSLOAD and KSWORD have no step (D21, U5), SUBBYTES
completes, and a frame is refused with IllegalCommand. -/
theorem test_witness_shared_writes : exec .ksload shared = .refused .scheduleInUse ∧
    exec (.ksword 59) shared = .refused .scheduleInUse ∧ (∃ t, exec .subbytes shared = .next t) ∧
    shared.resetIn = false ∧ shared.turns = [] ∧ (∃ t, step (offering [[0x09]] shared) = .next t) :=
  ⟨rfl, rfl, ⟨_, rfl⟩, rfl, rfl, _, rfl⟩

/-- BusyPortHoldsFramesBack: a busy core and a step. -/
theorem test_witness_busy : (State.reset.accept [0x06] [[0x05]]).this.busy = true ∧
    (State.reset.accept [0x06] [[0x05]]).resetIn = false ∧
    (State.reset.accept [0x06] [[0x05]]).turns = [] ∧
    ∃ t, step (State.reset.accept [0x06] [[0x05]]) = .next t :=
  ⟨rfl, rfl, rfl, _, rfl⟩

/-- StepPerformsDecodedFrame, and the frame of MicroOperationsPerformTheCommand. -/
theorem test_witness_StepPerformsDecodedFrame :
    (offering [[0x05]] State.reset).ReadyFor [0x05] [] ∧ (offering [[0x05]] State.reset).grain = .command ∧
    decodeFrame [0x05] = .ok (.ofbchunk []) ∧ ∃ t, step (offering [[0x05]] State.reset) = .next t :=
  ⟨test_readyFor _, rfl, rfl, _, rfl⟩

/-- The waiting clause of StepPerformsDecodedFrame. -/
theorem test_witness_waiting : State.reset.resetIn = false ∧ State.reset.turns = [] ∧
    State.reset.this.work.held = none ∧ State.reset.this.work.pending = [] ∧
    State.reset.this.offered = [] := ⟨rfl, rfl, rfl, rfl, rfl⟩

/-- StepIssuesDecodedMicroOperation: a word that completes, one that is refused, one that faults. -/
theorem test_witness_StepIssuesDecodedMicroOperation :
    (pendingWords [0x100] State.reset).Issuing 0x100 [] ∧ decodeUop 0x100 = .ok .subbytes ∧
    (∃ t, exec .subbytes (pendingWords [0x100] State.reset) = .next t) ∧
    (pendingWords [0x080] State.reset).Issuing 0x080 [] ∧ decodeUop 0x080 = .ok (.ksword 0) ∧
    exec (.ksword 0) (pendingWords [0x080] State.reset) = .refused .reservedArgument ∧
    (pendingWords [0x281] State.reset).Issuing 0x281 [] ∧ decodeUop 0x281 = .ok (.ofbxor 1) ∧
    exec (.ofbxor 1) (pendingWords [0x281] State.reset) = .fault .dataOperandRange :=
  ⟨test_issuing _, rfl, ⟨_, rfl⟩, test_issuing _, rfl, rfl, test_issuing _, rfl, rfl⟩

/-- StepIssuesDecodedMicroOperation: words left, and the last word of a command (R185: OFBINIT answers
0x00). -/
theorem test_witness_StepIssues_clauses :
    (pendingWords [0x100, 0x140] State.reset).Issuing 0x100 [0x140] ∧
    (∃ t, exec .subbytes (pendingWords [0x100, 0x140] State.reset) = .next t) ∧
    (State.reset.begin { Work.none with running := some .ofbinit, pending := ofbinitProgram }).Issuing 0x240 [] ∧
    decodeUop 0x240 = .ok .fbload ∧
    answer (step (State.reset.begin
      { Work.none with running := some .ofbinit, pending := ofbinitProgram })) = some [0x00] :=
  ⟨⟨rfl, rfl, rfl⟩, ⟨_, rfl⟩, ⟨rfl, rfl, rfl⟩, rfl, rfl⟩

/-- CipherCountersFollowTheRounds: the words of `CIPHER(1)`, and one more, pending from idle. -/
theorem test_witness_CipherCountersFollowTheRounds :
    ((pendingWords (cipherProgram .feedback ++ [putUop 0xB 0]) State.reset).setSeq
        (Seq.idle.toward (cipherProgram .feedback))).this.work.pending =
      cipherProgram .feedback ++ putUop 0xB 0 :: [] ∧
    ((pendingWords (cipherProgram .feedback ++ [putUop 0xB 0]) State.reset).setSeq
        (Seq.idle.toward (cipherProgram .feedback))).this.seq =
      Seq.idle.toward (cipherProgram .feedback) := ⟨rfl, rfl⟩

/-- KeyExpansionCountersFollowTheWords: the words of a key expansion, and one more, pending from idle. -/
theorem test_witness_KeyExpansionCountersFollowTheWords :
    ((pendingWords (keyExpandProgram ++ [putUop 0x9 0]) State.reset).setSeq
        (Seq.idle.toward keyExpandProgram)).this.work.pending =
      keyExpandProgram ++ putUop 0x9 0 :: [] ∧
    ((pendingWords (keyExpandProgram ++ [putUop 0x9 0]) State.reset).setSeq
        (Seq.idle.toward keyExpandProgram)).this.seq = Seq.idle.toward keyExpandProgram ∧
    ((pendingWords (keyExpandProgram ++ [putUop 0x9 0]) State.reset).setSeq
        (Seq.idle.toward keyExpandProgram)).scheduleInUse = false := ⟨rfl, rfl, rfl⟩

/-- ResetEventClearsFlags: the reset input asserted. -/
theorem test_witness_reset_input : (State.mk zeroW true CoreInstance.reset [busyPeer] [] .command true 0).resetIn
    = true := rfl

/-- ResetStateAsTabulated: the default number of instances, and two. -/
theorem test_witness_instances : 1 ≤ Config.nInstances ∧ (State.resetOf 2).peers.length = 1 := by decide

/-- The reset state rests, for the statements about what holds between commands. -/
theorem test_witness_BetweenCommands : State.reset.BetweenCommands ∧
    ∃ t, step State.reset = .next t := by
  refine ⟨⟨rfl, ?_, ?_, ?_⟩, _, rfl⟩
  · intro c hc
    obtain rfl : c = CoreInstance.reset := by simpa [State.reset, State.resetOf] using hc
    exact ⟨rfl, rfl, rfl⟩
  · intro h; cases h
  · intro c hc h
    obtain rfl : c = CoreInstance.reset := by simpa [State.reset, State.resetOf] using hc
    cases h

/-- StepKeepsCountersAndResultSound: a state inside a command. -/
theorem test_witness_Sound : (pendingWords [0x100] State.reset).Sound ∧
    ∃ t, step (pendingWords [0x100] State.reset) = .next t := by
  refine ⟨?_, _, rfl⟩
  intro c hc
  obtain rfl : c = (pendingWords [0x100] State.reset).this := by
    simpa [pendingWords, State.reset, State.resetOf] using hc
  exact ⟨by unfold Seq.legal; decide, by decide, by decide, by decide, by decide⟩

/-- A frame accepted and held for validation, by the acceptance of `accept`. -/
def holding (f : List Byte) (s : State) : State := s.accept f []

/-- BusyPortHoldsFramesBack: a frame is accepted at the grain of micro-operations (`BUSY` 1, `PHASE`
VALIDATE: R31, R246), and the accepted state is sound and busy. -/
theorem test_witness_acceptance :
    (offering [[0x05]] { State.reset with grain := .microOperation }).ReadyFor [0x05] [] ∧
    (nextOf (step (offering [[0x05]] { State.reset with grain := .microOperation }))).map
      (fun t => (t.this.busy, t.this.seq)) = some (true, Seq.validating) ∧
    (holding [0x05] State.reset).Sound ∧ (holding [0x05] State.reset).this.busy = true ∧
    ∃ t, step (holding [0x05] State.reset) = .next t := by
  refine ⟨⟨rfl, rfl, rfl, rfl, rfl, rfl⟩, rfl, ?_, rfl, _, rfl⟩
  intro c hc
  obtain rfl : c = (holding [0x05] State.reset).this := by
    simpa [holding, State.accept, State.reset, State.resetOf] using hc
  exact ⟨by unfold Seq.legal; decide, by decide, by decide, by decide, by decide⟩

/-- A core busy with a command whose words `ws` are left. -/
def performing (c : CommandKind) (ws : List UopWord) : State :=
  (holding [] State.reset).setWork { Work.none with running := some c, pending := ws }

/-- A core that performs a command is sound. -/
theorem performing_sound (c : CommandKind) (ws : List UopWord) (h : ws ≠ []) : (performing c ws).Sound := by
  intro i hi
  obtain rfl : i = (performing c ws).this := by
    simpa [performing, holding, State.setWork, State.accept, State.reset, State.resetOf] using hi
  exact ⟨(by unfold Seq.legal; decide : Seq.validating.legal), rfl, ⟨fun _ => .inr rfl, fun _ => rfl⟩,
    fun hheld => (by cases hheld), fun _ => h⟩

/-- BusyPortHoldsFramesBack: a running command with words left stays busy, and with its last word answers
(R246). -/
theorem test_witness_performing :
    (performing .encblk [0x100, 0x140]).Sound ∧ (performing .encblk [0x100, 0x140]).this.busy = true ∧
    (nextOf (step (performing .encblk [0x100, 0x140]))).map
      (fun t => (t.this.busy, t.this.responses)) = some (true, []) ∧
    (performing .ofbinit ofbinitProgram).Sound ∧ (performing .ofbinit ofbinitProgram).this.busy = true ∧
    (nextOf (step (performing .ofbinit ofbinitProgram))).map
      (fun t => (t.this.busy, t.this.responses)) = some (false, [[0x00]]) :=
  ⟨performing_sound _ _ (by decide), rfl, rfl, performing_sound _ _ (by decide), rfl, rfl⟩

/-- The frame of a STREAM of 17 bytes, two chunks (R86). -/
def streamFrame : List Byte :=
  0x03 :: 0x20 :: ((block 0 ++ block 0 : Vector Byte 32).toList ++ 0x10 :: ((block 1).toList ++ hex 17 0))

/-- OutputCountersFollowTheChunks: an accepted STREAM, from its second chunk on too. -/
theorem test_witness_OutputCounters_stream :
    (holding streamFrame State.reset).resetIn = false ∧ (holding streamFrame State.reset).turns = [] ∧
    (holding streamFrame State.reset).this.work.pending = [] ∧
    (holding streamFrame State.reset).this.work.held = some streamFrame ∧
    (holding streamFrame State.reset).this.seq = Seq.validating ∧
    decodeFrame streamFrame =
      .ok (.stream (block 0 ++ block 0 : Vector Byte 32).toList (block 1).toList (hex 17 0)) ∧
    (holding streamFrame State.reset).scheduleInUse = false ∧ 16 * 1 < (hex 17 0).length :=
  ⟨rfl, rfl, rfl, rfl, rfl, by decide, rfl, by decide⟩

/-- A state with a schedule and a stream, in which a frame is held for validation. -/
def ready (f : List Byte) : State := holding f (sample zeroW (block 0) (block 0) true)

/-- OutputCountersFollowTheChunks: an accepted ENCBLK and an accepted OFBCHUNK. -/
theorem test_witness_OutputCounters_block_and_chunk :
    (∀ f, (ready f).resetIn = false ∧ (ready f).turns = [] ∧ (ready f).this.work.pending = [] ∧
      (ready f).this.work.held = some f ∧ (ready f).this.seq = Seq.validating ∧ (ready f).ksValid = true ∧
      (ready f).this.fbValid = true ∧ (ready f).scheduleChanging = false) ∧
    decodeFrame (0x02 :: 0x10 :: (block 1).toList) = .ok (.encblk (block 1).toList) ∧
    decodeFrame [0x05, 0x6b] = .ok (.ofbchunk [0x6b]) :=
  ⟨fun _ => ⟨rfl, rfl, rfl, rfl, rfl, rfl, rfl, rfl⟩, by decide, rfl⟩

/-- R31: when the last ADDROUNDKEY of a block encryption has run the sequencer comes to OFBXOR with `PHASE` =
EMIT, and `OFF` stays. -/
theorem test_output_phase :
    (nextOf (step ((pendingWords [putUop 0x7 14, putUop 0xA 1, putUop 0xB 0] State.reset).setSeq
      ⟨.cipher, 0, 14, .addroundkey, 16⟩))).map (fun t => (t.this.seq.phase, t.this.seq.off)) =
      some (.emit, 16) := rfl

/-- StreamEqualsItsExpansion: a key of a wrong length. -/
theorem test_witness_wrong_key : (List.replicate 31 (0 : Byte)).length ≠ 32 := by decide

/-- UnspecifiedContentsAreUnobservable: two machines that differ in `W`, `S` and `FB`. -/
theorem test_witness_SameValues :
    State.reset.SameValues { State.reset with
      w := Vector.replicate 60 1
      this := { CoreInstance.reset with grid := block 1, fb := block 2 } } := by
  refine ⟨rfl, ?_, ⟨rfl, ?_, rfl, rfl, rfl, rfl, rfl, rfl⟩, ?_, rfl, rfl, rfl⟩
  · intro h; cases h
  · intro h; cases h
  · exact List.Forall₂.nil

end Sys2Proof.Tests
end

