-- ==== Sys2Proof/Proofs/Chunks.lean ====
section
/-! SUPPORT. The chunks of the data (20_memory.md R58): where each is cut, and how many there are. -/

namespace Sys2Proof.Machine

/-- Chunk `n` is cut at offset `16n`, while that offset is inside the data. -/
theorem chunks_getElem? (d : List Byte) (n : Nat) :
    (chunks d)[n]? = if 16 * n < d.length then some ((d.drop (16 * n)).take 16) else none := by
  induction d using chunk_induction generalizing n with
  | nil => simp
  | step d hd ih =>
    have hpos : 0 < d.length := List.length_pos_of_ne_nil hd
    rw [chunks_of_ne_nil hd]
    cases n with
    | zero => simp [hpos]
    | succ n =>
      have hlt : 16 * n < (d.drop 16).length ↔ 16 * (n + 1) < d.length := by
        rw [List.length_drop]; omega
      have hoff : 16 + 16 * n = 16 * (n + 1) := by omega
      rw [List.getElem?_cons_succ, ih, List.drop_drop, hoff]
      simp only [hlt]

/-- One chunk for every 16 bytes begun. -/
theorem chunks_length (d : List Byte) : (chunks d).length = (d.length + 15) / 16 := by
  induction d using chunk_induction with
  | nil => rfl
  | step d hd ih =>
    have hpos : 0 < d.length := List.length_pos_of_ne_nil hd
    rw [chunks_of_ne_nil hd, List.length_cons, ih, List.length_drop]
    omega

/-- Settles O35: the cuts and the count by induction one chunk at a time, the joining by
`chunks_flatten`. -/
theorem chunksAreCutAtMultiplesOfSixteen : Obligations.ChunksAreCutAtMultiplesOfSixteen :=
  fun data => ⟨chunks_getElem? data, chunks_length data, chunks_flatten data⟩

end Sys2Proof.Machine
end

