-- ==== Sys2Proof/Proofs/Serialisation.lean ====
section
/-! SUPPORT. The bytes of a word (00_scope.md R9) and of a schedule (30_encoding.md R90). -/

namespace Sys2Proof.Machine

/-- A bit of a word put together from bytes: `b3` is the least significant byte (R9). -/
theorem wordOf_getLsbD (b0 b1 b2 b3 : Byte) (j : Nat) :
    (wordOf b0 b1 b2 b3).getLsbD j =
      if j < 8 then b3.getLsbD j
      else if j < 16 then b2.getLsbD (j - 8)
      else if j < 24 then b1.getLsbD (j - 16)
      else b0.getLsbD (j - 24) := by
  change (b0 ++ b1 ++ b2 ++ b3 : BitVec (8 + 8 + 8 + 8)).getLsbD j = _
  simp only [BitVec.getLsbD_append, Nat.sub_sub]
  grind

/-- A bit of byte `k` of a word (R9). -/
theorem byteOf_getLsbD (k : Nat) (w : Word) (j : Nat) (hj : j < 8) :
    (byteOf k w).getLsbD j = w.getLsbD (24 - 8 * k + j) := by
  simp [byteOf, hj]

/-- The byte view undoes the word view (R9). -/
@[simp] theorem byteOf_wordOf (b0 b1 b2 b3 : Byte) :
    byteOf 0 (wordOf b0 b1 b2 b3) = b0 ∧ byteOf 1 (wordOf b0 b1 b2 b3) = b1 ∧
    byteOf 2 (wordOf b0 b1 b2 b3) = b2 ∧ byteOf 3 (wordOf b0 b1 b2 b3) = b3 := by
  refine ⟨?_, ?_, ?_, ?_⟩ <;>
  · apply BitVec.eq_of_getLsbD_eq
    intro j hj
    rw [byteOf_getLsbD _ _ _ hj, wordOf_getLsbD]
    grind

/-- The bytes of a word stand in the order of their numbers. -/
theorem wordBytes_getElem? (w : Word) (k : Nat) (hk : k < 4) : (wordBytes w)[k]? = some (byteOf k w) := by
  interval_cases k <;> rfl

@[simp] theorem wordBytes_length (w : Word) : (wordBytes w).length = 4 := rfl

/-- Byte `4i + k` of words written one after another is byte `k` of word `i`. -/
theorem flatMap_wordBytes_getElem? (ws : List Word) (i k : Nat) (hk : k < 4) :
    (ws.flatMap wordBytes)[4 * i + k]? = ws[i]?.map (byteOf k) := by
  induction ws generalizing i with
  | nil => simp
  | cons w ws ih =>
    rw [List.flatMap_cons]
    cases i with
    | zero =>
      rw [List.getElem?_append_left (by simpa using hk)]
      simpa using wordBytes_getElem? w k hk
    | succ i =>
      have hoff : 4 * (i + 1) + k - (wordBytes w).length = 4 * i + k := by
        rw [wordBytes_length]; omega
      rw [List.getElem?_append_right (by rw [wordBytes_length]; omega), hoff, ih,
        List.getElem?_cons_succ]

/-- Byte `k` of word `i` of a schedule stands at offset `4i + k` (R90). -/
theorem scheduleBytes_getElem? (w : Schedule) (i : Nat) (hi : i < 60) (k : Nat) (hk : k < 4) :
    (scheduleBytes w)[4 * i + k]? = some (byteOf k w[i]) := by
  simp [scheduleBytes, flatMap_wordBytes_getElem? _ _ _ hk, hi]

/-- A schedule is 240 bytes (R89). -/
theorem scheduleBytes_length (w : Schedule) : (scheduleBytes w).length = 240 := by
  simp [scheduleBytes, List.length_flatMap]

/-- The first eight words of `KeyExpand(key)` are the key's own (R130). -/
theorem keyExpand_getElem_key (key : Key) (i : Nat) (h : i < 8) : (keyExpand key)[i] = keyWord key i := by
  rw [keyExpand_getElem, keyExpandWords_stable key 0 52 i h (Nat.zero_le _), keyExpandWords_old key i h]

/-- Byte `k` of key word `i` is byte `4i + k` of the key (R53). -/
theorem byteOf_keyWord (key : Key) (i : Nat) (hi : i < 8) (k : Nat) (hk : k < 4) :
    byteOf k (keyWord key i) = key[4 * i + k] := by
  rw [keyWord_eq key i hi]
  interval_cases k <;> simp

/-- The serialised schedule of a key begins with the key itself (R90). -/
theorem scheduleBytes_take_key (key : Key) : (scheduleBytes (keyExpand key)).take 32 = key.toList := by
  apply List.ext_getElem?
  intro j
  by_cases hj : j < 32
  · have hsplit : 4 * (j / 4) + j % 4 = j := Nat.div_add_mod j 4
    have hword : j / 4 < 8 := by omega
    have hbyte : j % 4 < 4 := by omega
    have h := scheduleBytes_getElem? (keyExpand key) (j / 4) (by omega) (j % 4) hbyte
    rw [keyExpand_getElem_key key _ hword, byteOf_keyWord key _ hword _ hbyte] at h
    simp only [hsplit] at h
    simp [List.getElem?_take_of_lt hj, h, hj]
  · simp [Nat.le_of_not_lt hj]

/-- Settles O6: the offsets by induction over the words, the key by its eight words. -/
theorem scheduleSerialisedBigEndian : Obligations.ScheduleSerialisedBigEndian :=
  ⟨scheduleBytes_getElem?, scheduleBytes_length, scheduleBytes_take_key⟩

end Sys2Proof.Machine
end

