-- ==== Sys2Proof/Proofs/WordPrimitives.lean ====
section
/-! SUPPORT. A word as its four bytes (00_scope.md R9), and the substitution and the rotation read byte by
byte (40_field_primitives.md R115, R117). -/

namespace Sys2Proof.Machine

/-- The word view undoes the byte view (R9), so that a word is known by its four bytes. -/
@[simp] theorem wordOf_byteOf (w : Word) :
    wordOf (byteOf 0 w) (byteOf 1 w) (byteOf 2 w) (byteOf 3 w) = w := by
  apply BitVec.eq_of_getLsbD_eq
  intro j hj
  rw [wordOf_getLsbD]
  grind [byteOf_getLsbD]

/-- The lanes of the substitution do not interact (R115). -/
@[simp] theorem subWord_wordOf (b0 b1 b2 b3 : Byte) :
    subWord (wordOf b0 b1 b2 b3) = wordOf (sbox b0) (sbox b1) (sbox b2) (sbox b3) := by
  simp [subWord]

/-- Bit `j` of the rotated word comes from 8 places below, and the lowest byte from the highest (R117). -/
theorem rotWord_getLsbD (w : Word) (j : Nat) (hj : j < 32) :
    (rotWord w).getLsbD j = if j < 8 then w.getLsbD (24 + j) else w.getLsbD (j - 8) := by
  simp only [rotWord, BitVec.getLsbD_or, BitVec.getLsbD_shiftLeft, BitVec.getLsbD_ushiftRight]
  by_cases h : j < 8
  · simp [h]
  · have htop : w.getLsbD (24 + j) = false := BitVec.getLsbD_of_ge _ _ (by omega)
    simp only [h, hj, htop, decide_true, decide_false, Bool.not_false,
      Bool.true_and, Bool.or_false, if_false]

/-- The most significant byte becomes the least significant one (R117). -/
@[simp] theorem rotWord_wordOf (b0 b1 b2 b3 : Byte) :
    rotWord (wordOf b0 b1 b2 b3) = wordOf b1 b2 b3 b0 := by
  apply BitVec.eq_of_getLsbD_eq
  intro j hj
  rw [rotWord_getLsbD _ _ hj]
  grind [wordOf_getLsbD]

/-- Four rotations bring every byte back to its place. -/
theorem rotWord_four (w : Word) : rotWord (rotWord (rotWord (rotWord w))) = w := by
  rw [← wordOf_byteOf w]
  simp only [rotWord_wordOf]

/-- The 32-bit mask of R117 takes nothing away from a word. -/
theorem rotWord_eq_masked (w : Word) : rotWord w = ((w <<< 8) &&& 0xFFFFFFFF) ||| (w >>> 24) := by
  have hmask : (w <<< 8) &&& 0xFFFFFFFF = w <<< 8 := BitVec.and_allOnes
  rw [hmask, rotWord]

/-- Settles O7: every clause is read off the four bytes of the word; the corner values of R115 are evaluated. -/
theorem wordPrimitivesActBytewise : Obligations.WordPrimitivesActBytewise := by
  refine ⟨fun b0 b1 b2 b3 => ?bytes, by decide, by decide, rotWord_eq_masked,
    fun b => rotWord_wordOf b b b b, wordOf_byteOf, rotWord_four⟩
  case bytes =>
    obtain ⟨h0, h1, h2, h3⟩ := byteOf_wordOf b0 b1 b2 b3
    exact ⟨h0, h1, h2, h3, rotWord_wordOf b0 b1 b2 b3, subWord_wordOf b0 b1 b2 b3⟩

end Sys2Proof.Machine
end

