-- ==== Sys2Proof/Proofs/KeySchedule.lean ====
section
/-! SUPPORT. The recurrence of `KeyExpand` on its own words (41_key_schedule.md R130), and the two
micro-operations that write `W` (R131, R132). -/

namespace Sys2Proof.Machine

/-- Word `n` of `KeyExpand` is final once the recurrence has run far enough to write it. -/
theorem keyExpand_getElem_eq_words (key : Key) {n j : Nat} (hn : n ≤ 52) (hj : j < n + 8) :
    (keyExpand key)[j] = (keyExpandWords key n).getD j 0 := by
  rw [keyExpand_getElem, keyExpandWords_stable key n 52 j hj hn]

/-- Every word after the key's own is the next word by the rule of R132. -/
theorem keyExpand_getElem_next (key : Key) (i : Nat) (hi : 8 ≤ i) (h : i < 60) :
    (keyExpand key)[i] = nextWord i (keyExpand key)[i - 1] (keyExpand key)[i - 8] := by
  obtain ⟨n, rfl⟩ : ∃ n, i = n + 8 := ⟨i - 8, by omega⟩
  have hprev := keyExpand_getElem_eq_words key (n := n) (j := n + 8 - 1) (by omega) (by omega)
  have hback := keyExpand_getElem_eq_words key (n := n) (j := n + 8 - 8) (by omega) (by omega)
  rw [hprev, hback, keyExpand_getElem_eq_words key (n := n + 1) (by omega) (by omega)]
  exact keyExpandWords_new key n

/-- Settles O12: the key's words by `keyExpand_getElem_key`, the others by `keyExpand_getElem_next`. -/
theorem keyExpandFollowsRecurrence : Obligations.KeyExpandFollowsRecurrence :=
  fun key => ⟨fun i h => (keyExpand_getElem_key key i h).trans (keyWord_eq key i h),
    keyExpand_getElem_next key⟩

/-- KSLOAD where `W` may be written (R131). -/
theorem exec_ksload_unused {s : State} (h : s.scheduleInUse = false) :
    exec .ksload s = .next (s.setW (loadKeyWords s.this.work.key s.w)) :=
  writeSchedule_unused h _

/-- KSWORD in its range, where `W` may be written (R132). -/
theorem exec_ksword_unused {s : State} {i : Nat} (hi : 8 ≤ i) (hi' : i < 60)
    (h : s.scheduleInUse = false) : exec (.ksword i) s = .next (s.setW (stepWord s.w i)) :=
  (if_pos ⟨hi, Nat.le_of_lt_succ hi'⟩).trans (writeSchedule_unused h _)

/-- KSWORD outside its range has no meaning (R95). -/
theorem exec_ksword_out_of_range (s : State) {i : Nat} (hi : i < 8 ∨ 59 < i) :
    exec (.ksword i) s = .refused .reservedArgument :=
  if_neg (by omega)

/-- Settles O14: the write by `exec_ksword_unused` and the words it leaves by `stepWord_getElem`. -/
theorem kswordWritesOneWord : Obligations.KswordWritesOneWord := by
  refine ⟨fun s i hi hi' hs => ⟨_, exec_ksword_unused hi hi' hs, rfl, ?written, fun j hj hne => ?kept⟩,
    fun s i => exec_ksword_out_of_range s⟩
  case written =>
    rw [State.setW_w, stepWord_getElem s.w i hi hi' i hi', if_pos rfl, nextWord]
  case kept =>
    rw [State.setW_w, stepWord_getElem s.w i hi hi' j hj, if_neg hne]

/-- Settles O13: the write by `exec_ksload_unused` and the words it leaves by `loadKeyWords_getElem`. -/
theorem ksloadLoadsKeyWords : Obligations.KsloadLoadsKeyWords := by
  refine fun s hs => ⟨_, exec_ksload_unused hs, rfl, fun i h => ?key, fun i hi h => ?kept⟩
  case key =>
    rw [State.setW_w, loadKeyWords_getElem, if_pos h, keyWord_eq _ i h]
  case kept =>
    rw [State.setW_w, loadKeyWords_getElem, if_neg (Nat.not_lt.mpr hi)]

end Sys2Proof.Machine
end

