-- ==== Sys2Proof/Proofs/MixColumn.lean ====
section
/-! SUPPORT. Doubling and the product of 40_field_primitives.md (R111, R112) are additive, so the products by
1, 2 and 3 that the MDS matrix of R151 needs come from the product by 1 alone. -/

namespace Sys2Proof.Machine

/-- Doubling is additive (R111): the reduction depends on bit 7 alone, and that bit adds. -/
theorem xtime_xor (a b : Byte) : xtime (a ^^^ b) = xtime a ^^^ xtime b := by
  unfold xtime
  rw [BitVec.shiftLeft_xor_distrib, BitVec.getLsbD_xor]
  have hred : (if a.getLsbD 7 ^^ b.getLsbD 7 then 0x1B else 0x00 : Byte) =
      (if a.getLsbD 7 then 0x1B else 0x00) ^^^ (if b.getLsbD 7 then 0x1B else 0x00) := by
    cases a.getLsbD 7 <;> cases b.getLsbD 7 <;> rfl
  rw [hred]
  ac_rfl

/-- The loop of R112 is additive in its left operand, each operand with its own partial product. -/
theorem gmulLoop_xor_left (n k : Nat) (a b c p q : Byte) :
    gmulLoop n k (a ^^^ b) c (p ^^^ q) = gmulLoop n k a c p ^^^ gmulLoop n k b c q := by
  induction n generalizing k a b p q with
  | zero => rfl
  | succ n ih =>
    simp only [gmulLoop, xtime_xor]
    cases c.getLsbD k with
    | false => exact ih ..
    | true =>
      have hswap : p ^^^ q ^^^ (a ^^^ b) = p ^^^ a ^^^ (q ^^^ b) := by ac_rfl
      simp only [if_true, hswap, ih]

/-- The loop of R112 commutes with doubling. -/
theorem gmulLoop_xtime_left (n k : Nat) (a c p : Byte) :
    gmulLoop n k (xtime a) c (xtime p) = xtime (gmulLoop n k a c p) := by
  induction n generalizing k a p with
  | zero => rfl
  | succ n ih =>
    simp only [gmulLoop]
    cases c.getLsbD k with
    | false => exact ih ..
    | true => simp only [if_true, ← xtime_xor, ih]

/-- The product is additive in its left operand. -/
theorem gmul_xor_left (a b c : Byte) : gmul (a ^^^ b) c = gmul a c ^^^ gmul b c :=
  gmulLoop_xor_left 8 0 a b c 0 0

/-- Doubling the left operand doubles the product. -/
theorem gmul_xtime_left (a c : Byte) : gmul (xtime a) c = xtime (gmul a c) :=
  gmulLoop_xtime_left 8 0 a c 0

/-- The doublings of 1 run through the bits of a byte, so the loop puts `a` together again. -/
theorem gmul_one_left (a : Byte) : gmul 1 a = a := by
  revert a
  decide

/-- The product by 2 is one doubling. -/
theorem gmul_two_left (a : Byte) : gmul 2 a = xtime a :=
  (gmul_xtime_left 1 a).trans (congrArg xtime (gmul_one_left a))

/-- The product by 3 is one doubling and one addition. -/
theorem gmul_three_left (a : Byte) : gmul 3 a = xtime a ^^^ a := by
  have h : gmul (2 ^^^ 1) a = gmul 2 a ^^^ gmul 1 a := gmul_xor_left 2 1 a
  rwa [gmul_two_left, gmul_one_left] at h

/-- Settles O11: with the products by 1, 2 and 3 known and doubling additive, each row is one sum in two
orders; the sum `t` of R149 holds the row's own byte, which cancels. -/
theorem mixColumnIsMatrixProduct : Obligations.MixColumnIsMatrixProduct := by
  intro a0 a1 a2 a3
  simp only [gmul_one_left, gmul_two_left, gmul_three_left, mixColumn, xtime_xor]
  refine ⟨?_, ?_, ?_, ?_⟩ <;> grind

end Sys2Proof.Machine
end

