-- ==== Sys2Proof/Proofs/StateTransforms.lean ====
section
/-! SUPPORT. The six micro-operations on the State grid (42_state_transforms.md): each one's next state, and
what it leaves in the cells or in the result. -/

namespace Sys2Proof.Machine

/-- Settles O17: every cell of `S` is the source's byte at the same flat index (R22). -/
theorem ldstateLoadsColumnMajor : Obligations.LdstateLoadsColumnMajor :=
  fun s src => ⟨_, execLdstate_eq src s, rfl, fun _ _ => rfl⟩

/-- A block written at offset 0 lies at offsets 0 to 15; every other offset is untouched (R51). -/
theorem Memory.read_write_block (m : Memory) (b : Block) (a : Nat) :
    (m.write 0 b.toList).read a = if h : a < 16 then some b[a] else m.read a := by
  rw [Memory.read_write]
  by_cases h : a < 16 <;> simp [h]

/-- Settles O18: the offsets of the result by `Memory.read_write_block`. -/
theorem ststateStoresSerialisedState : Obligations.StstateStoresSerialisedState := by
  refine ⟨fun s => ⟨_, rfl, rfl, fun r c => ?stored, fun a ha => ?kept⟩,
    fun s => ⟨_, _, rfl, rfl, fun i h => ?loaded⟩⟩
  case stored =>
    exact (Memory.read_write_block _ _ _).trans (dif_pos (by omega))
  case kept =>
    exact (Memory.read_write_block _ _ _).trans (dif_neg (Nat.not_lt.mpr ha))
  case loaded =>
    exact (Memory.read_write_block _ _ _).trans (dif_pos h)

/-- Substituting byte by byte commutes with moving the bytes (R147). -/
theorem subBytes_shiftRows (g : Block) : subBytes (shiftRows g) = shiftRows (subBytes g) := by
  apply grid_ext
  intro r c
  rw [cell_subBytes, cell_shiftRows, cell_shiftRows, cell_subBytes]

/-- Settles O19: the cells by `subBytes_getElem`, the order by `subBytes_shiftRows`. -/
theorem subbytesSubstitutesEveryCell : Obligations.SubbytesSubstitutesEveryCell :=
  ⟨fun s => ⟨_, rfl, rfl, subBytes_getElem s.this.grid⟩, subBytes_shiftRows⟩

/-- Settles O21: the cells by `cell_mixColumns`, whose every operand is an old cell. -/
theorem mixcolumnsMixesEachColumn : Obligations.MixcolumnsMixesEachColumn :=
  fun s => ⟨_, rfl, rfl, cell_mixColumns s.this.grid⟩

/-- Adding the same words twice adds nothing, whatever the slice. -/
theorem addRoundKey_addRoundKey (w : Schedule) (k : Nat) (g : Block) :
    addRoundKey w k (addRoundKey w k g) = g := by
  apply Vector.ext
  intro j hj
  simp [addRoundKey]

/-- ADDROUNDKEY in its range (R152). -/
theorem exec_addroundkey {k : Nat} (hk : k ≤ 14) (s : State) :
    exec (.addroundkey k) s = .next (s.setGrid (addRoundKey s.w k s.this.grid)) :=
  if_pos hk

/-- ADDROUNDKEY outside its range has no meaning (R95). -/
theorem exec_addroundkey_out_of_range {k : Nat} (hk : 14 < k) (s : State) :
    exec (.addroundkey k) s = .refused .reservedArgument :=
  if_neg (Nat.not_le.mpr hk)

/-- Settles O22: the addition by `exec_addroundkey`, and the cells it leaves by `cell_addRoundKey`. -/
theorem addroundkeyAddsSlice : Obligations.AddroundkeyAddsSlice :=
  ⟨fun s k hk => ⟨_, exec_addroundkey (Nat.le_of_lt_succ hk) s, rfl,
      cell_addRoundKey s.w k hk s.this.grid⟩,
    addRoundKey_addRoundKey, fun s _ hk => exec_addroundkey_out_of_range hk s⟩

end Sys2Proof.Machine
end

