-- ==== Sys2Proof/Proofs/BlockEncryptor.lean ====
section
/-! SUPPORT. ENCBLK (43_block_encryptor.md R167): its checks in the order of R215, and what it answers when
each is the first to fail and when none fails. -/

namespace Sys2Proof.Machine

/-- ENCBLK accepts 16 bytes under a valid schedule. -/
theorem checkEncblk_toList {s : State} (hk : s.ksValid = true) (b : Block) :
    checkEncblk b.toList s = .ok b := by
  simp [checkEncblk, exactly_toList, hk]

/-- The length is checked first, whatever the schedule. -/
theorem checkEncblk_wrong_length {block : List Byte} (h : block.length ≠ 16) (s : State) :
    checkEncblk block s = .error .invalidBlockLength := by
  simp [checkEncblk, exactly_eq_none h]

/-- A block of the right length fails on the schedule. -/
theorem checkEncblk_no_schedule {block : List Byte} (h : block.length = 16) {s : State}
    (hk : s.ksValid = false) : checkEncblk block s = .error .noSchedule := by
  obtain ⟨b, rfl⟩ := exists_toList h
  simp [checkEncblk, exactly_toList, hk]

/-- ENCBLK whose checks pass, while no other instance is rewriting `W`. -/
theorem exec_encblk_accepted {block : List Byte} {b : Block} {s : State}
    (h : checkEncblk block s = .ok b) (hc : s.scheduleChanging = false) :
    exec (.encblk block) s =
      .next ((s.setGrid (encryptBlock b s.w)).respond .ok (encryptBlock b s.w).toList) := by
  change execEncblk block s = _
  simp [execEncblk, h, hc]

/-- ENCBLK with a failing check raises that check's error. -/
theorem exec_encblk_rejected {block : List Byte} {e : ResultCode} {s : State}
    (h : checkEncblk block s = .error e) : exec (.encblk block) s = .next (s.raise e) := by
  change execEncblk block s = _
  simp [execEncblk, h]

/-- What a successful command that leaves `g` in `S` changes, field by field. -/
theorem State.respond_setGrid (s : State) (g : Block) (p : List Byte) :
    (s.setGrid g).respond .ok p = { s with this := { s.this with
      grid := g, err := .ok, busy := false, seq := Seq.idle, work := Work.none
      responses := s.this.responses ++ [0x00 :: p] } } :=
  rfl

/-- Settles O25: the checks by `checkEncblk_toList`, `checkEncblk_wrong_length` and
`checkEncblk_no_schedule`, the next states by `exec_encblk_accepted`, written out by `State.respond_setGrid`,
and `exec_encblk_rejected`. -/
theorem encblkResult : Obligations.EncblkResult :=
  ⟨fun s block hk hc => (exec_encblk_accepted (checkEncblk_toList hk block) hc).trans
      (congrArg _ (State.respond_setGrid s _ _)),
    fun s _ h => exec_encblk_rejected (checkEncblk_wrong_length h s),
    fun _ _ h hk => exec_encblk_rejected (checkEncblk_no_schedule h hk)⟩

end Sys2Proof.Machine
end

