-- ==== Sys2Proof/Proofs/CipherProgram.lean ====
section
/-! SUPPORT. Runs of micro-operation words (00_scope.md R10), and what the words of `CIPHER` compute
(43_block_encryptor.md R165, R166). -/

namespace Sys2Proof.Machine

/-- SUBBYTES on the grid (R147). -/
theorem exec_subbytes (s : State) : exec .subbytes s = .next (s.setGrid (subBytes s.this.grid)) := rfl

/-- SHIFTROWS on the grid (R148). -/
theorem exec_shiftrows (s : State) : exec .shiftrows s = .next (s.setGrid (shiftRows s.this.grid)) := rfl

/-- MIXCOLUMNS on the grid (R150). -/
theorem exec_mixcolumns (s : State) : exec .mixcolumns s = .next (s.setGrid (mixColumns s.this.grid)) := rfl

/-- Of two writes of `S` the second stands. -/
@[simp] theorem State.setGrid_setGrid (s : State) (g g' : Block) : (s.setGrid g).setGrid g' = s.setGrid g' :=
  rfl

/-- Writing to `S` what stands there changes nothing. -/
@[simp] theorem State.setGrid_self (s : State) : s.setGrid s.this.grid = s := rfl

/-- A run begins with the micro-operation its first word names. -/
theorem execWords_cons {word : UopWord} {i : Instr} {s t : State} (hw : decodeUop word = .ok i)
    (hi : exec i s = .next t) (ws : List UopWord) : execWords (word :: ws) s = execWords ws t := by
  simp only [execWords, hw, hi]

/-- The four words of a full round make the round of R165, whatever follows them. -/
theorem execWords_roundProgram {r : Nat} (hr : r ≤ 14) (ws : List UopWord) (s : State) :
    execWords (roundProgram r ++ ws) s = execWords ws (s.setGrid (fullRound s.w s.this.grid r)) := by
  simp only [roundProgram, List.cons_append, List.nil_append]
  rw [execWords_cons decodeUop_subbytes (exec_subbytes s),
    execWords_cons decodeUop_shiftrows (exec_shiftrows _),
    execWords_cons decodeUop_mixcolumns (exec_mixcolumns _),
    execWords_cons (decodeUop_addroundkey r (Nat.lt_succ_of_le hr)) (exec_addroundkey hr _)]
  simp [fullRound]

/-- Full rounds one after another fold over their slices. -/
theorem execWords_rounds {rs : List Nat} (hrs : ∀ r ∈ rs, r ≤ 14) (ws : List UopWord) (s : State) :
    execWords (rs.flatMap roundProgram ++ ws) s =
      execWords ws (s.setGrid (rs.foldl (fullRound s.w) s.this.grid)) := by
  induction rs generalizing s with
  | nil => rfl
  | cons r rs ih =>
    obtain ⟨hr, hrs⟩ := List.forall_mem_cons.1 hrs
    rw [List.flatMap_cons, List.append_assoc, execWords_roundProgram hr, ih hrs]
    simp

/-- The words of `CIPHER(src)` leave in `S` the encryption of what LDSTATE loads from `src`, and change
nothing else, whatever follows them (R166). -/
theorem execWords_cipherProgram {src : LoadSource} {b : Block} {s : State}
    (hload : exec (.ldstate src) s = .next (s.setGrid b)) (ws : List UopWord) :
    execWords (cipherProgram src ++ ws) s = execWords ws (s.setGrid (encryptBlock b s.w)) := by
  have hrounds : ∀ r ∈ List.range' 1 13, r ≤ 14 := by decide
  simp only [cipherProgram, List.append_assoc, List.cons_append, List.nil_append]
  rw [execWords_cons (decodeUop_ldstate src) hload,
    execWords_cons (decodeUop_addroundkey 0 (by decide)) (exec_addroundkey (by decide) _),
    execWords_rounds hrounds, execWords_cons decodeUop_subbytes (exec_subbytes _),
    execWords_cons decodeUop_shiftrows (exec_shiftrows _),
    execWords_cons (decodeUop_addroundkey 14 (by decide)) (exec_addroundkey (by decide) _)]
  simp [encryptBlock]

end Sys2Proof.Machine
end

