-- ==== Sys2Proof/Proofs/OfbStream.lean ====
section
/-! SUPPORT. The OFB stream (44_ofb_stream.md): the feedback register (R182, R184), OFBCHUNK (R186), and the
output of `StreamTransform` byte by byte (R180). -/

namespace Sys2Proof.Machine

/-- LDSTATE from the feedback register (R145). -/
theorem exec_ldstate_feedback (s : State) : exec (.ldstate .feedback) s = .next (s.setGrid s.this.fb) := rfl

/-- FBUPDATE feeds back what stands in `S` (R184). -/
theorem exec_fbupdate (s : State) : exec .fbupdate s = .next (s.setFb s.this.grid) := rfl

/-- After `CIPHER(1)`, FBUPDATE feeds back the whole keystream block (R184). -/
theorem execWords_cipher_fbupdate (s : State) :
    execWords (cipherProgram .feedback ++ [putUop 0xB 0]) s =
      .next ((s.setGrid (encryptBlock s.this.fb s.w)).setFb (encryptBlock s.this.fb s.w)) := by
  rw [execWords_cipherProgram (exec_ldstate_feedback s),
    execWords_cons decodeUop_fbupdate (exec_fbupdate _)]
  rfl

/-- Settles O26: FBLOAD and FBUPDATE are one write each; the keystream block by
`execWords_cipher_fbupdate`. -/
theorem feedbackIsIvThenKeystream : Obligations.FeedbackIsIvThenKeystream :=
  ⟨fun _ => ⟨_, rfl, rfl, fun _ _ => rfl⟩, fun s => ⟨_, exec_fbupdate s, rfl, fun _ _ => rfl⟩,
    execWords_cipher_fbupdate⟩

/-- Byte `j` of a chunk meets byte `j` of the keystream block (R183). -/
theorem xorChunk_getElem? (chunk : List Byte) (ks : Block) (j : Nat) (hj : j < chunk.length)
    (h16 : j < 16) : (xorChunk chunk ks)[j]? = some (chunk[j] ^^^ ks[j]) := by
  simp [xorChunk, hj, h16]

/-- The checks of OFBCHUNK pass for a chunk of a valid stream under a valid schedule. -/
theorem checkOfbchunk_valid {data : List Byte} {s : State} (h1 : 1 ≤ data.length)
    (h16 : data.length ≤ 16) (hk : s.ksValid = true) (hf : s.this.fbValid = true) :
    checkOfbchunk data s = .ok () :=
  (if_neg (by omega)).trans ((if_neg (by simp [hk])).trans (if_neg (by simp [hf])))

/-- The length of the chunk is checked first. -/
theorem checkOfbchunk_wrong_length {data : List Byte} (h : data.length < 1 ∨ 16 < data.length)
    (s : State) : checkOfbchunk data s = .error .invalidChunkLength :=
  if_pos h

/-- A chunk of the right length fails on the schedule, whether or not the stream is valid. -/
theorem checkOfbchunk_no_schedule {data : List Byte} {s : State} (h1 : 1 ≤ data.length)
    (h16 : data.length ≤ 16) (hk : s.ksValid = false) : checkOfbchunk data s = .error .noSchedule :=
  (if_neg (by omega)).trans (if_pos hk)

/-- Under a valid schedule it fails on the stream. -/
theorem checkOfbchunk_no_stream {data : List Byte} {s : State} (h1 : 1 ≤ data.length)
    (h16 : data.length ≤ 16) (hk : s.ksValid = true) (hf : s.this.fbValid = false) :
    checkOfbchunk data s = .error .noStream :=
  (if_neg (by omega)).trans ((if_neg (by simp [hk])).trans (if_pos hf))

/-- OFBCHUNK whose checks pass, while no other instance is rewriting `W`. -/
theorem exec_ofbchunk_accepted {data : List Byte} {s : State} (h : checkOfbchunk data s = .ok ())
    (hc : s.scheduleChanging = false) :
    exec (.ofbchunk data) s = .next (((s.setGrid (encryptBlock s.this.fb s.w)).setFb
      (encryptBlock s.this.fb s.w)).respond .ok (xorChunk data (encryptBlock s.this.fb s.w))) := by
  change execOfbchunk data s = _
  simp [execOfbchunk, h, hc]

/-- OFBCHUNK with a failing check raises that check's error. -/
theorem exec_ofbchunk_rejected {data : List Byte} {e : ResultCode} {s : State}
    (h : checkOfbchunk data s = .error e) : exec (.ofbchunk data) s = .next (s.raise e) := by
  change execOfbchunk data s = _
  simp [execOfbchunk, h]

/-- What a successful command that leaves `g` in `S` and `b` in `FB` changes, field by field. -/
theorem State.respond_setFb_setGrid (s : State) (g b : Block) (p : List Byte) :
    ((s.setGrid g).setFb b).respond .ok p = { s with this := { s.this with
      grid := g, fb := b, err := .ok, busy := false, seq := Seq.idle, work := Work.none
      responses := s.this.responses ++ [0x00 :: p] } } :=
  rfl

/-- Settles O29: the output byte by byte by `xorChunk_getElem?`, the next states by
`exec_ofbchunk_accepted`, written out by `State.respond_setFb_setGrid`, and `exec_ofbchunk_rejected`, each
under its checks in the order of R215. -/
theorem ofbchunkResult : Obligations.OfbchunkResult :=
  ⟨fun s data h1 h16 hk hf hc => ⟨xorChunk data (encryptBlock s.this.fb s.w),
      (xorChunk_length _ _).trans (Nat.min_eq_left h16), xorChunk_getElem? _ _,
      (exec_ofbchunk_accepted (checkOfbchunk_valid h1 h16 hk hf) hc).trans
        (congrArg _ (State.respond_setFb_setGrid s _ _ _))⟩,
    fun s _ h => exec_ofbchunk_rejected (checkOfbchunk_wrong_length h s),
    fun _ _ h1 h16 hk => exec_ofbchunk_rejected (checkOfbchunk_no_schedule h1 h16 hk),
    fun _ _ h1 h16 hk hf => exec_ofbchunk_rejected (checkOfbchunk_no_stream h1 h16 hk hf)⟩

/-- Byte `m` of the bytes of the blocks `K 0, K 1, …`, written one after another. -/
def byteOfBlocks (K : Nat → Block) (m : Nat) : Byte := (K (m / 16))[m % 16]'(Nat.mod_lt _ (by decide))

/-- The bytes after the first block are those of the later blocks. -/
theorem byteOfBlocks_add_sixteen (K : Nat → Block) (m : Nat) :
    byteOfBlocks K (m + 16) = byteOfBlocks (fun n => K (n + 1)) m := by
  simp [byteOfBlocks]

/-- A chunk alone meets the bytes of the first block. -/
theorem xorChunk_eq_mapIdx (K : Nat → Block) {chunk : List Byte} (h : chunk.length ≤ 16) :
    xorChunk chunk (K 0) = chunk.mapIdx fun m b => b ^^^ byteOfBlocks K m := by
  apply List.ext_getElem
  · simp [h]
  · intro j hj hj'
    have hlt : j < 16 := by simp at hj; omega
    simp [xorChunk, byteOfBlocks, Nat.mod_eq_of_lt hlt, Nat.div_eq_of_lt hlt]

/-- Chunk by chunk, each with its own block, is byte by byte with the blocks written one after another:
only the last chunk can be short (R58), so chunk `n` begins at byte `16n`. -/
theorem flatten_xorChunk_chunks (K : Nat → Block) (data : List Byte) :
    ((chunks data).mapIdx fun n c => xorChunk c (K n)).flatten =
      data.mapIdx fun m b => b ^^^ byteOfBlocks K m := by
  induction data using chunk_induction generalizing K with
  | nil => rfl
  | step d hd ih =>
    have hjoin := List.mapIdx_append (xs := d.take 16) (ys := d.drop 16)
      (f := fun m b => b ^^^ byteOfBlocks K m)
    rw [List.take_append_drop] at hjoin
    rw [chunks_of_ne_nil hd, List.mapIdx_cons, List.flatten_cons, ih fun n => K (n + 1), hjoin,
      xorChunk_eq_mapIdx K (by simp)]
    congr 1
    by_cases hlast : d.length ≤ 16
    · rw [List.drop_of_length_le hlast]; rfl
    · have hfull : (d.take 16).length = 16 := by simp; omega
      simp only [hfull, byteOfBlocks_add_sixteen]

/-- The output of `StreamTransform` is the data with the keystream added byte by byte (R180). -/
theorem streamTransform_eq_mapIdx (key : Key) (iv : Block) (data : List Byte) :
    streamTransform key iv data =
      data.mapIdx fun m b => b ^^^ byteOfBlocks (keystreamBlock (keyExpand key) iv) m := by
  rw [streamTransform, streamLoop, foldl_streamChunk_out, List.nil_append, flatten_xorChunk_chunks]

/-- Settles O31: the bytes and their number are read off `streamTransform_eq_mapIdx`. -/
theorem streamOutputIsDataXorKeystream : Obligations.StreamOutputIsDataXorKeystream := by
  intro key iv data
  rw [streamTransform_eq_mapIdx]
  exact ⟨List.length_mapIdx, fun m hm => by simp [hm, byteOfBlocks]⟩

end Sys2Proof.Machine
end

