-- ==== Sys2Proof/Proofs/Exceptions.lean ====
section
/-! SUPPORT. The errors of 60_exceptions.md: a command that is answered either succeeds or raises its error
in the state it began in (R213, R214). -/

namespace Sys2Proof.Machine

/-- An answer of success leaves no error. -/
theorem err_ok_of_respond {o : Host.Outcome State Fault Refusal} {u t : State} {p : List Byte}
    (e : o = .next (u.respond .ok p)) (h : o = .next t) : t.this.err = .ok := by
  cases e.symm.trans h
  rfl

/-- An answer that raises an error does nothing else. -/
theorem raises_of_raise {o : Host.Outcome State Fault Refusal} {s t : State} {c : ResultCode}
    (e : o = .next (s.raise c)) (h : o = .next t) : ∃ c : ResultCode, t = s.raise c := by
  cases e.symm.trans h
  exact ⟨c, rfl⟩

/-- A command that is answered either succeeds or only raises an error, whichever command it is. -/
theorem execCommand_ok_or_raises {i : Instr} {s t : State} (hi : i.isCommand = true)
    (h : exec i s = .next t) : t.this.err = .ok ∨ ∃ e : ResultCode, t = s.raise e := by
  cases i with
  | keyexp key =>
    rcases execKeyexp_cases key s with ⟨_, _, _, e⟩ | ⟨_, _, e⟩ | ⟨_, e⟩
    · exact .inl (err_ok_of_respond e h)
    · cases e.symm.trans h
    · exact .inr (raises_of_raise e h)
  | encblk block =>
    rcases execEncblk_cases block s with ⟨_, _, _, _, e⟩ | ⟨_, _, _, e⟩ | ⟨_, e⟩ | ⟨_, _, e⟩
    · exact .inl (err_ok_of_respond e h)
    · cases e.symm.trans h
    · exact .inr (raises_of_raise e h)
    · exact .inr (raises_of_raise e h)
  | stream key iv data =>
    rcases execStream_cases key iv data s with ⟨_, _, _, _, _, e⟩ | ⟨_, _, _, e⟩ | ⟨_, e⟩ | ⟨_, _, e⟩
    · exact .inl (err_ok_of_respond e h)
    · cases e.symm.trans h
    · exact .inr (raises_of_raise e h)
    · exact .inr (raises_of_raise e h)
  | ofbinit iv =>
    rcases execOfbinit_cases iv s with ⟨_, _, _, e⟩ | ⟨_, e⟩ | ⟨_, _, e⟩
    · exact .inl (err_ok_of_respond e h)
    · exact .inr (raises_of_raise e h)
    · exact .inr (raises_of_raise e h)
  | ofbchunk data =>
    rcases execOfbchunk_cases data s with
      ⟨_, _, _, _, _, e⟩ | ⟨_, _, _, _, _, e⟩ | ⟨_, e⟩ | ⟨_, _, _, e⟩ | ⟨_, _, _, _, e⟩
    · exact .inl (err_ok_of_respond e h)
    · cases e.symm.trans h
    · exact .inr (raises_of_raise e h)
    · exact .inr (raises_of_raise e h)
    · exact .inr (raises_of_raise e h)
  | ksload | ksword _ | ldstate _ | subbytes | shiftrows | mixcolumns | addroundkey _ | ststate
  | fbload | ofbxor _ | fbupdate => cases hi

/-- What an error changes, field by field (R214). -/
theorem State.raise_eq (s : State) (e : ResultCode) :
    s.raise e = { s with this := { s.this with
      err := e, busy := false, seq := Seq.idle, work := Work.none
      responses := s.this.responses ++ [[e.code]] } } :=
  rfl

/-- Settles O37: a failing command raises its error by `execCommand_ok_or_raises`, and what raising changes
is `State.raise_eq`. -/
theorem errorChangesOnlyTheErrorCode : Obligations.ErrorChangesOnlyTheErrorCode := by
  intro i s t hi h herr
  obtain hok | ⟨e, rfl⟩ := execCommand_ok_or_raises hi h
  · exact absurd hok herr
  · exact State.raise_eq s e

end Sys2Proof.Machine
end

