-- ==== Sys2Proof/Proofs/Encoding.lean ====
section
/-! SUPPORT. The decoder and the encoder are inverse to each other (30_encoding.md R82, R93 to R95), and the
frames the decoder rejects are those of R92. -/

namespace Sys2Proof.Machine

/-! ## Frames -/

/-- A counted field is read back from its own encoding, whatever follows it (R82). -/
theorem countedField_putCounted {operand : List Byte} (h : fitsLengthByte operand = true)
    (rest : List Byte) : countedField (putCounted operand ++ rest) = .ok (operand, rest) := by
  have hlen : operand.length % 256 = operand.length :=
    Nat.mod_eq_of_lt (Nat.lt_succ_of_le (of_decide_eq_true h))
  simp [countedField, putCounted, hlen]

/-- What is read as a counted field is the encoding of the field, and the rest follows it (R82). -/
theorem countedField_ok {f operand rest : List Byte} (h : countedField f = .ok (operand, rest)) :
    putCounted operand ++ rest = f := by
  cases f with
  | nil => cases h
  | cons n f =>
    simp only [countedField] at h
    split at h
    · cases h
    · rename_i hn
      cases h
      have hlen : (f.take n.toNat).length = n.toNat := List.length_take_of_le (Nat.le_of_not_lt hn)
      simp only [putCounted, hlen, BitVec.ofNat_toNat, BitVec.setWidth_eq, List.cons_append,
        List.take_append_drop]

/-- A command of one counted field is read back (R84, R85, R87). -/
theorem soleField_putCounted (make : List Byte → Instr) {operand : List Byte}
    (h : fitsLengthByte operand = true) : soleField make (putCounted operand) = .ok (make operand) := by
  have hfield := countedField_putCounted h []
  rw [List.append_nil] at hfield
  simp only [soleField, hfield]

/-- What is read as a command of one counted field is its encoding. -/
theorem soleField_ok {make : List Byte → Instr} {f : List Byte} {i : Instr}
    (h : soleField make f = .ok i) : ∃ operand, i = make operand ∧ putCounted operand = f := by
  unfold soleField at h
  split at h
  · cases h
  · rename_i operand hfield
    cases h
    exact ⟨operand, rfl, by simpa using countedField_ok hfield⟩
  · cases h

/-- The fields of STREAM are read back (R86). -/
theorem streamFields_putCounted {key iv : List Byte} (hkey : fitsLengthByte key = true)
    (hiv : fitsLengthByte iv = true) (data : List Byte) :
    streamFields (putCounted key ++ putCounted iv ++ data) = .ok (.stream key iv data) := by
  simp only [streamFields, List.append_assoc, countedField_putCounted hkey,
    countedField_putCounted hiv]

/-- What is read as the fields of STREAM is their encoding. -/
theorem streamFields_ok {f : List Byte} {i : Instr} (h : streamFields f = .ok i) :
    ∃ key iv data, i = .stream key iv data ∧ putCounted key ++ putCounted iv ++ data = f := by
  unfold streamFields at h
  split at h
  · cases h
  · rename_i key rest hkey
    split at h
    · cases h
    · rename_i iv data hiv
      cases h
      exact ⟨key, iv, data, rfl, by
        rw [List.append_assoc, countedField_ok hiv, countedField_ok hkey]⟩

/-- A frame is the encoding of the command it decodes to. -/
theorem encode_of_decodeFrame {f : List Byte} {i : Instr} (h : decodeFrame f = .ok i) :
    encode i = .frame f := by
  cases f with
  | nil => cases h
  | cons opcode rest =>
    simp only [decodeFrame] at h
    have hopcode : ∀ n : Nat, opcode.toNat = n → opcode = BitVec.ofNat 8 n :=
      fun n hn => by simp [← hn]
    split at h
    case h_1 hn =>
      obtain ⟨operand, rfl, rfl⟩ := soleField_ok h
      rw [hopcode 1 hn]; rfl
    case h_2 hn =>
      obtain ⟨operand, rfl, rfl⟩ := soleField_ok h
      rw [hopcode 2 hn]; rfl
    case h_3 hn =>
      obtain ⟨key, iv, data, rfl, rfl⟩ := streamFields_ok h
      rw [hopcode 3 hn]; rfl
    case h_4 hn =>
      obtain ⟨operand, rfl, rfl⟩ := soleField_ok h
      rw [hopcode 4 hn]; rfl
    case h_5 hn =>
      cases h
      rw [hopcode 5 hn]; rfl
    case h_6 => cases h

/-! ## Micro-operation words -/

/-- The code is the high part of a word and the argument the low part (R94). -/
theorem putUop_toNat {code arg : Nat} (hcode : code < 16) (harg : arg < 64) :
    (putUop code arg).toNat = 64 * code + arg := by
  simp only [putUop, BitVec.toNat_append, BitVec.toNat_ofNat]
  rw [Nat.mod_eq_of_lt (by omega), Nat.mod_eq_of_lt (by omega),
    ← Nat.shiftLeft_add_eq_or_of_lt (by omega), Nat.shiftLeft_eq]
  omega

/-- The argument field of a word is the argument it was made from. -/
theorem uopArg_putUop {code arg : Nat} (hcode : code < 16) (harg : arg < 64) :
    uopArg (putUop code arg) = arg := by
  rw [uopArg, putUop_toNat hcode harg]; omega

/-- A word is made of its own two fields (R94). -/
theorem putUop_uopCode_uopArg (word : UopWord) : putUop (uopCode word) (uopArg word) = word := by
  have hword : word.toNat < 1024 := word.isLt
  apply BitVec.eq_of_toNat_eq
  rw [putUop_toNat (by rw [uopCode]; omega) (by rw [uopArg]; omega), uopCode, uopArg]
  omega

/-- A word without an argument is accepted only with its argument bits zero (R94). -/
theorem bareUop_ok {i j : Instr} {arg : Nat} (h : bareUop i arg = .ok j) : arg = 0 ∧ j = i := by
  unfold bareUop at h
  split at h
  · rename_i harg
    cases h
    exact ⟨harg, rfl⟩
  · cases h

/-- A word is the encoding of the micro-operation it decodes to. -/
theorem encode_of_decodeUop {word : UopWord} {i : Instr} (h : decodeUop word = .ok i) :
    encode i = .uop word := by
  rw [← putUop_uopCode_uopArg word]
  simp only [decodeUop] at h
  split at h
  case h_1 hc => obtain ⟨ha, rfl⟩ := bareUop_ok h; rw [hc, ha]; rfl
  case h_2 hc => cases h; rw [hc]; rfl
  case h_3 hc =>
    split at h
    · rename_i ha; cases h; rw [hc, ha]; rfl
    · split at h
      · rename_i ha; cases h; rw [hc, ha]; rfl
      · cases h
  case h_4 hc => obtain ⟨ha, rfl⟩ := bareUop_ok h; rw [hc, ha]; rfl
  case h_5 hc => obtain ⟨ha, rfl⟩ := bareUop_ok h; rw [hc, ha]; rfl
  case h_6 hc => obtain ⟨ha, rfl⟩ := bareUop_ok h; rw [hc, ha]; rfl
  case h_7 hc =>
    split at h
    · cases h; rw [hc]; rfl
    · cases h
  case h_8 hc => obtain ⟨ha, rfl⟩ := bareUop_ok h; rw [hc, ha]; rfl
  case h_9 hc => obtain ⟨ha, rfl⟩ := bareUop_ok h; rw [hc, ha]; rfl
  case h_10 hc =>
    split at h
    · cases h; rw [hc]; rfl
    · cases h
  case h_11 hc => obtain ⟨ha, rfl⟩ := bareUop_ok h; rw [hc, ha]; rfl
  case h_12 => cases h

/-! ## The round trips -/

/-- Settles O1: each form of instruction by the fields it is encoded from. -/
theorem decodeEncodeRoundTrip : Obligations.DecodeEncodeRoundTrip := by
  intro i hi
  cases i with
  | keyexp key => exact soleField_putCounted .keyexp hi
  | encblk block => exact soleField_putCounted .encblk hi
  | stream key iv data =>
    obtain ⟨hkey, hiv⟩ := (Bool.and_eq_true _ _).mp hi
    exact streamFields_putCounted hkey hiv data
  | ofbinit iv => exact soleField_putCounted .ofbinit hi
  | ofbchunk data => rfl
  | ksload => exact decodeUop_ksload
  | ksword j =>
    have hj : j < 64 := by simp [Instr.wellFormed] at hi; omega
    simp [encode, decode, decodeUop, Laws.EncodedForm.uopCode_putUop, uopArg_putUop, hj]
  | ldstate src => exact decodeUop_ldstate src
  | subbytes => exact decodeUop_subbytes
  | shiftrows => exact decodeUop_shiftrows
  | mixcolumns => exact decodeUop_mixcolumns
  | addroundkey k => exact decodeUop_addroundkey k (Nat.lt_succ_of_le (of_decide_eq_true hi))
  | ststate => exact decodeUop_ststate
  | fbload => exact decodeUop_fbload
  | ofbxor n =>
    have hn : n < 17 := by simp [Instr.wellFormed] at hi; omega
    exact decodeUop_ofbxor n hn
  | fbupdate => exact decodeUop_fbupdate

/-- Settles O2: frames by `encode_of_decodeFrame`, words by `encode_of_decodeUop`. -/
theorem decodedThingIsItsOwnEncoding : Obligations.DecodedThingIsItsOwnEncoding := by
  intro e i h
  cases e with
  | frame f => exact encode_of_decodeFrame h
  | uop word => exact encode_of_decodeUop h

/-- Settles O4: the words of the tables are evaluated. -/
theorem tableWordsDecode : Obligations.TableWordsDecode := by
  unfold Obligations.TableWordsDecode
  decide

end Sys2Proof.Machine
end

