-- ==== Sys2Proof/Proofs/MalformedFrames.lean ====
section
/-! SUPPORT. The frames the decoder rejects are those of the list of 30_encoding.md R92. -/

namespace Sys2Proof.Machine

@[simp] theorem frameByte_cons_zero (b : Byte) (f : List Byte) : frameByte (b :: f) 0 = b.toNat := rfl

@[simp] theorem frameByte_cons_succ (b : Byte) (f : List Byte) (k : Nat) :
    frameByte (b :: f) (k + 1) = frameByte f k := rfl

/-- The bytes after the first `n`. -/
theorem frameByte_drop (f : List Byte) (n k : Nat) : frameByte (f.drop n) k = frameByte f (n + k) := by
  simp [frameByte, List.getD]

/-- A counted field that is read takes its length byte and as many bytes as that says. -/
theorem countedField_fits {f : List Byte} (h : 1 + frameByte f 0 ≤ f.length) :
    countedField f = .ok (f.tail.take (frameByte f 0), f.drop (1 + frameByte f 0)) := by
  cases f with
  | nil => simp at h
  | cons n f =>
    simp only [frameByte_cons_zero, List.length_cons] at h
    simp [countedField, Nat.not_lt.mpr (show n.toNat ≤ f.length by omega), Nat.add_comm 1]

/-- A counted field is rejected when its length byte is missing or says too much. -/
theorem countedField_error {f : List Byte} (h : f.length < 1 + frameByte f 0) :
    ∃ e, countedField f = .error e := by
  cases f with
  | nil => exact ⟨_, rfl⟩
  | cons n f =>
    simp only [frameByte_cons_zero, List.length_cons] at h
    exact ⟨.fieldPastEnd, if_pos (by omega)⟩

/-- A command of one counted field is rejected unless the field fills the frame. -/
theorem soleField_error_iff (make : List Byte → Instr) (f : List Byte) :
    (∃ e, soleField make f = .error e) ↔ f.length ≠ 1 + frameByte f 0 := by
  by_cases h : f.length < 1 + frameByte f 0
  · obtain ⟨e, he⟩ := countedField_error h
    exact ⟨fun _ => Nat.ne_of_lt h, fun _ => ⟨e, by simp [soleField, he]⟩⟩
  · have hfield := countedField_fits (Nat.le_of_not_lt h)
    have hrest : (f.drop (1 + frameByte f 0)).length = f.length - (1 + frameByte f 0) := List.length_drop
    cases hdrop : f.drop (1 + frameByte f 0) with
    | nil =>
      rw [hdrop] at hfield hrest
      simp only [soleField, hfield, reduceCtorEq, exists_false, false_iff, not_not]
      simp only [List.length_nil] at hrest
      omega
    | cons b bs =>
      rw [hdrop] at hfield hrest
      simp only [List.length_cons] at hrest
      simp only [soleField, hfield, Except.error.injEq, exists_eq', true_iff]
      omega

/-- STREAM is rejected when one of its two counted fields runs past the end (R86). -/
theorem streamFields_error_iff (f : List Byte) :
    (∃ e, streamFields f = .error e) ↔
      f.length < 1 + frameByte f 0 ∨
      f.length < 2 + frameByte f 0 + frameByte f (1 + frameByte f 0) := by
  by_cases h : f.length < 1 + frameByte f 0
  · obtain ⟨e, he⟩ := countedField_error h
    exact ⟨fun _ => .inl h, fun _ => ⟨e, by simp [streamFields, he]⟩⟩
  · have hkey := countedField_fits (Nat.le_of_not_lt h)
    have hbyte := frameByte_drop f (1 + frameByte f 0) 0
    rw [Nat.add_zero] at hbyte
    by_cases h2 : (f.drop (1 + frameByte f 0)).length < 1 + frameByte f (1 + frameByte f 0)
    · obtain ⟨e, he⟩ := countedField_error (hbyte ▸ h2)
      rw [List.length_drop] at h2
      exact ⟨fun _ => .inr (by omega), fun _ => ⟨e, by simp [streamFields, hkey, he]⟩⟩
    · have hiv := countedField_fits (hbyte ▸ Nat.le_of_not_lt h2)
      rw [List.length_drop] at h2
      simp only [streamFields, hkey, hiv, reduceCtorEq, exists_false, false_iff]
      omega

/-- The decoder rejects exactly the frames of R92's list: by the opcode, and for each command by the
lengths its fields say. -/
theorem decodeFrame_error_iff_malformed (f : List Byte) :
    (∃ e, decodeFrame f = .error e) ↔ malformed f := by
  cases f with
  | nil => exact ⟨fun _ => .inl rfl, fun _ => ⟨_, rfl⟩⟩
  | cons opcode rest =>
    have hone : frameByte (opcode :: rest) 1 = frameByte rest 0 := rfl
    have hlater : frameByte (opcode :: rest) (2 + frameByte rest 0) =
        frameByte rest (1 + frameByte rest 0) := by
      rw [show 2 + frameByte rest 0 = 1 + frameByte rest 0 + 1 by omega]; rfl
    simp only [malformed, hone, hlater, frameByte_cons_zero, List.length_cons, decodeFrame]
    split
    case h_1 hn => rw [soleField_error_iff, hn]; omega
    case h_2 hn => rw [soleField_error_iff, hn]; omega
    case h_3 hn => rw [streamFields_error_iff, hn]; omega
    case h_4 hn => rw [soleField_error_iff, hn]; omega
    case h_5 hn => simp [hn]
    case h_6 h1 h2 h3 h4 h5 =>
      simp only [imp_false] at h1 h2 h3 h4 h5
      simp only [Except.error.injEq, exists_eq', true_iff]
      omega

end Sys2Proof.Machine
end

