-- ==== Sys2Proof/Proofs/Commands.lean ====
section
/-! SUPPORT. Each command is its checks (60_exceptions.md R215) and then its work: the checks pass or fail by
the table of `firstFailure`, and everything a command can answer follows from that. -/

namespace Sys2Proof.Machine

/-! ## The checks and the table of R215 -/

/-- The table's row of KEYEXP passes for 32 bytes. -/
@[simp] theorem firstFailure_keyexp_toList (k : Key) (s : State) :
    firstFailure (.keyexp k.toList) s = .ok := by
  simp [firstFailure]

/-- The table's row of STREAM passes for 32 and 16 bytes. -/
@[simp] theorem firstFailure_stream_toList (k : Key) (v : Block) (data : List Byte) (s : State) :
    firstFailure (.stream k.toList v.toList data) s = .ok := by
  simp [firstFailure]

/-- The table's row of ENCBLK passes for 16 bytes under a valid schedule. -/
theorem firstFailure_encblk_toList {s : State} (hk : s.ksValid = true) (b : Block) :
    firstFailure (.encblk b.toList) s = .ok := by
  simp [firstFailure, hk]

/-- The table's row of OFBINIT passes for 16 bytes under a valid schedule. -/
theorem firstFailure_ofbinit_toList {s : State} (hk : s.ksValid = true) (v : Block) :
    firstFailure (.ofbinit v.toList) s = .ok := by
  simp [firstFailure, hk]

/-- The table's row of OFBCHUNK passes for 1 to 16 bytes of a valid stream under a valid schedule. -/
theorem firstFailure_ofbchunk_valid {data : List Byte} {s : State} (h1 : 1 ≤ data.length)
    (h16 : data.length ≤ 16) (hk : s.ksValid = true) (hf : s.this.fbValid = true) :
    firstFailure (.ofbchunk data) s = .ok := by
  have hlen : ¬ (data.length = 0 ∨ data.length > 16) := by omega
  simp only [firstFailure, hlen, hk, hf, if_false, reduceCtorEq]

/-- KEYEXP makes the check of its row. -/
theorem checkKeyexp_firstFailure (key : List Byte) (s : State) :
    (∃ k : Key, key = k.toList ∧ checkKeyexp key = .ok k) ∨
    (firstFailure (.keyexp key) s ≠ .ok ∧
      checkKeyexp key = .error (firstFailure (.keyexp key) s)) := by
  rcases checkKeyexp_cases key with h | ⟨h, e⟩
  · exact .inl h
  · exact .inr (by simp [firstFailure, h, e])

/-- ENCBLK makes the checks of its row in their order. -/
theorem checkEncblk_firstFailure (block : List Byte) (s : State) :
    (∃ b : Block, block = b.toList ∧ s.ksValid = true ∧ checkEncblk block s = .ok b) ∨
    (firstFailure (.encblk block) s ≠ .ok ∧
      checkEncblk block s = .error (firstFailure (.encblk block) s)) := by
  rcases checkEncblk_cases block s with h | ⟨h, e⟩ | ⟨h, hk, e⟩
  · exact .inl h
  · exact .inr (by simp [firstFailure, h, e])
  · exact .inr (by simp [firstFailure, h, hk, e])

/-- STREAM makes the checks of its row in their order. -/
theorem checkStream_firstFailure (key iv data : List Byte) (s : State) :
    (∃ (k : Key) (v : Block), key = k.toList ∧ iv = v.toList ∧ checkStream key iv = .ok (k, v)) ∨
    (firstFailure (.stream key iv data) s ≠ .ok ∧
      checkStream key iv = .error (firstFailure (.stream key iv data) s)) := by
  rcases checkStream_cases key iv with h | ⟨h, e⟩ | ⟨h, h', e⟩
  · exact .inl h
  · exact .inr (by simp [firstFailure, h, e])
  · exact .inr (by simp [firstFailure, h, h', e])

/-- OFBINIT makes the checks of its row in their order. -/
theorem checkOfbinit_firstFailure (iv : List Byte) (s : State) :
    (∃ v : Block, iv = v.toList ∧ s.ksValid = true ∧ checkOfbinit iv s = .ok v) ∨
    (firstFailure (.ofbinit iv) s ≠ .ok ∧
      checkOfbinit iv s = .error (firstFailure (.ofbinit iv) s)) := by
  rcases checkOfbinit_cases iv s with h | ⟨h, e⟩ | ⟨h, hk, e⟩
  · exact .inl h
  · exact .inr (by simp [firstFailure, h, e])
  · exact .inr (by simp [firstFailure, h, hk, e])

/-- OFBCHUNK makes the checks of its row in their order. -/
theorem checkOfbchunk_firstFailure (data : List Byte) (s : State) :
    (1 ≤ data.length ∧ data.length ≤ 16 ∧ s.ksValid = true ∧ s.this.fbValid = true ∧
      checkOfbchunk data s = .ok ()) ∨
    (firstFailure (.ofbchunk data) s ≠ .ok ∧
      checkOfbchunk data s = .error (firstFailure (.ofbchunk data) s)) := by
  rcases checkOfbchunk_cases data s with h | ⟨h, e⟩ | ⟨h1, h16, hk, e⟩ | ⟨h1, h16, hk, hf, e⟩
  · exact .inl h
  · have hlen : data.length = 0 ∨ data.length > 16 := by omega
    exact .inr (by simp only [firstFailure, hlen, e, if_true]; simp)
  · have hlen : ¬ (data.length = 0 ∨ data.length > 16) := by omega
    exact .inr (by simp only [firstFailure, hlen, hk, e, if_false, if_true]; simp)
  · have hlen : ¬ (data.length = 0 ∨ data.length > 16) := by omega
    exact .inr (by simp only [firstFailure, hlen, hk, hf, e, if_false, if_true]; simp)

/-! ## What each command answers when its checks pass -/

/-- KEYEXP of a whole key, while no other instance is busy (R133). -/
theorem exec_keyexp_accepted {s : State} (hu : s.scheduleInUse = false) (k : Key) :
    exec (.keyexp k.toList) s = .next ((((s.setW (keyExpand k)).setKsValid true).setFbValid false).respond
      .ok (scheduleBytes (keyExpand k))) := by
  change execKeyexp _ s = _
  simp [execKeyexp, checkKeyexp_toList, hu, expandInto_eq]

/-- OFBINIT of a whole IV under a valid schedule (R185). -/
theorem exec_ofbinit_accepted {s : State} (hk : s.ksValid = true) (v : Block) :
    exec (.ofbinit v.toList) s = .next (((s.setFb v).setFbValid true).respond .ok []) := by
  change execOfbinit _ s = _
  simp [execOfbinit, checkOfbinit, exactly_toList, hk]

/-- What the chunk loop leaves: `S` is the last feedback unless there was no data (R187). -/
theorem streamLoop_eq (k : Key) (g v : Block) (data : List Byte) :
    streamLoop (keyExpand k) ⟨g, v, []⟩ data =
      { grid := if data = [] then g else feedbackAfter (keyExpand k) v (chunks data).length
        fb := feedbackAfter (keyExpand k) v (chunks data).length
        out := streamTransform k v data } := by
  have hgrid := foldl_streamChunk_grid (keyExpand k) (chunks data) ⟨g, v, []⟩
  have hfb := foldl_streamChunk_fb (keyExpand k) (chunks data) ⟨g, v, []⟩
  have hout := foldl_streamChunk_out (keyExpand k) (chunks data) ⟨g, v, []⟩
  have htransform : streamTransform k v data = _ :=
    foldl_streamChunk_out (keyExpand k) (chunks data) ⟨v, v, []⟩
  rw [hfb] at hgrid
  simp only [chunks_eq_nil] at hgrid
  rw [htransform, ← hgrid, ← hfb, ← hout]
  rfl

/-- The state a STREAM leaves (R187). -/
def State.streamed (k : Key) (v : Block) (data : List Byte) (s : State) : State :=
  (((((s.setW (keyExpand k)).setKsValid true).setGrid
    (if data = [] then s.this.grid else feedbackAfter (keyExpand k) v (chunks data).length)).setFb
    (feedbackAfter (keyExpand k) v (chunks data).length)).setFbValid true).respond .ok
    (streamTransform k v data)

/-- STREAM of a whole key and IV, while no other instance is busy (R187). -/
theorem exec_stream_accepted {s : State} (hu : s.scheduleInUse = false) (k : Key) (v : Block)
    (data : List Byte) : exec (.stream k.toList v.toList data) s = .next (s.streamed k v data) := by
  change execStream _ _ _ s = _
  simp [execStream, checkStream, exactly_toList, hu, expandInto_eq, streamLoop_eq, State.streamed]

/-! ## Everything a command can answer -/

/-- A command with a failing check raises the error of the table and does nothing else (R214, R215). -/
theorem exec_rejected {i : Instr} {s : State} (hi : i.isCommand = true)
    (h : firstFailure i s ≠ .ok) : exec i s = .next (s.raise (firstFailure i s)) := by
  cases i with
  | keyexp key =>
    obtain ⟨k, rfl, -⟩ | ⟨-, e⟩ := checkKeyexp_firstFailure key s
    · exact absurd (firstFailure_keyexp_toList k s) h
    · simp only [exec, execKeyexp, e]
  | encblk block =>
    obtain ⟨b, rfl, hk, -⟩ | ⟨-, e⟩ := checkEncblk_firstFailure block s
    · exact absurd (firstFailure_encblk_toList hk b) h
    · exact exec_encblk_rejected e
  | stream key iv data =>
    obtain ⟨k, v, rfl, rfl, -⟩ | ⟨-, e⟩ := checkStream_firstFailure key iv data s
    · exact absurd (firstFailure_stream_toList k v data s) h
    · simp only [exec, execStream, e]
  | ofbinit iv =>
    obtain ⟨v, rfl, hk, -⟩ | ⟨-, e⟩ := checkOfbinit_firstFailure iv s
    · exact absurd (firstFailure_ofbinit_toList hk v) h
    · simp only [exec, execOfbinit, e]
  | ofbchunk data =>
    obtain ⟨h1, h16, hk, hf, -⟩ | ⟨-, e⟩ := checkOfbchunk_firstFailure data s
    · exact absurd (firstFailure_ofbchunk_valid h1 h16 hk hf) h
    · exact exec_ofbchunk_rejected e
  | ksload | ksword _ | ldstate _ | subbytes | shiftrows | mixcolumns | addroundkey _ | ststate
  | fbload | ofbxor _ | fbupdate => cases hi

/-- How a command can be answered in `s`: with the error of the table, or with its own work done. -/
inductive CommandAnswer (s : State) : Instr → State → Prop
  | rejected {i : Instr} (failed : firstFailure i s ≠ .ok) :
      CommandAnswer s i (s.raise (firstFailure i s))
  | keyexp (k : Key) (unused : s.scheduleInUse = false) :
      CommandAnswer s (.keyexp k.toList)
        ((((s.setW (keyExpand k)).setKsValid true).setFbValid false).respond .ok
          (scheduleBytes (keyExpand k)))
  | encblk (b : Block) (valid : s.ksValid = true) (steady : s.scheduleChanging = false) :
      CommandAnswer s (.encblk b.toList)
        ((s.setGrid (encryptBlock b s.w)).respond .ok (encryptBlock b s.w).toList)
  | stream (k : Key) (v : Block) (data : List Byte) (unused : s.scheduleInUse = false) :
      CommandAnswer s (.stream k.toList v.toList data) (s.streamed k v data)
  | ofbinit (v : Block) (valid : s.ksValid = true) :
      CommandAnswer s (.ofbinit v.toList) (((s.setFb v).setFbValid true).respond .ok [])
  | ofbchunk (data : List Byte) (nonempty : 1 ≤ data.length) (short : data.length ≤ 16)
      (valid : s.ksValid = true) (streaming : s.this.fbValid = true)
      (steady : s.scheduleChanging = false) :
      CommandAnswer s (.ofbchunk data)
        (((s.setGrid (encryptBlock s.this.fb s.w)).setFb (encryptBlock s.this.fb s.w)).respond .ok
          (xorChunk data (encryptBlock s.this.fb s.w)))

/-- The one next state of an outcome. -/
theorem next_unique {o : Host.Outcome State Fault Refusal} {t u : State} (h : o = .next t)
    (h' : o = .next u) : t = u := by
  cases h.symm.trans h'
  rfl

/-- A command is answered in no other way. -/
theorem exec_answer {i : Instr} {s t : State} (hi : i.isCommand = true) (h : exec i s = .next t) :
    CommandAnswer s i t := by
  by_cases hfail : firstFailure i s ≠ .ok
  · rw [next_unique h (exec_rejected hi hfail)]
    exact .rejected hfail
  · cases i with
    | keyexp key =>
      obtain ⟨k, rfl, e⟩ | ⟨hfail', -⟩ := checkKeyexp_firstFailure key s
      · cases hu : s.scheduleInUse with
        | false => rw [next_unique h (exec_keyexp_accepted hu k)]; exact .keyexp k hu
        | true => simp [exec, execKeyexp, e, hu] at h
      · exact absurd hfail' hfail
    | encblk block =>
      obtain ⟨b, rfl, hk, e⟩ | ⟨hfail', -⟩ := checkEncblk_firstFailure block s
      · cases hc : s.scheduleChanging with
        | false => rw [next_unique h (exec_encblk_accepted e hc)]; exact .encblk b hk hc
        | true => simp [exec, execEncblk, e, hc] at h
      · exact absurd hfail' hfail
    | stream key iv data =>
      obtain ⟨k, v, rfl, rfl, e⟩ | ⟨hfail', -⟩ := checkStream_firstFailure key iv data s
      · cases hu : s.scheduleInUse with
        | false => rw [next_unique h (exec_stream_accepted hu k v data)]; exact .stream k v data hu
        | true => simp [exec, execStream, e, hu] at h
      · exact absurd hfail' hfail
    | ofbinit iv =>
      obtain ⟨v, rfl, hk, e⟩ | ⟨hfail', -⟩ := checkOfbinit_firstFailure iv s
      · rw [next_unique h (exec_ofbinit_accepted hk v)]
        exact .ofbinit v hk
      · exact absurd hfail' hfail
    | ofbchunk data =>
      obtain ⟨h1, h16, hk, hf, e⟩ | ⟨hfail', -⟩ := checkOfbchunk_firstFailure data s
      · cases hc : s.scheduleChanging with
        | false => rw [next_unique h (exec_ofbchunk_accepted e hc)]; exact .ofbchunk data h1 h16 hk hf hc
        | true => simp [exec, execOfbchunk, e, hc] at h
      · exact absurd hfail' hfail
    | ksload | ksword _ | ldstate _ | subbytes | shiftrows | mixcolumns | addroundkey _ | ststate
    | fbload | ofbxor _ | fbupdate => cases hi

/-! ## One response, and which code it has -/

/-- Settles O5: the one response of each answer, and the lengths of its payload. -/
theorem oneResponseFramePerCommand : Obligations.OneResponseFramePerCommand := by
  intro i s t hi h
  cases exec_answer hi h with
  | rejected hfail => exact ⟨[], rfl, fun _ => rfl, fun hok => absurd hok hfail⟩
  | keyexp k =>
    exact ⟨scheduleBytes (keyExpand k), by simp, by simp, fun _ => scheduleBytes_length _⟩
  | encblk b => exact ⟨(encryptBlock b s.w).toList, by simp, by simp, fun _ => Vector.length_toList⟩
  | stream k v data =>
    refine ⟨streamTransform k v data, by simp [State.streamed], by simp [State.streamed], fun _ => ?_⟩
    rw [streamTransform_eq_mapIdx, List.length_mapIdx, payloadLength]
  | ofbinit v => exact ⟨[], by simp, by simp, fun _ => rfl⟩
  | ofbchunk data h1 h16 =>
    exact ⟨xorChunk data (encryptBlock s.this.fb s.w), by simp, by simp, fun _ =>
      (xorChunk_length _ _).trans (Nat.min_eq_left h16)⟩

/-- The code of every answer is that of the table (R215). -/
theorem CommandAnswer.err_eq {i : Instr} {s t : State} (h : CommandAnswer s i t) :
    t.this.err = firstFailure i s := by
  cases h with
  | rejected => rfl
  | keyexp k => exact (firstFailure_keyexp_toList k s).symm
  | encblk b hk => exact (firstFailure_encblk_toList hk b).symm
  | stream k v data => exact (firstFailure_stream_toList k v data s).symm
  | ofbinit v hk => exact (firstFailure_ofbinit_toList hk v).symm
  | ofbchunk data h1 h16 hk hf => exact (firstFailure_ofbchunk_valid h1 h16 hk hf).symm

/-- A malformed frame is refused when it is performed. -/
theorem perform_error {f : List Byte} {e : DecodeError} (h : decodeFrame f = .error e) (s : State) :
    perform f s = .next (s.raise .illegalCommand) := by
  simp only [perform, h]

/-- Settles O38: the code by `CommandAnswer.err_eq`, the raise by `exec_rejected`. -/
theorem firstFailingCheckIsReported : Obligations.FirstFailingCheckIsReported :=
  ⟨fun _ _ s h => perform_error h s,
    fun _ _ hi => ⟨fun _ h => (exec_answer hi h).err_eq, exec_rejected hi⟩⟩

/-! ## The whole next states -/

/-- KEYEXP rejects a key of another length. -/
theorem exec_keyexp_wrong_length {key : List Byte} (h : key.length ≠ 32) (s : State) :
    exec (.keyexp key) s = .next (s.raise .invalidKeyLength) := by
  have hcode : firstFailure (.keyexp key) s = .invalidKeyLength := by simp [firstFailure, h]
  rw [exec_rejected rfl (by simp [hcode]), hcode]

/-- What a successful command that leaves `w` in `W` and ends the stream changes, field by field. -/
theorem State.respond_rekeyed (s : State) (w : Schedule) (p : List Byte) :
    (((s.setW w).setKsValid true).setFbValid false).respond .ok p = { s with
      w := w, ksValid := true
      this := { s.this with
        fbValid := false, err := .ok, busy := false, seq := Seq.idle, work := Work.none
        responses := s.this.responses ++ [0x00 :: p] } } :=
  rfl

/-- Settles O16: `exec_keyexp_accepted`, written out by `State.respond_rekeyed`, and
`exec_keyexp_wrong_length`. -/
theorem keyexpResult : Obligations.KeyexpResult :=
  ⟨fun s k hu => (exec_keyexp_accepted hu k).trans (congrArg _ (State.respond_rekeyed s _ _)),
    fun s _ h => exec_keyexp_wrong_length h s⟩

/-- OFBINIT rejects an IV of another length before it looks at the schedule. -/
theorem exec_ofbinit_wrong_length {iv : List Byte} (h : iv.length ≠ 16) (s : State) :
    exec (.ofbinit iv) s = .next (s.raise .invalidIVLength) := by
  have hcode : firstFailure (.ofbinit iv) s = .invalidIVLength := by simp [firstFailure, h]
  rw [exec_rejected rfl (by simp [hcode]), hcode]

/-- OFBINIT has no schedule to stream under. -/
theorem exec_ofbinit_no_schedule {iv : List Byte} {s : State} (h : iv.length = 16)
    (hk : s.ksValid = false) : exec (.ofbinit iv) s = .next (s.raise .noSchedule) := by
  have hcode : firstFailure (.ofbinit iv) s = .noSchedule := by simp [firstFailure, h, hk]
  rw [exec_rejected rfl (by simp [hcode]), hcode]

/-- Settles O28: `exec_ofbinit_accepted` and its two errors; raising an error writes no register. -/
theorem ofbinitResult : Obligations.OfbinitResult :=
  ⟨fun _ v hk => exec_ofbinit_accepted hk v, fun s _ h => exec_ofbinit_wrong_length h s,
    fun _ _ h hk => exec_ofbinit_no_schedule h hk, fun _ _ => ⟨rfl, rfl⟩⟩

/-- STREAM checks the key's length first. -/
theorem exec_stream_wrong_key_length {key : List Byte} (h : key.length ≠ 32) (iv data : List Byte)
    (s : State) : exec (.stream key iv data) s = .next (s.raise .invalidKeyLength) := by
  have hcode : firstFailure (.stream key iv data) s = .invalidKeyLength := by simp [firstFailure, h]
  rw [exec_rejected rfl (by simp [hcode]), hcode]

/-- STREAM checks the IV's length after the key's. -/
theorem exec_stream_wrong_iv_length {key iv : List Byte} (h : key.length = 32) (h' : iv.length ≠ 16)
    (data : List Byte) (s : State) :
    exec (.stream key iv data) s = .next (s.raise .invalidIVLength) := by
  have hcode : firstFailure (.stream key iv data) s = .invalidIVLength := by
    simp [firstFailure, h, h']
  rw [exec_rejected rfl (by simp [hcode]), hcode]

/-- What a successful command that leaves `w` in `W` and a stream in progress changes, field by field. -/
theorem State.respond_streaming (s : State) (w : Schedule) (g b : Block) (p : List Byte) :
    (((((s.setW w).setKsValid true).setGrid g).setFb b).setFbValid true).respond .ok p = { s with
      w := w, ksValid := true
      this := { s.this with
        grid := g, fb := b, fbValid := true
        err := .ok, busy := false, seq := Seq.idle, work := Work.none
        responses := s.this.responses ++ [0x00 :: p] } } :=
  rfl

/-- Settles O30: `exec_stream_accepted`, written out by `State.respond_streaming`, the number of chunks,
and the two errors. -/
theorem streamResult : Obligations.StreamResult :=
  ⟨fun s k v data hu => (exec_stream_accepted hu k v data).trans
      (congrArg _ (State.respond_streaming s _ _ _ _)), chunks_length,
    fun s _ iv data h => exec_stream_wrong_key_length h iv data s,
    fun s _ _ data h h' => exec_stream_wrong_iv_length h h' data s⟩

/-- Settles O39: what each command answers is decided by the table at reset, where no other core is busy. -/
theorem firstCommandAfterReset : Obligations.FirstCommandAfterReset := by
  refine ⟨fun k => ⟨_, exec_keyexp_accepted rfl k, rfl⟩,
    fun k v data => ⟨_, exec_stream_accepted rfl k v data, rfl⟩,
    fun block => ?_, fun iv => ?_, fun data => ?_, fun f hf => ?_⟩
  · have hcode : firstFailure (.encblk block) State.reset =
        if block.length = 16 then .noSchedule else .invalidBlockLength := by
      by_cases h : block.length = 16 <;> simp [firstFailure, h, State.reset, State.resetOf]
    exact ⟨_, exec_rejected rfl (by rw [hcode]; split <;> simp), hcode⟩
  · have hcode : firstFailure (.ofbinit iv) State.reset =
        if iv.length = 16 then .noSchedule else .invalidIVLength := by
      by_cases h : iv.length = 16 <;> simp [firstFailure, h, State.reset, State.resetOf]
    exact ⟨_, exec_rejected rfl (by rw [hcode]; split <;> simp), hcode⟩
  · have hcode : firstFailure (.ofbchunk data) State.reset =
        if 1 ≤ data.length ∧ data.length ≤ 16 then .noSchedule else .invalidChunkLength := by
      by_cases h : 1 ≤ data.length ∧ data.length ≤ 16
      · have h' : ¬ (data.length = 0 ∨ data.length > 16) := by omega
        simp only [firstFailure, h, h', if_false]
        rfl
      · have h' : data.length = 0 ∨ data.length > 16 := by omega
        simp only [firstFailure, h, h', if_true, if_false]
    exact ⟨_, exec_rejected rfl (by rw [hcode]; split <;> simp), hcode⟩
  · obtain ⟨e, he⟩ := (decodeFrame_error_iff_malformed f).mpr hf
    exact ⟨_, perform_error he State.reset, rfl⟩

end Sys2Proof.Machine
end

