-- ==== Sys2Proof/Proofs/StreamCommands.lean ====
section
/-! SUPPORT. `StreamTransform` as a function of key, IV and data (44_ofb_stream.md R189), and sequences of
commands: STREAM against its own output, against its expansion (R188), and one chunk after another (R190,
R191). -/

namespace Sys2Proof.Machine

/-! ## The transform -/

/-- The transform keeps the length. -/
@[simp] theorem streamTransform_length (k : Key) (v : Block) (m : List Byte) :
    (streamTransform k v m).length = m.length := by
  rw [streamTransform_eq_mapIdx, List.length_mapIdx]

/-- Byte `j` of the output is byte `j` of the data with byte `j` of the keystream added. -/
@[simp] theorem streamTransform_getElem (k : Key) (v : Block) (m : List Byte) (j : Nat)
    (hj : j < (streamTransform k v m).length) :
    (streamTransform k v m)[j] =
      m[j]'(by simpa using hj) ^^^ byteOfBlocks (keystreamBlock (keyExpand k) v) j := by
  simp [streamTransform_eq_mapIdx]

/-- The same keystream added twice adds nothing. -/
theorem streamTransform_streamTransform (k : Key) (v : Block) (m : List Byte) :
    streamTransform k v (streamTransform k v m) = m :=
  List.ext_getElem (by simp) fun j _ _ => by simp

/-- What is added to the data is the keystream, for any data. -/
theorem zipWith_streamTransform (k : Key) (v : Block) (m : List Byte) :
    List.zipWith (· ^^^ ·) (streamTransform k v m) m =
      (List.range m.length).map (byteOfBlocks (keystreamBlock (keyExpand k) v)) := by
  refine List.ext_getElem (by simp) fun j _ _ => ?_
  simp only [List.getElem_zipWith, streamTransform_getElem, List.getElem_map, List.getElem_range]
  rw [BitVec.xor_comm, ← BitVec.xor_assoc, BitVec.xor_self, BitVec.zero_xor]

/-- The beginning of the output is the output for the beginning of the data. -/
theorem streamTransform_take (k : Key) (v : Block) (m : List Byte) (n : Nat) :
    streamTransform k v (m.take n) = (streamTransform k v m).take n :=
  List.ext_getElem (by simp) fun j _ _ => by simp

/-- The last frame answered by a STREAM: its output, or the code of the table, which does not depend on
the state. -/
theorem getLast?_responses_stream {s t : State} {key iv m : List Byte}
    (h : exec (.stream key iv m) s = .next t) :
    (∃ (k : Key) (v : Block), key = k.toList ∧ iv = v.toList ∧
      t.this.responses.getLast? = some (0x00 :: streamTransform k v m)) ∨
    (firstFailure (.stream key iv m) s ≠ .ok ∧
      t.this.responses.getLast? = some [(firstFailure (.stream key iv m) s).code]) := by
  cases exec_answer rfl h with
  | rejected hfail => exact .inr ⟨hfail, List.getLast?_concat⟩
  | stream k v => exact .inl ⟨k, v, rfl, rfl, List.getLast?_concat⟩

/-- Settles O32: the properties of the transform byte by byte; the answer by
`getLast?_responses_stream`, on the same side in both states because the table's row reads no state. -/
theorem streamTransformProperties : Obligations.StreamTransformProperties := by
  refine ⟨streamTransform_streamTransform, streamTransform_length, fun k v m m' hlen => ?_,
    streamTransform_take, fun s s' t t' key iv m h h' => ?_⟩
  · rw [zipWith_streamTransform, zipWith_streamTransform, hlen]
  · have hrow : firstFailure (.stream key iv m) s = firstFailure (.stream key iv m) s' := rfl
    obtain ⟨k, v, rfl, rfl, hlast⟩ | ⟨hfail, hlast⟩ := getLast?_responses_stream h
    · obtain ⟨k', v', hk, hv, hlast'⟩ | ⟨hfail', -⟩ := getLast?_responses_stream h'
      · rw [hlast, hlast', Vector.toList_inj.mp hk, Vector.toList_inj.mp hv]
      · exact absurd (firstFailure_stream_toList k v m s') hfail'
    · obtain ⟨k', v', rfl, rfl, -⟩ | ⟨-, hlast'⟩ := getLast?_responses_stream h'
      · exact absurd (firstFailure_stream_toList k' v' m s) hfail
      · rw [hlast, hlast', hrow]

/-! ## Sequences of commands -/

/-- A STREAM answers its output. -/
theorem State.streamed_responses (k : Key) (v : Block) (data : List Byte) (s : State) :
    (s.streamed k v data).this.responses = s.this.responses ++ [0x00 :: streamTransform k v data] := by
  simp [State.streamed, ResultCode.code]

/-- A STREAM leaves the other instances alone. -/
theorem State.streamed_peers (k : Key) (v : Block) (data : List Byte) (s : State) :
    (s.streamed k v data).peers = s.peers := by
  simp [State.streamed]

/-- Settles O33: both STREAMs are accepted, and the second undoes the first by
`streamTransform_streamTransform`. -/
theorem streamDecryptsItsOwnOutput : Obligations.StreamDecryptsItsOwnOutput := by
  intro s k v data hu
  have hu' : (s.streamed k v data).scheduleInUse = false := by
    rwa [State.scheduleInUse, State.streamed_peers]
  refine ⟨_, _, streamTransform k v data, exec_stream_accepted hu k v data,
    State.streamed_responses k v data s,
    exec_stream_accepted hu' k v (streamTransform k v data), ?_⟩
  rw [State.streamed_responses, streamTransform_streamTransform]

/-- A sequence begins with its first command. -/
theorem execAll_cons {i : Instr} {s t : State} (h : exec i s = .next t) (is : List Instr) :
    execAll (i :: is) s = execAll is t := by
  simp only [execAll, h]

/-- The state an OFBCHUNK leaves (R186). -/
def State.chunked (s : State) (chunk : List Byte) : State :=
  ((s.setGrid (encryptBlock s.this.fb s.w)).setFb (encryptBlock s.this.fb s.w)).respond .ok
    (xorChunk chunk (encryptBlock s.this.fb s.w))

/-- What an OFBCHUNK changes, field by field. -/
theorem State.chunked_eq (s : State) (chunk : List Byte) :
    s.chunked chunk = { s with this := { s.this with
      grid := encryptBlock s.this.fb s.w, fb := encryptBlock s.this.fb s.w
      err := .ok, busy := false, seq := Seq.idle, work := Work.none
      responses := s.this.responses ++ [0x00 :: xorChunk chunk (encryptBlock s.this.fb s.w)] } } :=
  State.respond_setFb_setGrid s _ _ _

/-- Chunks of a valid stream are answered one after another. -/
theorem execAll_ofbchunks {s : State} {cs : List (List Byte)} (hk : s.ksValid = true)
    (hf : s.this.fbValid = true) (hc : s.scheduleChanging = false)
    (hcs : ∀ c ∈ cs, 1 ≤ c.length ∧ c.length ≤ 16) :
    execAll (cs.map .ofbchunk) s = .next (cs.foldl State.chunked s) := by
  induction cs generalizing s with
  | nil => rfl
  | cons c cs ih =>
    obtain ⟨⟨h1, h16⟩, hcs⟩ := List.forall_mem_cons.1 hcs
    have hchunk := exec_ofbchunk_accepted (checkOfbchunk_valid h1 h16 hk hf) hc
    rw [List.map_cons, execAll_cons hchunk, List.foldl_cons]
    exact ih (s := s.chunked c) (by rwa [State.chunked_eq]) (by rwa [State.chunked_eq])
      (by rwa [State.scheduleChanging, State.chunked_eq]) hcs

/-- What a sequence of chunks leaves, when nothing is in progress before it: the feedback after as many
blocks as there are chunks (R191), and a response for each chunk with its own keystream block (R190). -/
theorem foldl_chunked_eq {s : State} (hrest : s.this.Resting) (herr : s.this.err = .ok)
    (cs : List (List Byte)) :
    cs.foldl State.chunked s = { s with this := { s.this with
      grid := if cs = [] then s.this.grid else feedbackAfter s.w s.this.fb cs.length
      fb := feedbackAfter s.w s.this.fb cs.length
      responses := s.this.responses ++
        cs.mapIdx fun n c => 0x00 :: xorChunk c (keystreamBlock s.w s.this.fb n) } } := by
  induction cs generalizing s with
  | nil => simp [feedbackAfter]
  | cons c cs ih =>
    obtain ⟨hbusy, hseq, hwork⟩ := hrest
    have hgrid : (if cs = [] then encryptBlock s.this.fb s.w
        else feedbackAfter s.w s.this.fb (cs.length + 1)) =
        feedbackAfter s.w s.this.fb (cs.length + 1) := by
      split
      · next hnil => rw [hnil]; rfl
      · rfl
    have hzero : keystreamBlock s.w s.this.fb 0 = encryptBlock s.this.fb s.w := rfl
    rw [List.foldl_cons, State.chunked_eq, ih ⟨rfl, rfl, rfl⟩ rfl]
    simp only [hgrid, hzero, hbusy, hseq, hwork, herr, feedbackAfter_shift, keystreamBlock_shift,
      List.mapIdx_cons, List.length_cons, List.append_assoc, List.cons_append, List.nil_append,
      reduceCtorEq, if_false]

/-- Settles O36: the empty sequence changes nothing; after its first chunk nothing is in progress, so
`foldl_chunked_eq` says what the later ones leave. -/
theorem eachChunkSpendsOneKeystreamBlock : Obligations.EachChunkSpendsOneKeystreamBlock := by
  intro s cs hk hf hc hcs
  refine ⟨_, execAll_ofbchunks hk hf hc hcs, ?_⟩
  cases cs with
  | nil => exact ⟨rfl, rfl, hk, hf, by simp⟩
  | cons c cs =>
    rw [List.foldl_cons, State.chunked_eq, foldl_chunked_eq ⟨rfl, rfl, rfl⟩ rfl]
    refine ⟨feedbackAfter_shift _ _ _, rfl, hk, hf, ?_⟩
    simp [List.mapIdx_cons, keystreamBlock_shift, keystreamBlock]

/-- The state after the KEYEXP and OFBINIT that begin the expansion of a STREAM (R188). -/
def State.opened (k : Key) (v : Block) (s : State) : State :=
  ((((((s.setW (keyExpand k)).setKsValid true).setFbValid false).respond .ok
    (scheduleBytes (keyExpand k))).setFb v).setFbValid true).respond .ok []

/-- Opening a stream, field by field, whatever the words `w` and the payload `p` of the KEYEXP are. -/
theorem State.respond_rekeyed_streaming (s : State) (w : Schedule) (p : List Byte) (v : Block) :
    ((((((s.setW w).setKsValid true).setFbValid false).respond .ok p).setFb v).setFbValid true).respond
      .ok [] = { s with
        w := w, ksValid := true
        this := { s.this with
          fb := v, fbValid := true, err := .ok, busy := false, seq := Seq.idle, work := Work.none
          responses := s.this.responses ++ [0x00 :: p] ++ [[0x00]] } } :=
  rfl

/-- KEYEXP and OFBINIT open the stream for the commands after them. -/
theorem execAll_open {s : State} (hu : s.scheduleInUse = false) (k : Key) (v : Block)
    (is : List Instr) : execAll (.keyexp k.toList :: .ofbinit v.toList :: is) s =
      execAll is (s.opened k v) := by
  rw [execAll_cons (exec_keyexp_accepted hu k), execAll_cons (exec_ofbinit_accepted (by simp) v),
    State.opened]

/-- The output of the transform chunk by chunk. -/
theorem flatten_xorChunk_eq_streamTransform (k : Key) (v : Block) (data : List Byte) :
    ((chunks data).mapIdx fun n c => xorChunk c (keystreamBlock (keyExpand k) v n)).flatten =
      streamTransform k v data := by
  rw [flatten_xorChunk_chunks, streamTransform_eq_mapIdx]

/-- The responses of the chunks, each code before its output. -/
theorem mapIdx_cons_eq_map (K : Nat → Block) (cs : List (List Byte)) :
    cs.mapIdx (fun n c => (0x00 : Byte) :: xorChunk c (K n)) =
      (cs.mapIdx fun n c => xorChunk c (K n)).map (0x00 :: ·) := by
  simp [List.mapIdx_eq_zipIdx_map]

/-- The expansion of a STREAM leaves what the STREAM leaves, but for the responses (R188). -/
theorem foldl_chunked_opened (k : Key) (v : Block) (data : List Byte) (s : State) :
    (chunks data).foldl State.chunked (s.opened k v) =
      { s.streamed k v data with this := { (s.streamed k v data).this with
        responses := s.this.responses ++ ([0x00 :: scheduleBytes (keyExpand k), [0x00]] ++
          ((chunks data).mapIdx fun n c => xorChunk c (keystreamBlock (keyExpand k) v n)).map
            (0x00 :: ·)) } } := by
  rw [State.opened, State.respond_rekeyed_streaming, foldl_chunked_eq ⟨rfl, rfl, rfl⟩ rfl,
    State.streamed, State.respond_streaming, ← mapIdx_cons_eq_map]
  simp only [chunks_eq_nil, List.append_assoc, List.cons_append, List.nil_append]

/-- Settles O34: both sides are accepted and compared by `foldl_chunked_opened`; a wrong IV is found by the
OFBINIT after the KEYEXP has been performed, and a wrong key leaves the KEYEXP's error and nothing else. -/
theorem streamEqualsItsExpansion : Obligations.StreamEqualsItsExpansion := by
  refine ⟨fun s k v data hu hc => ?equal, fun s k iv data hu hiv => ⟨?refused, ?wrongIV⟩,
    fun s key iv data hkey => ⟨exec_stream_wrong_key_length hkey iv data s, ?wrongKey⟩⟩
  case equal =>
    have hchunks := execAll_ofbchunks (s := s.opened k v) (by simp [State.opened])
      (by simp [State.opened]) (by simpa [State.opened, State.scheduleChanging] using hc)
      (chunks_bounds data)
    refine ⟨_, _, _, _, exec_stream_accepted hu k v data, State.streamed_responses k v data s,
      (execAll_open hu k v _).trans hchunks, ?_, flatten_xorChunk_eq_streamTransform k v data, ?_⟩
    · rw [foldl_chunked_opened]
    · rw [foldl_chunked_opened]
  case refused => exact exec_stream_wrong_iv_length Vector.length_toList hiv data s
  case wrongIV =>
    refine ⟨_, (execAll_cons (exec_keyexp_accepted hu k) _).trans
      (execAll_cons (exec_ofbinit_wrong_length hiv _) []), ?_⟩
    simp
  case wrongKey =>
    rw [execAll_cons (exec_keyexp_wrong_length hkey s), execAll]
    cases exec (.ofbinit iv) (s.raise .invalidKeyLength) <;> rfl

end Sys2Proof.Machine
end

