-- ==== Sys2Proof/Proofs/Noninterference.lean ====
section
/-! SUPPORT. What an instruction can change (10_state.md R21, R27, R36) and where the use of the shared
schedule stops it (70_reset_and_hazards.md R242). -/

namespace Sys2Proof.Machine

/-! ## The registers and flags an instruction writes -/

/-- STSTATE stores the grid (R146). -/
theorem exec_ststate (s : State) : exec .ststate s = .next (s.memWrite 0 s.this.grid.toList) := rfl

/-- FBLOAD starts the stream from the IV operand (R182). -/
theorem exec_fbload (s : State) : exec .fbload s = .next ((s.setFb s.this.work.iv).setFbValid true) := rfl

/-- Of the micro-operations only KSLOAD and KSWORD write `W`, and only while no other instance is busy; only
FBLOAD writes `FB_VALID`. -/
theorem execUop_writes {i : Instr} {s t : State} (hi : i.isCommand = false) (h : exec i s = .next t) :
    (t.w = s.w ∨ ((i = .ksload ∨ ∃ j, i = .ksword j) ∧ s.scheduleInUse = false)) ∧
    (t.this.fbValid = s.this.fbValid ∨ (i = .fbload ∧ t.this.fbValid = true)) := by
  cases i with
  | keyexp _ | encblk _ | stream _ _ _ | ofbinit _ | ofbchunk _ => cases hi
  | ksload =>
    obtain ⟨hu, rfl⟩ := execKsload_next h
    exact ⟨.inr ⟨.inl rfl, hu⟩, .inl rfl⟩
  | ksword j =>
    obtain ⟨-, -, hu, rfl⟩ := execKsword_next h
    exact ⟨.inr ⟨.inr ⟨j, rfl⟩, hu⟩, .inl rfl⟩
  | addroundkey k =>
    obtain ⟨-, rfl⟩ := execAddroundkey_next h
    simp
  | ofbxor n =>
    obtain ⟨-, -, -, rfl⟩ := execOfbxor_next h
    simp
  | ldstate src => rw [next_unique h (execLdstate_eq src s)]; simp
  | subbytes => rw [next_unique h (exec_subbytes s)]; simp
  | shiftrows => rw [next_unique h (exec_shiftrows s)]; simp
  | mixcolumns => rw [next_unique h (exec_mixcolumns s)]; simp
  | ststate => rw [next_unique h (exec_ststate s)]; simp
  | fbload => rw [next_unique h (exec_fbload s)]; simp
  | fbupdate => rw [next_unique h (exec_fbupdate s)]; simp

/-- A command leaves `W` and its flag, or it leaves the expansion of a key in `W` and the flag set. -/
theorem CommandAnswer.schedule {i : Instr} {s t : State} (h : CommandAnswer s i t) :
    (t.w = s.w ∧ t.ksValid = s.ksValid) ∨
    (((∃ key, i = .keyexp key) ∨ ∃ key iv data, i = .stream key iv data) ∧ s.scheduleInUse = false ∧
      t.ksValid = true ∧ ∃ key : Key, t.w = keyExpand key) := by
  cases h with
  | keyexp k hu => exact .inr ⟨.inl ⟨_, rfl⟩, hu, by simp, k, by simp⟩
  | stream k v data hu =>
    exact .inr ⟨.inr ⟨_, _, _, rfl⟩, hu, by simp [State.streamed], k, by simp [State.streamed]⟩
  | rejected | encblk | ofbinit | ofbchunk => exact .inl (by simp)

/-- A command leaves `FB_VALID`, or clears it as KEYEXP, or sets it as OFBINIT and STREAM under a schedule
that is valid after it. -/
theorem CommandAnswer.streamFlag {i : Instr} {s t : State} (h : CommandAnswer s i t) :
    t.this.fbValid = s.this.fbValid ∨
    (t.this.fbValid = false ∧ ∃ key, i = .keyexp key) ∨
    (t.this.fbValid = true ∧ t.ksValid = true ∧
      ((∃ iv, i = .ofbinit iv) ∨ ∃ key iv data, i = .stream key iv data)) := by
  cases h with
  | rejected | encblk | ofbchunk => exact .inl (by simp)
  | keyexp k => exact .inr (.inl ⟨by simp, _, rfl⟩)
  | ofbinit v hk => exact .inr (.inr ⟨by simp, by simpa using hk, .inl ⟨_, rfl⟩⟩)
  | stream k v data =>
    exact .inr (.inr ⟨by simp [State.streamed], by simp [State.streamed], .inr ⟨_, _, _, rfl⟩⟩)

/-- No command touches another instance, the inputs from outside, or the frames still offered. -/
theorem CommandAnswer.frame {i : Instr} {s t : State} (h : CommandAnswer s i t) :
    t.peers = s.peers ∧ t.turns = s.turns ∧ t.grain = s.grain ∧ t.resetIn = s.resetIn ∧
      t.freeUsed = s.freeUsed ∧ t.this.offered = s.this.offered := by
  cases h with
  | rejected | keyexp | encblk | ofbinit | ofbchunk => simp
  | stream => simp [State.streamed]

/-- Settles O41: the micro-operations by `execUop_writes`, the commands by `CommandAnswer.schedule`. -/
theorem onlyKeyExpansionWritesSchedule : Obligations.OnlyKeyExpansionWritesSchedule := by
  intro i s t h hw
  cases hi : i.isCommand with
  | true =>
    obtain ⟨hsame, -⟩ | ⟨hkeyexp | hstream, -⟩ := (exec_answer hi h).schedule
    · exact absurd hsame hw
    · exact .inl hkeyexp
    · exact .inr (.inl hstream)
  | false =>
    obtain ⟨hsame | ⟨hksload | hksword, -⟩, -⟩ := execUop_writes hi h
    · exact absurd hsame hw
    · exact .inr (.inr (.inl hksload))
    · exact .inr (.inr (.inr hksword))

/-- Settles O43: the micro-operations by `execUop_writes`, the commands by `CommandAnswer.streamFlag`. -/
theorem streamFlagChangesOnlyByItsCommands : Obligations.StreamFlagChangesOnlyByItsCommands := by
  intro i s t h
  cases hi : i.isCommand with
  | true =>
    obtain hsame | ⟨hclear, hkeyexp⟩ | ⟨hset, -, hinit | hstream⟩ := (exec_answer hi h).streamFlag
    · rw [hsame]
      exact ⟨fun hf ht => by simp [hf] at ht, fun ht hf => by simp [ht] at hf⟩
    · exact ⟨fun _ ht => by simp [hclear] at ht, fun _ _ => hkeyexp⟩
    · exact ⟨fun _ _ => .inl hinit, fun _ hf => by simp [hset] at hf⟩
    · exact ⟨fun _ _ => .inr (.inl hstream), fun _ hf => by simp [hset] at hf⟩
  | false =>
    obtain ⟨-, hsame | ⟨hfbload, hset⟩⟩ := execUop_writes hi h
    · rw [hsame]
      exact ⟨fun hf ht => by simp [hf] at ht, fun ht hf => by simp [ht] at hf⟩
    · exact ⟨fun _ _ => .inr (.inr hfbload), fun _ hf => by simp [hset] at hf⟩

/-- No instruction touches another instance, the inputs from outside, or the frames still offered. -/
theorem exec_frame {i : Instr} {s t : State} (h : exec i s = .next t) :
    t.peers = s.peers ∧ t.turns = s.turns ∧ t.grain = s.grain ∧ t.resetIn = s.resetIn ∧
      t.freeUsed = s.freeUsed ∧ t.this.offered = s.this.offered := by
  cases hi : i.isCommand with
  | true => exact (exec_answer hi h).frame
  | false =>
    obtain ⟨-, -, -, hoffered, -, -, -, hpeers, hturns, hgrain, hreset, hfree, -⟩ := execUop_frame hi h
    exact ⟨hpeers, hturns, hgrain, hreset, hfree, hoffered⟩

/-- Settles O44: `exec_frame`. -/
theorem instructionsLeaveOtherInstancesAlone : Obligations.InstructionsLeaveOtherInstancesAlone :=
  fun _ _ _ h => exec_frame h

/-! ## The shared schedule in use -/

/-- The schedule is in use when some other instance is busy. -/
theorem scheduleInUse_iff (s : State) : s.scheduleInUse = true ↔ ∃ p ∈ s.peers, p.busy = true := by
  simp [State.scheduleInUse]

/-- The schedule is changing when some other instance has a KSLOAD or KSWORD still to issue. -/
theorem scheduleChanging_iff (s : State) :
    s.scheduleChanging = true ↔
      ∃ p ∈ s.peers, ∃ word ∈ p.work.pending, word.toNat / 64 = 1 ∨ word.toNat / 64 = 2 := by
  simp [State.scheduleChanging, writesSchedule]

/-- A KEYEXP with its key right waits for the other instances, at either grain. -/
theorem keyexp_used {s : State} (hu : s.scheduleInUse = true) (k : Key) :
    exec (.keyexp k.toList) s = .refused .scheduleInUse ∧
    start (.keyexp k.toList) s = .refused .scheduleInUse := by
  simp [exec, execKeyexp, start, startKeyexp, checkKeyexp_toList, hu]

/-- A STREAM with its key and IV right waits for the other instances, at either grain. -/
theorem stream_used {s : State} (hu : s.scheduleInUse = true) (k : Key) (v : Block) (data : List Byte) :
    exec (.stream k.toList v.toList data) s = .refused .scheduleInUse ∧
    start (.stream k.toList v.toList data) s = .refused .scheduleInUse := by
  simp [exec, execStream, start, startStream, checkStream, exactly_toList, hu]

/-- An ENCBLK whose checks pass waits for the writes of `W`, at either grain. -/
theorem encblk_changing {s : State} (hc : s.scheduleChanging = true) (hk : s.ksValid = true) (b : Block) :
    exec (.encblk b.toList) s = .refused .scheduleInUse ∧
    start (.encblk b.toList) s = .refused .scheduleInUse := by
  simp [exec, execEncblk, start, startEncblk, checkEncblk_toList hk, hc]

/-- An OFBCHUNK whose checks pass waits for the writes of `W`, at either grain. -/
theorem ofbchunk_changing {s : State} {data : List Byte} (hc : s.scheduleChanging = true)
    (h : checkOfbchunk data s = .ok ()) :
    exec (.ofbchunk data) s = .refused .scheduleInUse ∧
    start (.ofbchunk data) s = .refused .scheduleInUse := by
  simp [exec, execOfbchunk, start, startOfbchunk, h, hc]

/-- No instruction that completes changes `W` while another instance is busy. -/
theorem exec_w_used {i : Instr} {s t : State} (hu : s.scheduleInUse = true) (h : exec i s = .next t) :
    t.w = s.w := by
  cases hi : i.isCommand with
  | true =>
    obtain ⟨hsame, -⟩ | ⟨-, hunused, -⟩ := (exec_answer hi h).schedule
    · exact hsame
    · exact absurd (hu.symm.trans hunused) (by simp)
  | false =>
    obtain ⟨hsame | ⟨-, hunused⟩, -⟩ := execUop_writes hi h
    · exact hsame
    · exact absurd (hu.symm.trans hunused) (by simp)

/-- Settles O46: `encblk_changing` and `ofbchunk_changing`. -/
theorem scheduleNotReadWhileChanging : Obligations.ScheduleNotReadWhileChanging := by
  refine ⟨fun s block hlen hk hc => ?_, fun s data h1 h16 hk hf hc =>
    ofbchunk_changing ((scheduleChanging_iff s).mpr hc) (checkOfbchunk_valid h1 h16 hk hf)⟩
  obtain ⟨b, rfl⟩ := exists_toList hlen
  exact encblk_changing ((scheduleChanging_iff s).mpr hc) hk b

/-- Settles O40: the code is 3 bits wide and the flags stand in the bits above it. -/
theorem statusByteFields : Obligations.StatusByteFields := by
  intro s
  unfold State.status CoreInstance.status
  generalize s.ksValid = k, s.this.fbValid = f, s.this.busy = b, s.this.err = e
  cases e <;> revert k f b <;> decide

end Sys2Proof.Machine
end

