-- ==== Sys2Proof/Proofs/Steps.lean ====
section
/-! SUPPORT. What one step can do (00_scope.md R7): the turn, the step of the acting instance with each of
its ways to go on, and the end of a command. -/

namespace Sys2Proof.Machine

/-! ## The end of a micro-operation and of a command -/

/-- `KS_VALID` after KSWORD(59) of a command (R26). -/
theorem State.markSchedule_eq (i : Instr) (s : State) :
    s.markSchedule i =
      s.setKsValid (s.ksValid || decide (i = .ksword 59 ∧ s.this.work.running.isSome = true)) := by
  unfold State.markSchedule
  split
  · rename_i h; simp [h]
  · rename_i h; simp only [h, decide_false, Bool.or_false]; rfl

/-- The payload of a command that ends with success (R89). -/
def CommandKind.payload (s : State) : CommandKind → List Byte
  | .keyexp => scheduleBytes s.w
  | .ofbinit => []
  | .encblk | .stream | .ofbchunk => s.this.work.out.bytes

/-- A command ends with its payload, and KEYEXP ends the stream (R27, R89). -/
theorem State.finishCommand_running {s : State} {c : CommandKind} (h : s.this.work.running = some c) :
    s.finishCommand = (s.setFbValid (if c = .keyexp then false else s.this.fbValid)).respond .ok
      (c.payload s) := by
  unfold State.finishCommand
  rw [h]
  cases c <;> rfl

/-- A word outside any command ends without a response. -/
theorem State.finishCommand_idle {s : State} (h : s.this.work.running = none) :
    s.finishCommand = s.idle := by
  unfold State.finishCommand
  rw [h]

/-- After the last word the command ends, and `KS_VALID` is set if that word was KSWORD(59). -/
theorem State.afterUop_nil_running (i : Instr) {s : State} {c : CommandKind}
    (h : s.this.work.running = some c) :
    s.afterUop i [] = ((s.setKsValid (s.ksValid || decide (i = .ksword 59))).setFbValid
      (if c = .keyexp then false else s.this.fbValid)).respond .ok (c.payload s) := by
  have hmark : (s.markSchedule i).finishCommand = s.afterUop i [] := rfl
  rw [← hmark, State.markSchedule_eq, State.finishCommand_running (c := c) (by simpa using h), h]
  simp only [Option.isSome_some, and_true]
  cases c <;> rfl

/-- After the last word outside any command the core is idle. -/
theorem State.afterUop_nil_idle (i : Instr) {s : State} (h : s.this.work.running = none) :
    s.afterUop i [] = s.idle := by
  have hmark : (s.markSchedule i).finishCommand = s.afterUop i [] := rfl
  rw [← hmark, State.markSchedule_eq, State.finishCommand_idle (by simpa using h), h]
  simp only [Option.isSome_none, Bool.false_eq_true, and_false, decide_false, Bool.or_false]
  rfl

/-- After any other word the next one is pending and the counters go on. -/
theorem State.afterUop_cons (i : Instr) (word : UopWord) (rest : List UopWord) (s : State) :
    s.afterUop i (word :: rest) =
      ((s.setKsValid (s.ksValid || decide (i = .ksword 59 ∧ s.this.work.running.isSome = true))).setWork
        { s.this.work with pending := word :: rest }).setSeq
        ((s.this.seq.leaving i).toward (word :: rest)) := by
  rw [State.afterUop, State.markSchedule_eq]; rfl

/-- What the end of a word leaves of the machine, whether or not it is the last one. -/
theorem State.afterUop_frame (i : Instr) (rest : List UopWord) (s : State) :
    (s.afterUop i rest).w = s.w ∧
    (s.afterUop i rest).ksValid =
      (s.ksValid || decide (i = .ksword 59 ∧ s.this.work.running.isSome = true)) ∧
    (s.afterUop i rest).peers = s.peers ∧
    (s.afterUop i rest).this.offered = s.this.offered := by
  cases rest with
  | nil =>
    cases hrun : s.this.work.running with
    | none => rw [State.afterUop_nil_idle i hrun]; simp
    | some c => rw [State.afterUop_nil_running i hrun]; simp
  | cons word rest => rw [State.afterUop_cons]; simp

/-! ## The step of the acting instance -/

/-- Where the outside sets no reset and no turn, the acting instance steps. -/
theorem step_eq_stepInstance {s : State} (hreset : s.resetIn = false) (hturns : s.turns = []) :
    step s = stepInstance s := by
  simp [step, hreset, State.passTurn, hturns]

/-- The word at the head of the sequence is issued. -/
theorem stepInstance_pending {s : State} {word : UopWord} {rest : List UopWord}
    (h : s.this.work.pending = word :: rest) : stepInstance s = issue word rest s := by
  simp [stepInstance, h]

/-- An accepted frame is validated. -/
theorem stepInstance_held {s : State} {f : List Byte} (hp : s.this.work.pending = [])
    (hh : s.this.work.held = some f) : stepInstance s = validateFrame f s := by
  simp [stepInstance, hp, hh]

/-- With nothing in progress the port is looked at. -/
theorem stepInstance_free {s : State} (hp : s.this.work.pending = []) (hh : s.this.work.held = none) :
    stepInstance s = takeFrame s := by
  simp [stepInstance, hp, hh]

/-- The ways in which the acting instance goes on. -/
inductive InstanceStep (s : State) : State → Prop
  /-- The next word is issued. -/
  | issued {word : UopWord} {rest : List UopWord} {i : Instr} {t : State}
      (pending : s.this.work.pending = word :: rest) (decodes : decodeUop word = .ok i)
      (runs : exec i s = .next t) : InstanceStep s (t.afterUop i rest)
  /-- An accepted frame is refused. -/
  | refused {f : List Byte} (pending : s.this.work.pending = []) (held : s.this.work.held = some f)
      (e : ResultCode) : InstanceStep s (s.raise e)
  /-- An accepted frame's command begins. -/
  | begun {f : List Byte} {k : Work} (pending : s.this.work.pending = [])
      (held : s.this.work.held = some f) (noneHeld : k.held = none)
      (running : k.running.isSome = true) (words : k.pending ≠ []) (unwritten : k.out = []) :
      InstanceStep s (s.begin k)
  /-- There is nothing to do. -/
  | waited (pending : s.this.work.pending = []) (held : s.this.work.held = none) : InstanceStep s s
  /-- A malformed frame is refused, at the grain of commands. -/
  | rejected {f : List Byte} {rest : List (List Byte)} (notBusy : s.this.busy = false)
      (offered : s.this.offered = f :: rest) :
      InstanceStep s ((s.take rest).raise .illegalCommand)
  /-- A command is performed, at the grain of commands. -/
  | performed {f : List Byte} {rest : List (List Byte)} {i : Instr} {t : State}
      (notBusy : s.this.busy = false) (offered : s.this.offered = f :: rest)
      (decodes : decodeFrame f = .ok i) (runs : exec i (s.take rest) = .next t) : InstanceStep s t
  /-- A frame is accepted, at the grain of micro-operations. -/
  | accepted {f : List Byte} {rest : List (List Byte)} (fine : s.grain = .microOperation)
      (notBusy : s.this.busy = false) (offered : s.this.offered = f :: rest) :
      InstanceStep s (s.accept f rest)

/-- Issuing a word goes on in one way. -/
theorem issue_next {s t : State} {word : UopWord} {rest : List UopWord} (h : issue word rest s = .next t) :
    ∃ i u, decodeUop word = .ok i ∧ exec i s = .next u ∧ t = u.afterUop i rest := by
  unfold issue at h
  split at h
  · cases h
  · rename_i i hword
    split at h
    · rename_i u hrun
      cases h
      exact ⟨i, u, hword, hrun, rfl⟩
    · cases h
    · cases h

/-- Looking at the port goes on in one of four ways. -/
theorem takeFrame_next {s t : State} (hp : s.this.work.pending = []) (hh : s.this.work.held = none)
    (h : takeFrame s = .next t) : InstanceStep s t := by
  unfold takeFrame at h
  split at h
  · cases h; exact .waited hp hh
  · cases h; exact .waited hp hh
  · rename_i f rest hbusy hoffered
    split at h
    · unfold perform at h
      split at h
      · cases h; exact .rejected hbusy hoffered
      · rename_i hframe
        exact .performed hbusy hoffered hframe h
    · rename_i hgrain
      cases h
      exact .accepted hgrain hbusy hoffered

/-- The acting instance goes on in no other way. -/
theorem stepInstance_next {s t : State} (h : stepInstance s = .next t) : InstanceStep s t := by
  cases hp : s.this.work.pending with
  | cons word rest =>
    rw [stepInstance_pending hp] at h
    obtain ⟨i, u, hword, hrun, rfl⟩ := issue_next h
    exact .issued hp hword hrun
  | nil =>
    cases hh : s.this.work.held with
    | none => exact takeFrame_next hp hh (stepInstance_free hp hh ▸ h)
    | some f =>
      rw [stepInstance_held hp hh, validateFrame] at h
      split at h
      · cases h; exact .refused hp hh _
      · obtain ⟨e, rfl⟩ | ⟨k, rfl, hkh, hkr, hkp, hko⟩ := start_cases h
        · exact .refused hp hh e
        · exact .begun hp hh hkh hkr hkp hko

/-- No step touches another instance. -/
theorem InstanceStep.peers {s t : State} (h : InstanceStep s t) : t.peers = s.peers := by
  cases h with
  | @issued word rest i t hp hword hrun => exact (t.afterUop_frame i rest).2.2.1.trans (exec_frame hrun).1
  | refused | begun | rejected => simp
  | waited | accepted => rfl
  | performed hb ho hf hrun => simpa using (exec_frame hrun).1

/-! ## The turn -/

/-- Taking the turn moves the instances around and nothing else. -/
structure State.SameButTurn (s t : State) : Prop where
  instances : (t.this :: t.peers).Perm (s.this :: s.peers)
  w : t.w = s.w
  ksValid : t.ksValid = s.ksValid
  grain : t.grain = s.grain
  resetIn : t.resetIn = s.resetIn

/-- The turn passes to the next instance. -/
theorem State.nextInstance_sameButTurn (s : State) : s.SameButTurn s.nextInstance := by
  unfold State.nextInstance
  split
  · exact ⟨.rfl, rfl, rfl, rfl, rfl⟩
  · rename_i p ps hpeers
    refine ⟨?_, rfl, rfl, rfl, rfl⟩
    rw [hpeers]
    exact (List.perm_append_singleton s.this (p :: ps))

/-- The turn passes on by any number of places. -/
theorem State.rotate_sameButTurn (k : Nat) (s : State) : s.SameButTurn (State.rotate k s) := by
  induction k generalizing s with
  | zero => exact ⟨.rfl, rfl, rfl, rfl, rfl⟩
  | succ k ih =>
    have hnext := s.nextInstance_sameButTurn
    have hlater := ih s.nextInstance
    exact ⟨hlater.instances.trans hnext.instances, hlater.w.trans hnext.w,
      hlater.ksValid.trans hnext.ksValid, hlater.grain.trans hnext.grain,
      hlater.resetIn.trans hnext.resetIn⟩

/-- The turn set from outside is taken. -/
theorem State.passTurn_sameButTurn (s : State) : s.SameButTurn s.passTurn := by
  unfold State.passTurn
  split
  · exact ⟨.rfl, rfl, rfl, rfl, rfl⟩
  · have h := State.rotate_sameButTurn
    rename_i k ts hturns
    exact ⟨(h k { s with turns := ts }).instances, (h k _).w, (h k _).ksValid, (h k _).grain,
      (h k _).resetIn⟩

/-- What holds of every instance before the turn is taken holds after it. -/
theorem State.SameButTurn.forall_instances {s t : State} (h : s.SameButTurn t)
    {P : CoreInstance → Prop} (hP : ∀ c ∈ s.this :: s.peers, P c) : ∀ c ∈ t.this :: t.peers, P c :=
  fun c hc => hP c (h.instances.mem_iff.mp hc)

/-- A step without reset is the step of the instance whose turn it is. -/
theorem step_next {s t : State} (hreset : s.resetIn = false) (h : step s = .next t) :
    InstanceStep s.passTurn t :=
  stepInstance_next (by simpa [step, hreset] using h)

/-! ## What a step does with frames and words -/

/-- A frame at the head of the port is performed, at the grain of commands. -/
theorem step_command {s : State} {f : List Byte} {rest : List (List Byte)} (h : s.ReadyFor f rest)
    (hgrain : s.grain = .command) : step s = perform f (s.take rest) := by
  rw [step_eq_stepInstance h.noReset h.sameTurn, stepInstance_free h.nonePending h.noneHeld]
  simp [takeFrame, h.notBusy, h.offered, hgrain]

/-- A frame at the head of the port is accepted, at the grain of micro-operations. -/
theorem step_accept {s : State} {f : List Byte} {rest : List (List Byte)} (h : s.ReadyFor f rest)
    (hgrain : s.grain = .microOperation) : step s = .next (s.accept f rest) := by
  rw [step_eq_stepInstance h.noReset h.sameTurn, stepInstance_free h.nonePending h.noneHeld]
  simp [takeFrame, h.notBusy, h.offered, hgrain]

/-- An accepted frame is validated by the next step. -/
theorem step_held {s : State} {f : List Byte} (hreset : s.resetIn = false) (hturns : s.turns = [])
    (hp : s.this.work.pending = []) (hh : s.this.work.held = some f) : step s = validateFrame f s := by
  rw [step_eq_stepInstance hreset hturns, stepInstance_held hp hh]

/-- Settles O3: the malformed frames by `decodeFrame_error_iff_malformed`; each grain refuses what does
not decode. -/
theorem malformedFrameRaisesIllegalCommand : Obligations.MalformedFrameRaisesIllegalCommand := by
  refine ⟨decodeFrame_error_iff_malformed, fun s f rest hready hgrain hf => ?_,
    fun s f hreset hturns hp hh hf => ?_⟩
  · obtain ⟨e, he⟩ := (decodeFrame_error_iff_malformed f).mpr hf
    rw [step_command hready hgrain, perform_error he]
  · obtain ⟨e, he⟩ := (decodeFrame_error_iff_malformed f).mpr hf
    rw [step_held hreset hturns hp hh, validateFrame, he]

/-- Settles O48: `step_command`; with no frame offered the port has nothing to take. -/
theorem stepPerformsDecodedFrame : Obligations.StepPerformsDecodedFrame := by
  refine ⟨fun s f rest i hready hgrain hf => ?_, fun s hreset hturns hh hp hoffered => ?_⟩
  · rw [step_command hready hgrain, perform, hf]
  · rw [step_eq_stepInstance hreset hturns, stepInstance_free hp hh]
    cases hbusy : s.this.busy <;> simp [takeFrame, hbusy, hoffered]

/-- A word is issued by the next step. -/
theorem step_issuing {s : State} {word : UopWord} {rest : List UopWord} (h : s.Issuing word rest) :
    step s = issue word rest s := by
  rw [step_eq_stepInstance h.noReset h.sameTurn, stepInstance_pending h.pending]

/-- A word that completes is followed by the rest of its sequence. -/
theorem step_issuing_next {s t : State} {word : UopWord} {rest : List UopWord} {i : Instr}
    (h : s.Issuing word rest) (hword : decodeUop word = .ok i) (hrun : exec i s = .next t) :
    step s = .next (t.afterUop i rest) := by
  rw [step_issuing h]
  simp only [issue, hword, hrun]

/-- A micro-operation leaves the operands, the words and the kind of the command in progress. -/
theorem execUop_running {word : UopWord} {i : Instr} {s t : State} (hword : decodeUop word = .ok i)
    (h : exec i s = .next t) : t.this.work.running = s.this.work.running := by
  obtain ⟨-, -, -, -, -, hwork, -⟩ := execUop_frame (decodeUop_isCommand hword) h
  rw [hwork]

/-- Settles O49: the step by `step_issuing`, the words left by `State.afterUop_cons`, the end by
`State.afterUop_nil_idle` and `State.afterUop_nil_running`. -/
theorem stepIssuesDecodedMicroOperation : Obligations.StepIssuesDecodedMicroOperation := by
  intro s word rest i hs hword
  refine ⟨fun t hrun hrest => ?left, fun t hrun hrest hidle => ?idle, fun t c hrun hrest hc => ?ended,
    fun r hrun => ?refused, fun e hrun => ?fault⟩
  case left =>
    refine ⟨_, step_issuing_next hs hword hrun, ?_⟩
    obtain ⟨word', rest', rfl⟩ := List.exists_cons_of_ne_nil hrest
    rw [State.afterUop_cons, ← execUop_running hword hrun]
    rfl
  case idle =>
    rw [step_issuing_next hs hword hrun, hrest,
      State.afterUop_nil_idle i ((execUop_running hword hrun).trans hidle)]
    rfl
  case ended =>
    rw [step_issuing_next hs hword hrun, hrest,
      State.afterUop_nil_running i ((execUop_running hword hrun).trans hc)]
    cases c <;> rfl
  case refused => simp only [step_issuing hs, issue, hword, hrun]
  case fault => simp only [step_issuing hs, issue, hword, hrun]

/-- Settles O42: the turn and every step of an instance keep the flag; a command may set it. -/
theorem onlyResetClearsScheduleFlag : Obligations.OnlyResetClearsScheduleFlag := by
  intro s t h hreset hk
  have hk' : s.passTurn.ksValid = true := s.passTurn_sameButTurn.ksValid.trans hk
  cases step_next hreset h with
  | @issued word rest i u hp hword hrun =>
    obtain ⟨-, hflag, -, -⟩ := u.afterUop_frame i rest
    obtain ⟨-, -, -, -, -, -, hsame, -⟩ := execUop_frame (decodeUop_isCommand hword) hrun
    rw [hflag, hsame, hk', Bool.true_or]
  | refused | begun | rejected => simpa using hk'
  | waited | accepted => exact hk'
  | performed hb ho hf hrun =>
    obtain ⟨-, hsame⟩ | ⟨-, -, hset, -⟩ := (exec_answer (decodeFrame_isCommand hf) hrun).schedule
    · exact hsame.trans hk'
    · exact hset

/-- Settles O45: KEYEXP, STREAM, KSLOAD and KSWORD by their own tests; the rest of a step writes no `W`. -/
theorem sharedScheduleNotRewrittenInUse : Obligations.SharedScheduleNotRewrittenInUse := by
  refine ⟨fun s key hlen hu => ?_, fun s key iv data hk hv hu => ?_, fun s hu => ?_, fun i s t hu h =>
    exec_w_used ((scheduleInUse_iff s).mpr hu) h, fun s t hreset hturns hu h => ?_⟩
  · obtain ⟨k, rfl⟩ := exists_toList hlen
    exact keyexp_used ((scheduleInUse_iff s).mpr hu) k
  · obtain ⟨k, rfl⟩ := exists_toList hk
    obtain ⟨v, rfl⟩ := exists_toList hv
    exact stream_used ((scheduleInUse_iff s).mpr hu) k v data
  · have hused := writeSchedule_used ((scheduleInUse_iff s).mpr hu)
    exact ⟨hused _, fun i hi hi' => (if_pos ⟨hi, Nat.le_of_lt_succ hi'⟩).trans (hused _)⟩
  · rw [step_eq_stepInstance hreset hturns] at h
    rw [← scheduleInUse_iff] at hu
    cases stepInstance_next h with
    | @issued word rest i u hp hword hrun =>
      exact (u.afterUop_frame i rest).1.trans (exec_w_used hu hrun)
    | refused | begun | rejected => simp
    | waited | accepted => rfl
    | @performed f rest i t hb ho hf hrun => exact exec_w_used (s := s.take rest) hu hrun

end Sys2Proof.Machine
end

