-- ==== Sys2Proof/Proofs/Invariants.lean ====
section
/-! SUPPORT. Reset (10_state.md R37, 70_reset_and_hazards.md R235), and the two invariants that every step
keeps: between commands (R35, R215, R251) and inside a command (R30, R31, R51, R246). -/

namespace Sys2Proof.Machine

/-! ## Reset -/

@[simp] theorem State.underReset_this (s : State) : s.underReset.this = s.this.underReset s.freeUsed := rfl
@[simp] theorem State.underReset_peers (s : State) :
    s.underReset.peers = resetPeers (s.freeUsed + 32) s.peers := rfl
@[simp] theorem State.underReset_ksValid (s : State) : s.underReset.ksValid = false := rfl
@[simp] theorem State.underReset_grain (s : State) : s.underReset.grain = s.grain := by
  simp only [State.underReset]
@[simp] theorem State.underReset_resetIn (s : State) : s.underReset.resetIn = s.resetIn := by
  simp only [State.underReset]

/-- The frames offered to an instance are the host's and stay. -/
theorem CoreInstance.underReset_offered (base : Nat) (c : CoreInstance) :
    (c.underReset base).offered = c.offered := by
  simp only [CoreInstance.underReset]

/-- What an instance has answered is the host's and stays. -/
theorem CoreInstance.underReset_responses (base : Nat) (c : CoreInstance) :
    (c.underReset base).responses = c.responses := by
  simp only [CoreInstance.underReset]

/-- What the spec states of an instance after reset (R37). -/
structure CoreInstance.Cleared (c : CoreInstance) : Prop where
  resting : c.Resting
  noStream : c.fbValid = false
  noError : c.err = .ok

/-- Every field of `STATUS` of a cleared instance is 0 while there is no schedule (R28). -/
theorem CoreInstance.Cleared.status_eq {c : CoreInstance} (h : c.Cleared) : c.status false = 0x00 := by
  obtain ⟨⟨hbusy, -, -⟩, hfb, herr⟩ := h
  rw [CoreInstance.status, hbusy, hfb, herr]
  rfl

/-- An instance after reset is cleared. -/
theorem CoreInstance.cleared_reset : CoreInstance.reset.Cleared := ⟨⟨rfl, rfl, rfl⟩, rfl, rfl⟩

/-- An instance under reset is cleared. -/
theorem CoreInstance.cleared_underReset (base : Nat) (c : CoreInstance) : (c.underReset base).Cleared :=
  ⟨⟨rfl, rfl, rfl⟩, rfl, rfl⟩

/-- The other instances under reset are cleared. -/
theorem cleared_resetPeers (base : Nat) (cs : List CoreInstance) :
    ∀ c ∈ resetPeers base cs, c.Cleared := by
  induction cs generalizing base with
  | nil => simp [resetPeers]
  | cons c cs ih => exact List.forall_mem_cons.mpr ⟨c.cleared_underReset base, ih (base + 32)⟩

/-- What reset leaves of the other instances is theirs, one by one. -/
theorem map_resetPeers {α : Type} (view : CoreInstance → α)
    (hview : ∀ base c, view (c.underReset base) = view c) (base : Nat) (cs : List CoreInstance) :
    (resetPeers base cs).map view = cs.map view := by
  induction cs generalizing base with
  | nil => rfl
  | cons c cs ih => rw [resetPeers, List.map_cons, List.map_cons, hview, ih]

/-- Every instance under reset is cleared. -/
theorem State.cleared_underReset (s : State) :
    ∀ c ∈ s.underReset.this :: s.underReset.peers, c.Cleared :=
  List.forall_mem_cons.mpr ⟨s.this.cleared_underReset _, cleared_resetPeers _ _⟩

/-- Every instance after reset is cleared. -/
theorem State.cleared_resetOf (n : Nat) :
    ∀ c ∈ (State.resetOf n).this :: (State.resetOf n).peers, c.Cleared := by
  refine List.forall_mem_cons.mpr ⟨CoreInstance.cleared_reset, fun c hc => ?_⟩
  rw [List.eq_of_mem_replicate hc]
  exact CoreInstance.cleared_reset

/-- A step under reset. -/
theorem step_reset {s : State} (h : s.resetIn = true) : step s = .next s.underReset := by
  simp [step, h]

/-- Settles O53: every instance is cleared by `State.cleared_underReset`; its frames and responses are
its own. -/
theorem resetEventClearsFlags : Obligations.ResetEventClearsFlags := by
  intro s hreset
  refine ⟨s.underReset, step_reset hreset, s.underReset_ksValid, s.underReset_resetIn.trans hreset,
    fun c hc => ?cleared, ?offered, ?responses⟩
  case cleared =>
    have hclear := s.cleared_underReset c hc
    rw [State.underReset_ksValid]
    exact ⟨hclear.resting, hclear.noStream, hclear.noError, hclear.status_eq⟩
  case offered =>
    rw [State.underReset_peers, List.map_cons, map_resetPeers _ CoreInstance.underReset_offered,
      State.underReset_this, CoreInstance.underReset_offered, List.map_cons]
  case responses =>
    rw [State.underReset_peers, List.map_cons, map_resetPeers _ CoreInstance.underReset_responses,
      State.underReset_this, CoreInstance.underReset_responses, List.map_cons]

/-- Settles O54: every instance is cleared by `State.cleared_resetOf`. -/
theorem resetStateAsTabulated : Obligations.ResetStateAsTabulated := by
  intro n hn
  refine ⟨rfl, ?_, fun c hc => ?_⟩
  · simp only [State.resetOf, List.length_cons, List.length_replicate]
    omega
  · have hclear := State.cleared_resetOf n c hc
    exact ⟨hclear.resting, hclear.noStream, hclear.noError, hclear.status_eq⟩

/-! ## Between commands -/

/-- Cleared instances without a schedule are between commands. -/
theorem State.betweenCommands_of_cleared {s : State} (hgrain : s.grain = .command)
    (hk : s.ksValid = false) (h : ∀ c ∈ s.this :: s.peers, c.Cleared) : s.BetweenCommands where
  wholeCommands := hgrain
  resting c hc := (h c hc).resting
  schedule ht := by simp [hk] at ht
  stream c hc hf := by simp [(h c hc).noStream] at hf

/-- Settles O55: at reset every instance is cleared. -/
theorem betweenCommandsAtReset : Obligations.BetweenCommandsAtReset :=
  fun n => State.betweenCommands_of_cleared rfl rfl (State.cleared_resetOf n)

/-- Taking the turn keeps the invariant. -/
theorem State.BetweenCommands.passTurn {s : State} (h : s.BetweenCommands) :
    s.passTurn.BetweenCommands := by
  have hturn := s.passTurn_sameButTurn
  refine ⟨hturn.grain.trans h.wholeCommands, hturn.forall_instances h.resting, ?_, ?_⟩
  · rw [hturn.ksValid, hturn.w]
    exact h.schedule
  · rw [hturn.ksValid]
    exact hturn.forall_instances h.stream

/-- Between commands no instance is busy. -/
theorem State.BetweenCommands.scheduleInUse {s : State} (h : s.BetweenCommands) :
    s.scheduleInUse = false := by
  simp only [State.scheduleInUse, List.any_eq_false]
  exact fun p hp => by simp [(h.resting p (List.mem_cons_of_mem _ hp)).notBusy]

/-- Between commands no instance is writing `W`. -/
theorem State.BetweenCommands.scheduleChanging {s : State} (h : s.BetweenCommands) :
    s.scheduleChanging = false := by
  simp only [State.scheduleChanging, List.any_eq_false]
  exact fun p hp => by simp [(h.resting p (List.mem_cons_of_mem _ hp)).noWork, Work.none]

/-- The frame at the head of the port is taken. -/
theorem State.BetweenCommands.take {s : State} (h : s.BetweenCommands) (rest : List (List Byte)) :
    (s.take rest).BetweenCommands where
  wholeCommands := h.wholeCommands
  resting := by
    obtain ⟨⟨hbusy, hseq, hwork⟩, hpeers⟩ := List.forall_mem_cons.mp h.resting
    exact List.forall_mem_cons.mpr ⟨⟨hbusy, hseq, hwork⟩, hpeers⟩
  schedule := h.schedule
  stream := by
    obtain ⟨hthis, hpeers⟩ := List.forall_mem_cons.mp h.stream
    exact List.forall_mem_cons.mpr ⟨hthis, hpeers⟩

/-- Raising an error keeps the invariant. -/
theorem State.BetweenCommands.raise {s : State} (h : s.BetweenCommands) (e : ResultCode) :
    (s.raise e).BetweenCommands where
  wholeCommands := h.wholeCommands
  resting := List.forall_mem_cons.mpr ⟨⟨rfl, rfl, rfl⟩, (List.forall_mem_cons.mp h.resting).2⟩
  schedule := h.schedule
  stream := by
    obtain ⟨hthis, hpeers⟩ := List.forall_mem_cons.mp h.stream
    exact List.forall_mem_cons.mpr ⟨hthis, hpeers⟩

/-- A command keeps the invariant: it leaves an idle instance, and a schedule it writes is the expansion
of a key. -/
theorem State.BetweenCommands.command {i : Instr} {s t : State} (h : s.BetweenCommands)
    (hi : i.isCommand = true) (hrun : exec i s = .next t) : t.BetweenCommands := by
  obtain ⟨hbusy, hseq, hwork, hpeers, -⟩ := execCommand_answers hi hrun
  have hanswer := exec_answer hi hrun
  have hflag : s.ksValid = true → t.ksValid = true := by
    obtain ⟨-, hsame⟩ | ⟨-, -, hset, -⟩ := hanswer.schedule
    · rw [hsame]; exact id
    · exact fun _ => hset
  refine ⟨hanswer.frame.2.2.1.trans h.wholeCommands, ?_, ?_, ?_⟩
  · rw [hpeers]
    exact List.forall_mem_cons.mpr ⟨⟨hbusy, hseq, hwork⟩, (List.forall_mem_cons.mp h.resting).2⟩
  · obtain ⟨hw, hsame⟩ | ⟨-, -, -, hexpanded⟩ := hanswer.schedule
    · rw [hw, hsame]; exact h.schedule
    · exact fun _ => hexpanded
  · obtain ⟨hthis, hothers⟩ := List.forall_mem_cons.mp h.stream
    rw [hpeers]
    refine List.forall_mem_cons.mpr ⟨fun hf => ?_, fun p hp hf => hflag (hothers p hp hf)⟩
    obtain hsame | ⟨hclear, -⟩ | ⟨-, hk, -⟩ := hanswer.streamFlag
    · exact hflag (hthis (hsame.symm.trans hf))
    · exact absurd (hf.symm.trans hclear) (by simp)
    · exact hk

/-- Settles O56: under reset every instance is cleared; otherwise a resting instance waits, refuses a
malformed frame, or performs a command. -/
theorem stepKeepsBetweenCommands : Obligations.StepKeepsBetweenCommands := by
  intro s t hs h
  cases hreset : s.resetIn with
  | true =>
    rw [next_unique h (step_reset hreset)]
    exact State.betweenCommands_of_cleared (s.underReset_grain.trans hs.wholeCommands)
      s.underReset_ksValid s.cleared_underReset
  | false =>
    have hturn := hs.passTurn
    obtain ⟨hbusy, hseq, hwork⟩ := hturn.resting _ (List.mem_cons_self)
    cases step_next hreset h with
    | issued hp => simp [hwork, Work.none] at hp
    | refused hp hh => simp [hwork, Work.none] at hh
    | begun hp hh => simp [hwork, Work.none] at hh
    | waited => exact hturn
    | rejected => exact (hturn.take _).raise _
    | performed hb ho hf hrun => exact (hturn.take _).command (decodeFrame_isCommand hf) hrun
    | accepted hfine => exact absurd (hfine.symm.trans hturn.wholeCommands) (by simp)

/-! ## Inside a command -/

/-- An idle instance is sound. -/
theorem CoreInstance.Resting.sound {c : CoreInstance} (h : c.Resting) : c.Sound := by
  obtain ⟨hbusy, hseq, hwork⟩ := h
  refine ⟨?_, ?_, ?_, ?_, ?_⟩
  · rw [hseq]; exact ⟨by decide, by decide, rfl⟩
  · rw [hwork]; exact Memory.wf_empty
  · rw [hbusy, hwork]; simp [Work.none]
  · rw [hwork]; simp [Work.none]
  · rw [hwork]; simp [Work.none]

/-- Settles O60: at reset every instance is idle. -/
theorem soundAtReset : Obligations.SoundAtReset :=
  fun n c hc => (State.cleared_resetOf n c hc).resting.sound

/-- Coming to a micro-operation keeps the counters in range. -/
theorem Seq.legal_entering {q : Seq} (h : q.legal) (i : Instr) : (q.entering i).legal := by
  obtain ⟨hwi, hrnd, hoff⟩ := h
  cases i with
  | ksload => exact ⟨by simp [Seq.entering], hrnd, hoff⟩
  | ldstate src => exact ⟨hwi, by simp [Seq.entering], hoff⟩
  | _ => exact ⟨hwi, hrnd, hoff⟩

/-- Coming to the next word keeps the counters in range. -/
theorem Seq.legal_toward {q : Seq} (h : q.legal) (ws : List UopWord) : (q.toward ws).legal := by
  unfold Seq.toward
  split
  · exact h
  · split
    · exact Seq.legal_entering h _
    · exact h

/-- A micro-operation that completes counts within the range of its argument. -/
theorem Seq.legal_leaving {q : Seq} (h : q.legal) {i : Instr} {s t : State}
    (hrun : exec i s = .next t) : (q.leaving i).legal := by
  obtain ⟨hwi, hrnd, hoff⟩ := h
  cases i with
  | ksword j =>
    obtain ⟨-, hj, -⟩ := execKsword_next hrun
    exact ⟨Nat.succ_le_succ hj, hrnd, hoff⟩
  | addroundkey k =>
    simp only [Seq.leaving, Config.nr]
    split
    · exact ⟨hwi, by simpa using (by omega : k + 1 ≤ 14), hoff⟩
    · exact ⟨hwi, hrnd, hoff⟩
  | fbupdate => exact ⟨hwi, hrnd, by simp [Seq.leaving, hoff]⟩
  | _ => exact ⟨hwi, hrnd, hoff⟩

/-- Issuing a word keeps a sound instance sound: it stays busy with its words, or it is idle. -/
theorem CoreInstance.Sound.issued {s u : State} {word : UopWord} {rest : List UopWord} {i : Instr}
    (h : s.this.Sound) (hp : s.this.work.pending = word :: rest) (hword : decodeUop word = .ok i)
    (hrun : exec i s = .next u) : (u.afterUop i rest).this.Sound := by
  obtain ⟨hbusy, hseq, -, -, -, hwork, -, -, -, -, -, -, hout⟩ :=
    execUop_frame (decodeUop_isCommand hword) hrun
  have hheld : u.this.work.held = s.this.work.held := by rw [hwork]
  have hrunning : u.this.work.running = s.this.work.running := by rw [hwork]
  have hnone : s.this.work.held.isSome ≠ true := fun hh => by
    have := (h.validating hh).2.2
    simp [hp] at this
  cases rest with
  | nil =>
    refine CoreInstance.Resting.sound ?_
    cases hr : u.this.work.running with
    | none => rw [State.afterUop_nil_idle i hr]; exact ⟨rfl, rfl, rfl⟩
    | some c => rw [State.afterUop_nil_running i hr]; exact ⟨rfl, rfl, rfl⟩
  | cons word' rest =>
    rw [State.afterUop_cons]
    refine ⟨?_, hout h.result, ?_, ?_, ?_⟩
    · exact Seq.legal_toward (Seq.legal_leaving (hseq ▸ h.counters) hrun) _
    · simpa [hbusy, hheld, hrunning] using h.busyIff
    · exact fun hh => absurd (by simpa [hheld] using hh) hnone
    · simp

/-- Settles O57: under reset every instance is idle; otherwise the other instances stay, and the acting one
is idle again, has begun a command, or has issued a word. -/
theorem stepKeepsCountersAndResultSound : Obligations.StepKeepsCountersAndResultSound := by
  intro s t hs h
  cases hreset : s.resetIn with
  | true =>
    rw [next_unique h (step_reset hreset)]
    exact fun c hc => (s.cleared_underReset c hc).resting.sound
  | false =>
    have hstep := step_next hreset h
    obtain ⟨hthis, hpeers⟩ := List.forall_mem_cons.mp (s.passTurn_sameButTurn.forall_instances hs)
    refine List.forall_mem_cons.mpr ⟨?_, hstep.peers ▸ hpeers⟩
    cases hstep with
    | issued hp hword hrun => exact hthis.issued hp hword hrun
    | refused => exact CoreInstance.Resting.sound ⟨rfl, rfl, rfl⟩
    | waited => exact hthis
    | rejected => exact CoreInstance.Resting.sound ⟨rfl, rfl, rfl⟩
    | performed hb ho hf hrun =>
      obtain ⟨hbusy, hseq, hwork, -⟩ := execCommand_answers (decodeFrame_isCommand hf) hrun
      exact CoreInstance.Resting.sound ⟨hbusy, hseq, hwork⟩
    | begun hp hh hnone hrunning hwords hout =>
      have hheld : s.passTurn.this.work.held.isSome = true := by rw [hh]; rfl
      refine ⟨Seq.legal_toward hthis.counters _, by simp [hout, Memory.wf_empty], ?_, ?_, fun _ => hwords⟩
      · simpa [hnone, hrunning] using hthis.busyIff.mpr (.inl hheld)
      · simp [hnone]
    | accepted =>
      exact ⟨⟨Nat.zero_le _, Nat.zero_le _, rfl⟩, Memory.wf_empty, by simp [State.accept],
        fun _ => ⟨rfl, rfl, rfl⟩, fun hr => by simp [State.accept, Work.none] at hr⟩

/-! ## The port while a command is in progress -/

/-- A busy instance goes on being busy and silent, or answers once and is idle. -/
theorem InstanceStep.busy_goes_on {s t : State} (hs : s.this.Sound) (hbusy : s.this.busy = true)
    (h : InstanceStep s t) :
    (t.this.busy = true ∧ t.this.responses = s.this.responses) ∨
    (t.this.busy = false ∧ ∃ r : List Byte, t.this.responses = s.this.responses ++ [r]) := by
  cases h with
  | @issued word rest i u hp hword hrun =>
    obtain ⟨hub, -, -, -, hur, -⟩ := execUop_frame (decodeUop_isCommand hword) hrun
    have hrunning : s.this.work.running.isSome = true :=
      (hs.busyIff.mp hbusy).resolve_left fun hheld => by
        have := (hs.validating hheld).2.2
        simp [hp] at this
    obtain ⟨c, hc⟩ := Option.isSome_iff_exists.mp hrunning
    cases rest with
    | nil =>
      rw [State.afterUop_nil_running i ((execUop_running hword hrun).trans hc)]
      exact .inr ⟨rfl, _, congrArg (· ++ _) hur⟩
    | cons word' rest =>
      rw [State.afterUop_cons]
      exact .inl ⟨hub.trans hbusy, hur⟩
  | refused => exact .inr ⟨rfl, _, rfl⟩
  | begun | waited => exact .inl ⟨hbusy, rfl⟩
  | rejected hfree | performed hfree | accepted _ hfree => exact absurd (hbusy.symm.trans hfree) (by simp)

/-- The instance takes at most the head of its port, and nothing while it is busy. -/
theorem InstanceStep.offered {s t : State} (h : InstanceStep s t) :
    t.this.offered = s.this.offered ∨
    (s.this.busy = false ∧ t.this.offered = s.this.offered.tail) := by
  cases h with
  | @issued word rest i u hp hword hrun =>
    exact .inl ((u.afterUop_frame i rest).2.2.2.trans (exec_frame hrun).2.2.2.2.2)
  | refused | begun | waited => exact .inl rfl
  | rejected hb ho => exact .inr ⟨hb, by simp [ho]⟩
  | performed hb ho hf hrun => exact .inr ⟨hb, by simpa [ho] using (exec_frame hrun).2.2.2.2.2⟩
  | accepted hfine hb ho => exact .inr ⟨hb, by simp [ho, State.accept]⟩

/-- Settles O47: the port by `InstanceStep.offered`, acceptance by `step_accept`, and what comes after it by
`InstanceStep.busy_goes_on`. -/
theorem busyPortHoldsFramesBack : Obligations.BusyPortHoldsFramesBack := by
  refine ⟨fun s t hreset hturns h => ?_, fun s f rest hready hgrain => ?_,
    fun s t hs hreset hturns hbusy h => ?_⟩
  · rw [step_eq_stepInstance hreset hturns] at h
    obtain hsame | ⟨hfree, htail⟩ := (stepInstance_next h).offered
    · exact ⟨fun _ => hsame, .inl hsame⟩
    · exact ⟨fun hbusy => absurd (hbusy.symm.trans hfree) (by simp), .inr htail⟩
  · exact step_accept hready hgrain
  · rw [step_eq_stepInstance hreset hturns] at h
    exact (stepInstance_next h).busy_goes_on (hs _ List.mem_cons_self) hbusy

end Sys2Proof.Machine
end

