-- ==== Sys2Proof/Proofs/Unobservable.lean ====
section
/-! SUPPORT. Registers that hold no value are not observable (10_state.md R32, R37, R38): every operation a
command is made of keeps two machines alike that differ only in such registers. -/

namespace Sys2Proof.Machine

/-! ## The operations keep two machines alike -/

section
variable {s t : State} (h : s.SameValues t)
include h

/-- The frame at the head of the port is taken from both. -/
theorem State.SameValues.take (rest : List (List Byte)) : (s.take rest).SameValues (t.take rest) :=
  ⟨h.ksValid, h.w, ⟨h.this.fbValid, h.this.fb, h.this.err, h.this.busy, h.this.seq, h.this.work, rfl,
    h.this.responses⟩, h.peers, h.turns, h.grain, h.resetIn⟩

/-- `S` may be written differently. -/
theorem State.SameValues.setGrid (g g' : Block) : (s.setGrid g).SameValues (t.setGrid g') :=
  ⟨h.ksValid, h.w, ⟨h.this.fbValid, h.this.fb, h.this.err, h.this.busy, h.this.seq, h.this.work,
    h.this.offered, h.this.responses⟩, h.peers, h.turns, h.grain, h.resetIn⟩

/-- The same feedback is written to both. -/
theorem State.SameValues.setFb (b : Block) : (s.setFb b).SameValues (t.setFb b) :=
  ⟨h.ksValid, h.w, ⟨h.this.fbValid, fun _ => rfl, h.this.err, h.this.busy, h.this.seq, h.this.work,
    h.this.offered, h.this.responses⟩, h.peers, h.turns, h.grain, h.resetIn⟩

/-- Both streams end, whatever their feedback was. -/
theorem State.SameValues.endStream : (s.setFbValid false).SameValues (t.setFbValid false) :=
  ⟨h.ksValid, h.w, ⟨rfl, nofun, h.this.err, h.this.busy, h.this.seq, h.this.work, h.this.offered,
    h.this.responses⟩, h.peers, h.turns, h.grain, h.resetIn⟩

/-- Both streams start with the same feedback. -/
theorem State.SameValues.startStream (b : Block) :
    ((s.setFb b).setFbValid true).SameValues ((t.setFb b).setFbValid true) :=
  ⟨h.ksValid, h.w, ⟨rfl, fun _ => rfl, h.this.err, h.this.busy, h.this.seq, h.this.work,
    h.this.offered, h.this.responses⟩, h.peers, h.turns, h.grain, h.resetIn⟩

/-- The same schedule becomes valid in both. -/
theorem State.SameValues.rekey (w : Schedule) :
    ((s.setW w).setKsValid true).SameValues ((t.setW w).setKsValid true) :=
  ⟨rfl, fun _ => rfl, h.this, h.peers, h.turns, h.grain, h.resetIn⟩

/-- The same response is given by both. -/
theorem State.SameValues.respond (c : ResultCode) (p : List Byte) :
    (s.respond c p).SameValues (t.respond c p) :=
  ⟨h.ksValid, h.w, ⟨h.this.fbValid, h.this.fb, rfl, rfl, rfl, rfl, h.this.offered,
    congrArg (· ++ _) h.this.responses⟩, h.peers, h.turns, h.grain, h.resetIn⟩

/-- The turn passes to the next instance of both. -/
theorem State.SameValues.nextInstance : s.nextInstance.SameValues t.nextInstance := by
  have hpeers := h.peers
  unfold State.nextInstance
  cases hs : s.peers with
  | nil =>
    rw [hs] at hpeers
    rw [List.forall₂_nil_left_iff.mp hpeers]
    exact h
  | cons p ps =>
    rw [hs] at hpeers
    obtain ⟨q, qs, hp, hps, ht⟩ := List.forall₂_cons_left_iff.mp hpeers
    rw [ht]
    exact ⟨h.ksValid, h.w, hp, List.rel_append hps (.cons h.this .nil), h.turns, h.grain, h.resetIn⟩

/-- Every check reads only values (R32). -/
theorem State.SameValues.firstFailure_eq (i : Instr) : firstFailure i s = firstFailure i t := by
  cases i <;> simp only [firstFailure, h.ksValid, h.this.fbValid]

end

/-- The turn passes on by any number of places in both. -/
theorem State.SameValues.rotate {s t : State} (h : s.SameValues t) (k : Nat) :
    (State.rotate k s).SameValues (State.rotate k t) := by
  induction k generalizing s t with
  | zero => exact h
  | succ k ih => exact ih h.nextInstance

/-- The turn set from outside is taken in both. -/
theorem State.SameValues.passTurn {s t : State} (h : s.SameValues t) :
    s.passTurn.SameValues t.passTurn := by
  unfold State.passTurn
  rw [← h.turns]
  cases s.turns with
  | nil => exact h
  | cons k ts =>
    have hrest : State.SameValues { s with turns := ts } { t with turns := ts } :=
      ⟨h.ksValid, h.w, h.this, h.peers, rfl, h.grain, h.resetIn⟩
    exact hrest.rotate k

/-- An instance under reset keeps nothing but the host's frames and responses. -/
theorem CoreInstance.SameValues.underReset {c d : CoreInstance} (h : c.SameValues d) (base base' : Nat) :
    (c.underReset base).SameValues (d.underReset base') := by
  refine ⟨rfl, nofun, rfl, rfl, rfl, rfl, ?_, ?_⟩
  · rw [underReset_offered, underReset_offered, h.offered]
  · rw [underReset_responses, underReset_responses, h.responses]

/-- The other instances under reset, one by one. -/
theorem forall₂_resetPeers {cs ds : List CoreInstance} (h : List.Forall₂ CoreInstance.SameValues cs ds)
    (base base' : Nat) :
    List.Forall₂ CoreInstance.SameValues (resetPeers base cs) (resetPeers base' ds) := by
  induction h generalizing base base' with
  | nil => exact .nil
  | cons hc _ ih => exact .cons (hc.underReset base base') (ih (base + 32) (base' + 32))

/-- Two machines under reset are alike whatever free values they hold. -/
theorem State.SameValues.underReset {s t : State} (h : s.SameValues t) :
    s.underReset.SameValues t.underReset where
  ksValid := by rw [underReset_ksValid, underReset_ksValid]
  w hk := by simp at hk
  this := by
    rw [underReset_this, underReset_this]
    exact h.this.underReset _ _
  peers := by
    rw [underReset_peers, underReset_peers]
    exact forall₂_resetPeers h.peers _ _
  turns := by simpa only [State.underReset] using h.turns
  grain := by rw [underReset_grain, underReset_grain, h.grain]
  resetIn := by rw [underReset_resetIn, underReset_resetIn, h.resetIn]

/-! ## Steps between commands -/

/-- An instance that is alike a resting one rests. -/
theorem CoreInstance.SameValues.resting {c d : CoreInstance} (h : c.SameValues d) (hc : c.Resting) :
    d.Resting :=
  ⟨h.busy.symm.trans hc.notBusy, h.seq.symm.trans hc.seqIdle, h.work.symm.trans hc.noWork⟩

/-- What holds of instances carries over to instances that are alike, one by one. -/
theorem forall_of_forall₂ {cs ds : List CoreInstance} (h : List.Forall₂ CoreInstance.SameValues cs ds)
    {P Q : CoreInstance → Prop} (hPQ : ∀ c d, c.SameValues d → P c → Q d) (hP : ∀ c ∈ cs, P c) :
    ∀ d ∈ ds, Q d := by
  induction h with
  | nil => simp
  | cons hcd _ ih =>
    obtain ⟨hc, hcs⟩ := List.forall_mem_cons.mp hP
    exact List.forall_mem_cons.mpr ⟨hPQ _ _ hcd hc, ih hcs⟩

/-- A machine that is alike one between commands is between commands. -/
theorem State.SameValues.betweenCommands {s t : State} (h : s.SameValues t) (hs : s.BetweenCommands) :
    t.BetweenCommands where
  wholeCommands := h.grain.symm.trans hs.wholeCommands
  resting := forall_of_forall₂ (.cons h.this h.peers) (fun _ _ hcd hc => hcd.resting hc) hs.resting
  schedule hk := by
    have hk' := h.ksValid.trans hk
    rw [← h.w hk']
    exact hs.schedule hk'
  stream := forall_of_forall₂ (.cons h.this h.peers)
    (fun _ _ hcd hc hf => h.ksValid.symm.trans (hc (hcd.fbValid.trans hf))) hs.stream

/-- Two machines between commands answer a command alike (R38). -/
theorem State.SameValues.exec {i : Instr} {s t s' : State} (h : s.SameValues t)
    (hs : s.BetweenCommands) (hi : i.isCommand = true) (hrun : exec i s = .next s') :
    ∃ t', exec i t = .next t' ∧ s'.SameValues t' := by
  have ht := h.betweenCommands hs
  cases exec_answer hi hrun with
  | rejected hfail =>
    have hcode := h.firstFailure_eq i
    exact ⟨_, exec_rejected hi (hcode ▸ hfail), hcode ▸ h.respond _ _⟩
  | keyexp k => exact ⟨_, exec_keyexp_accepted ht.scheduleInUse k, (h.rekey _).endStream.respond _ _⟩
  | encblk b hk =>
    have hrun' := exec_encblk_accepted (checkEncblk_toList (h.ksValid.symm.trans hk) b)
      ht.scheduleChanging
    rw [← h.w hk] at hrun'
    exact ⟨_, hrun', (h.setGrid _ _).respond _ _⟩
  | stream k v data =>
    exact ⟨_, exec_stream_accepted ht.scheduleInUse k v data,
      (((h.rekey _).setGrid _ _).startStream _).respond _ _⟩
  | ofbinit v hk =>
    exact ⟨_, exec_ofbinit_accepted (h.ksValid.symm.trans hk) v, (h.startStream v).respond _ _⟩
  | ofbchunk data h1 h16 hk hf =>
    have hrun' := exec_ofbchunk_accepted (checkOfbchunk_valid h1 h16 (h.ksValid.symm.trans hk)
      (h.this.fbValid.symm.trans hf)) ht.scheduleChanging
    rw [← h.w hk, ← h.this.fb hf] at hrun'
    exact ⟨_, hrun', ((h.setGrid _ _).setFb _).respond _ _⟩

/-- Between commands an instance without a frame waits. -/
theorem State.BetweenCommands.stepInstance_nil {s : State} (h : s.BetweenCommands)
    (hoffered : s.this.offered = []) : stepInstance s = .next s := by
  obtain ⟨hbusy, -, hwork⟩ := h.resting _ List.mem_cons_self
  rw [stepInstance_free (by rw [hwork]; rfl) (by rw [hwork]; rfl), takeFrame, hbusy, hoffered]

/-- Between commands an instance performs the frame at the head of its port. -/
theorem State.BetweenCommands.stepInstance_cons {s : State} (h : s.BetweenCommands) {f : List Byte}
    {rest : List (List Byte)} (hoffered : s.this.offered = f :: rest) :
    stepInstance s = perform f (s.take rest) := by
  obtain ⟨hbusy, -, hwork⟩ := h.resting _ List.mem_cons_self
  rw [stepInstance_free (by rw [hwork]; rfl) (by rw [hwork]; rfl), takeFrame, hbusy, hoffered,
    h.wholeCommands]

/-- Two machines between commands perform a frame alike. -/
theorem State.SameValues.perform {f : List Byte} {s t s' : State} (h : s.SameValues t)
    (hs : s.BetweenCommands) (hrun : perform f s = .next s') :
    ∃ t', perform f t = .next t' ∧ s'.SameValues t' := by
  cases hf : decodeFrame f with
  | error e =>
    rw [next_unique hrun (perform_error hf s)]
    exact ⟨_, perform_error hf t, h.respond _ _⟩
  | ok i =>
    simp only [Machine.perform, hf] at hrun ⊢
    exact h.exec hs (decodeFrame_isCommand hf) hrun

/-- Settles O58: under reset by `State.SameValues.underReset`; otherwise both take the same turn and then
wait, or perform the same frame. -/
theorem unspecifiedContentsAreUnobservable : Obligations.UnspecifiedContentsAreUnobservable := by
  intro s s' t hs h hrun
  cases hreset : s.resetIn with
  | true =>
    rw [next_unique hrun (step_reset hreset)]
    exact ⟨_, step_reset (h.resetIn.symm.trans hreset), h.underReset⟩
  | false =>
    have hturn := h.passTurn
    have hs' := hturn.betweenCommands hs.passTurn
    simp only [step, ← h.resetIn, hreset, Bool.false_eq_true, if_false] at hrun ⊢
    cases hoffered : s.passTurn.this.offered with
    | nil =>
      rw [next_unique hrun (hs.passTurn.stepInstance_nil hoffered)]
      exact ⟨_, hs'.stepInstance_nil (hturn.this.offered.symm.trans hoffered), hturn⟩
    | cons f rest =>
      rw [hs.passTurn.stepInstance_cons hoffered] at hrun
      rw [hs'.stepInstance_cons (hturn.this.offered.symm.trans hoffered)]
      exact (hturn.take rest).perform (hs.passTurn.take rest) hrun

end Sys2Proof.Machine
end

