-- ==== Sys2Proof/Proofs/Field.lean ====
section
/-! SUPPORT. The field of 40_field_primitives.md (R110 to R114): every byte is a sum of doublings of 1, so
the laws of the product follow from its additivity; the field inverse, and the substitution table as its
affine image. -/

namespace Sys2Proof.Machine

/-! ## Every byte is a sum of doublings of 1 -/

/-- What holds of 0, of `a` and of the partial product, and is kept by doubling and by adding, holds of the
result of the loop. -/
theorem gmulLoop_induction {P : Byte → Prop} (double : ∀ a, P a → P (xtime a))
    (add : ∀ a b, P a → P b → P (a ^^^ b)) (n k : Nat) {a p : Byte} (b : Byte) (ha : P a) (hp : P p) :
    P (gmulLoop n k a b p) := by
  induction n generalizing k a p with
  | zero => exact hp
  | succ n ih =>
    rw [gmulLoop]
    refine ih (k + 1) (double a ha) ?_
    split
    · exact add p a hp ha
    · exact hp

/-- An induction over the bytes: `a` is the product of 1 and `a`, which the loop makes of doublings of 1. -/
theorem byte_induction {P : Byte → Prop} (zero : P 0) (one : P 1) (double : ∀ a, P a → P (xtime a))
    (add : ∀ a b, P a → P b → P (a ^^^ b)) (a : Byte) : P a := by
  rw [← gmul_one_left a]
  exact gmulLoop_induction double add 8 0 a one zero

/-! ## The laws of the product -/

/-- The loop of R112 is additive in its right operand, each operand with its own partial product. -/
theorem gmulLoop_xor_right (n k : Nat) (a b c p q : Byte) :
    gmulLoop n k a (b ^^^ c) (p ^^^ q) = gmulLoop n k a b p ^^^ gmulLoop n k a c q := by
  induction n generalizing k a p q with
  | zero => rfl
  | succ n ih =>
    have hboth : p ^^^ a ^^^ (q ^^^ a) = p ^^^ q := by
      rw [BitVec.xor_comm q a, BitVec.xor_assoc, ← BitVec.xor_assoc a a q, BitVec.xor_self,
        BitVec.zero_xor]
    have hleft : p ^^^ a ^^^ q = p ^^^ q ^^^ a := by ac_rfl
    have hright : p ^^^ (q ^^^ a) = p ^^^ q ^^^ a := by ac_rfl
    simp only [gmulLoop, BitVec.getLsbD_xor, ← ih]
    cases b.getLsbD k <;> cases c.getLsbD k <;> simp [hboth, hleft, hright]

/-- The product is additive in its right operand. -/
theorem gmul_xor_right (a b c : Byte) : gmul a (b ^^^ c) = gmul a b ^^^ gmul a c :=
  gmulLoop_xor_right 8 0 a b c 0 0

/-- Nothing is the product of nothing. -/
theorem gmul_zero_left (a : Byte) : gmul 0 a = 0 := by
  have h := gmul_xor_left 0 0 a
  rwa [BitVec.xor_self, BitVec.xor_self] at h

/-- Nothing is the product by nothing. -/
theorem gmul_zero_right (a : Byte) : gmul a 0 = 0 := by
  have h := gmul_xor_right a 0 0
  rwa [BitVec.xor_self, BitVec.xor_self] at h

/-- The product by 1. -/
theorem gmul_one_right (a : Byte) : gmul a 1 = a := by
  induction a using byte_induction with
  | zero => exact gmul_zero_left 1
  | one => exact gmul_one_left 1
  | double a ih => rw [gmul_xtime_left, ih]
  | add a b iha ihb => rw [gmul_xor_left, iha, ihb]

/-- Doubling the right operand doubles the product. -/
theorem gmul_xtime_right (a b : Byte) : gmul a (xtime b) = xtime (gmul a b) := by
  induction a using byte_induction with
  | zero => rw [gmul_zero_left, gmul_zero_left]; rfl
  | one => rw [gmul_one_left, gmul_one_left]
  | double a ih => rw [gmul_xtime_left, gmul_xtime_left, ih]
  | add a c iha ihc => rw [gmul_xor_left, gmul_xor_left, xtime_xor, iha, ihc]

/-- The product is commutative. -/
theorem gmul_comm (a b : Byte) : gmul a b = gmul b a := by
  induction a using byte_induction with
  | zero => rw [gmul_zero_left, gmul_zero_right]
  | one => rw [gmul_one_left, gmul_one_right]
  | double a ih => rw [gmul_xtime_left, gmul_xtime_right, ih]
  | add a c iha ihc => rw [gmul_xor_left, gmul_xor_right, iha, ihc]

/-- The product is associative. -/
theorem gmul_assoc (a b c : Byte) : gmul (gmul a b) c = gmul a (gmul b c) := by
  induction a using byte_induction with
  | zero => rw [gmul_zero_left, gmul_zero_left, gmul_zero_left]
  | one => rw [gmul_one_left, gmul_one_left]
  | double a ih => rw [gmul_xtime_left, gmul_xtime_left, gmul_xtime_left, ih]
  | add a d iha ihd => rw [gmul_xor_left, gmul_xor_left, gmul_xor_left, iha, ihd]

/-- The loop from bit `k` on adds the doublings of `a` that the bits of `b` name. -/
theorem gmulLoop_eq_foldl (n k : Nat) (a b p : Byte) :
    gmulLoop n k (xtime^[k] a) b p =
      (List.range' k n).foldl (fun p k => if b.getLsbD k then p ^^^ xtime^[k] a else p) p := by
  induction n generalizing k p with
  | zero => rfl
  | succ n ih =>
    rw [gmulLoop, ← Function.iterate_succ_apply' xtime k a, ih, List.range'_succ, List.foldl_cons]

/-! ## The inverse -/

/-- The affine map of R114. -/
def sboxAffine (b : Byte) : Byte :=
  b ^^^ b.rotateLeft 1 ^^^ b.rotateLeft 2 ^^^ b.rotateLeft 3 ^^^ b.rotateLeft 4 ^^^ 0x63

/-- The affine map back. -/
def sboxAffineBack (b : Byte) : Byte :=
  b.rotateLeft 1 ^^^ b.rotateLeft 3 ^^^ b.rotateLeft 6 ^^^ 0x05

/-- The field inverse, read off the substitution table by the affine map back. -/
def ginv (a : Byte) : Byte := sboxAffineBack (sbox a)

/-- The affine map undoes the map back, evaluated for each byte. -/
theorem sboxAffine_sboxAffineBack : ∀ b : Byte, sboxAffine (sboxAffineBack b) = b := by decide

/-- The table is the affine image of what is read off it (R114). -/
theorem sbox_eq_sboxAffine_ginv (v : Byte) : sbox v = sboxAffine (ginv v) :=
  (sboxAffine_sboxAffineBack (sbox v)).symm

/-- What is read off the table is the inverse of every byte but 0, evaluated for each of them. -/
theorem gmul_ginv : ∀ a : Byte, a ≠ 0 → gmul a (ginv a) = 1 := by decide

/-- Nothing is the inverse of nothing. -/
theorem ginv_zero : ginv 0 = 0 := by decide

/-- Only 0 has the inverse 0. -/
theorem ginv_ne_zero {a : Byte} (h : a ≠ 0) : ginv a ≠ 0 := by
  intro hzero
  have hone := gmul_ginv a h
  rw [hzero, gmul_zero_right] at hone
  exact absurd hone (by decide)

/-- A product is 0 only if a factor is: the other factor's inverse takes it away. -/
theorem gmul_eq_zero {a b : Byte} (h : gmul a b = 0) : a = 0 ∨ b = 0 := by
  by_cases ha : a = 0
  · exact .inl ha
  · refine .inr ?_
    calc b = gmul (gmul a (ginv a)) b := by rw [gmul_ginv a ha, gmul_one_left]
      _ = gmul (ginv a) (gmul a b) := by rw [gmul_comm a, gmul_assoc]
      _ = 0 := by rw [h, gmul_zero_right]

/-- A byte is known by its inverse. -/
theorem ginv_injective : Function.Injective ginv := by
  intro a b h
  by_cases ha : a = 0
  · by_contra hab
    rw [ha, ginv_zero] at h
    exact ginv_ne_zero (fun hb => hab (ha.trans hb.symm)) h.symm
  · have hb : b ≠ 0 := fun hb => ginv_ne_zero ha (by rw [h, hb, ginv_zero])
    calc a = gmul a (gmul b (ginv b)) := by rw [gmul_ginv b hb, gmul_one_right]
      _ = gmul (gmul a (ginv a)) b := by rw [h, gmul_comm b, gmul_assoc]
      _ = b := by rw [gmul_ginv a ha, gmul_one_left]

/-- No two entries of the table are equal, because no two inverses are. -/
theorem sbox_injective : Function.Injective sbox :=
  Function.Injective.of_comp (f := sboxAffineBack) ginv_injective

/-- The table is a permutation of the bytes. -/
theorem sbox_bijective : Function.Bijective sbox := Finite.injective_iff_bijective.mp sbox_injective

/-- Settles O8: the loop by `gmulLoop_eq_foldl`, the laws by induction over the bytes, the worked values by
evaluation. -/
theorem fieldProductLaws : Obligations.FieldProductLaws := by
  refine ⟨fun a b => ?loop, by decide, fun a => ⟨gmul_zero_right a, gmul_zero_left a, gmul_one_right a,
    ?two, ?three⟩, gmul_comm, gmul_assoc, gmul_xor_right, fun a b => gmul_eq_zero⟩
  case loop => rw [List.range_eq_range']; exact gmulLoop_eq_foldl 8 0 a b 0
  case two => rw [gmul_comm, gmul_two_left]
  case three => rw [gmul_comm, gmul_three_left]

/-- Settles O9: what is read off the table by the affine map back is the field inverse (`gmul_ginv`). -/
theorem sboxIsAffineOfInverse : Obligations.SboxIsAffineOfInverse :=
  ⟨ginv, ginv_zero, gmul_ginv, sbox_eq_sboxAffine_ginv⟩

/-- Settles O10: a permutation by `sbox_bijective`; the entries are compared with their places one by one. -/
theorem sboxIsPermutation : Obligations.SboxIsPermutation :=
  ⟨sbox_bijective, by decide⟩

end Sys2Proof.Machine
end

