-- ==== Sys2Proof/Proofs/Transforms.lean ====
section
/-! SUPPORT. The runs of R134 and R166, ShiftRows in flat indices (42_state_transforms.md R148), OFBXOR
(44_ofb_stream.md R183), and that each step of EncryptBlock can be undone (43_block_encryptor.md R169). -/

namespace Sys2Proof.Machine

/-! ## The key expansion as a run of words -/

/-- Of two writes of `W` the second stands. -/
@[simp] theorem State.setW_setW (s : State) (w w' : Schedule) : (s.setW w).setW w' = s.setW w' := rfl

/-- Words KSWORD(i) one after another fold over their indices (R132). -/
theorem execWords_kswords {is : List Nat} (his : ∀ i ∈ is, i ∈ scheduleIndices) (ws : List UopWord)
    {s : State} (hu : s.scheduleInUse = false) :
    execWords (is.map (putUop 0x2) ++ ws) s = execWords ws (s.setW (is.foldl stepWord s.w)) := by
  induction is generalizing s with
  | nil => rfl
  | cons i is ih =>
    obtain ⟨hi, his⟩ := List.forall_mem_cons.1 his
    have hrange : 8 ≤ i ∧ i < 60 := by simpa [scheduleIndices, List.mem_range'_1] using hi
    rw [List.map_cons, List.cons_append, execWords_cons (decodeUop_ksword i hi)
      (exec_ksword_unused hrange.1 hrange.2 hu), ih his (by simpa using hu)]
    simp

/-- KSLOAD and words KSWORD(i) after it, whatever follows them. -/
theorem execWords_ksload_kswords {is : List Nat} (his : ∀ i ∈ is, i ∈ scheduleIndices)
    (ws : List UopWord) {s : State} (hu : s.scheduleInUse = false) :
    execWords (putUop 0x1 0 :: is.map (putUop 0x2) ++ ws) s =
      execWords ws (s.setW (is.foldl stepWord (loadKeyWords s.this.work.key s.w))) := by
  rw [List.cons_append, execWords_cons decodeUop_ksload (exec_ksload_unused hu),
    execWords_kswords his ws (by simpa using hu)]
  simp

/-- Settles O15: the run folds over the indices 8 to 59, and the fold is `KeyExpand` by `expandInto_eq`. -/
theorem keyExpansionSequenceIsKeyExpand : Obligations.KeyExpansionSequenceIsKeyExpand := by
  refine ⟨by decide, fun s hu => ?_⟩
  have hrun := execWords_ksload_kswords (fun i hi => hi) [] hu
  rw [List.append_nil] at hrun
  have hexpand := expandInto_eq s.this.work.key s.w
  rw [expandInto] at hexpand
  rw [hexpand] at hrun
  exact hrun

/-! ## The block encryption as a run of words -/

/-- Settles O24: `execWords_cipherProgram` with no word after it, for either source. -/
theorem cipherSequenceIsEncryptBlock : Obligations.CipherSequenceIsEncryptBlock := by
  intro src
  refine ⟨by cases src <;> decide, fun s => ?_⟩
  have hrun := execWords_cipherProgram (execLdstate_eq src s) []
  rw [List.append_nil] at hrun
  exact hrun

/-! ## ShiftRows -/

/-- ShiftRows in flat indices (R148). -/
theorem shiftRows_getElem (g : Block) (k : Nat) (h : k < 16) :
    (shiftRows g)[k] = g[(k + 4 * (k % 4)) % 16]'(Nat.mod_lt _ (by decide)) := by
  have hindex : k % 4 + 4 * ((k / 4 + k % 4) % 4) = (k + 4 * (k % 4)) % 16 := by omega
  simp only [shiftRows, Vector.getElem_ofFn, cell, row, col, Fin.val_add, hindex]

/-- Four times around every row is back in its place. -/
theorem shiftRows_four (g : Block) : shiftRows (shiftRows (shiftRows (shiftRows g))) = g := by
  have haround : ∀ r c : Fin 4, c + r + r + r + r = c := by decide
  apply grid_ext
  intro r c
  rw [cell_shiftRows, cell_shiftRows, cell_shiftRows, cell_shiftRows, haround]

/-- Settles O20: the cells by `cell_shiftRows`, the flat indices by `shiftRows_getElem`, the order of the
rotation by `shiftRows_four`. -/
theorem shiftrowsRotatesRows : Obligations.ShiftrowsRotatesRows :=
  ⟨fun s => ⟨_, exec_shiftrows s, rfl, cell_shiftRows s.this.grid, shiftRows_getElem s.this.grid⟩,
    shiftRows_four⟩

/-! ## EncryptBlock undone -/

/-- What is the identity when done four times is a bijection. -/
theorem bijective_of_four {f : Block → Block} (h : ∀ g, f (f (f (f g))) = g) : Function.Bijective f :=
  Function.bijective_iff_has_inverse.mpr ⟨fun g => f (f (f g)), h, h⟩

/-- SubBytes is undone byte by byte. -/
theorem subBytes_bijective : Function.Bijective subBytes := by
  obtain ⟨back, hleft, hright⟩ := Function.bijective_iff_has_inverse.mp sbox_bijective
  refine Function.bijective_iff_has_inverse.mpr
    ⟨fun g => Vector.ofFn fun k => back g[k], fun g => ?_, fun g => ?_⟩
  · exact Vector.ext fun k hk => by simp [subBytes, hleft _]
  · exact Vector.ext fun k hk => by simp [subBytes, hright _]

/-- ShiftRows is undone by the rest of the turn. -/
theorem shiftRows_bijective : Function.Bijective shiftRows := bijective_of_four shiftRows_four

/-- A column mixed (R149). -/
def mixed (a : Fin 4 → Byte) (r : Fin 4) : Byte := mixColumn (a 0) (a 1) (a 2) (a 3) r

/-- Adding the same byte twice adds nothing. -/
theorem xor_xor_cancel_left (a b : Byte) : a ^^^ (a ^^^ b) = b := by
  rw [← BitVec.xor_assoc, BitVec.xor_self, BitVec.zero_xor]

/-- The order of the summands does not matter. -/
theorem xor_left_comm (a b c : Byte) : a ^^^ (b ^^^ c) = b ^^^ (a ^^^ c) := by ac_rfl

/-- The sum of a column. -/
def columnSum (a : Fin 4 → Byte) : Byte := a 0 ^^^ a 1 ^^^ a 2 ^^^ a 3

/-- Each row of R149 in the same words. -/
theorem mixed_eq (a : Fin 4 → Byte) (r : Fin 4) :
    mixed a r = a r ^^^ columnSum a ^^^ (xtime (a r) ^^^ xtime (a (r + 1))) := by
  rw [← xtime_xor]
  match r with
  | 0 | 1 | 2 | 3 => rfl

/-- Mixing keeps the sum of the column: each doubling occurs twice. -/
theorem columnSum_mixed (a : Fin 4 → Byte) : columnSum (mixed a) = columnSum a := by
  rw [columnSum, mixed_eq, mixed_eq, mixed_eq, mixed_eq]
  change a 0 ^^^ columnSum a ^^^ (xtime (a 0) ^^^ xtime (a 1)) ^^^
    (a 1 ^^^ columnSum a ^^^ (xtime (a 1) ^^^ xtime (a 2))) ^^^
    (a 2 ^^^ columnSum a ^^^ (xtime (a 2) ^^^ xtime (a 3))) ^^^
    (a 3 ^^^ columnSum a ^^^ (xtime (a 3) ^^^ xtime (a 0))) = a 0 ^^^ a 1 ^^^ a 2 ^^^ a 3
  generalize columnSum a = t, a 0 = a0, a 1 = a1, a 2 = a2, a 3 = a3
  generalize xtime a0 = x0, xtime a1 = x1, xtime a2 = x2, xtime a3 = x3
  simp only [BitVec.xor_assoc, BitVec.xor_comm, xor_left_comm, xor_xor_cancel_left, BitVec.xor_self,
    BitVec.xor_zero]

/-- The matrix of R151 squared multiplies by 5 and adds 4 times the cell two rows further: the column's sum
and the single doublings cancel. -/
theorem mixed_mixed (a : Fin 4 → Byte) (r : Fin 4) :
    mixed (mixed a) r = a r ^^^ (xtime (xtime (a r)) ^^^ xtime (xtime (a (r + 2)))) := by
  have htwo : r + 1 + 1 = r + 2 := by rw [add_assoc]; rfl
  rw [mixed_eq, columnSum_mixed, mixed_eq, mixed_eq, htwo]
  simp only [xtime_xor]
  generalize columnSum a = t, a r = a0, a (r + 1) = a1, a (r + 2) = a2
  generalize xtime t = xt, xtime a0 = x0, xtime a1 = x1, xtime a2 = x2
  generalize xtime x0 = y0, xtime x1 = y1, xtime x2 = y2
  simp only [BitVec.xor_assoc, BitVec.xor_comm, xor_left_comm, xor_xor_cancel_left]

/-- The matrix of R151 to the fourth power is the identity: 5 times 5 and 4 times 4 differ by 1. -/
theorem mixed_four (a : Fin 4 → Byte) (r : Fin 4) : mixed (mixed (mixed (mixed a))) r = a r := by
  have haround : r + 2 + 2 = r := by revert r; decide
  rw [mixed_mixed, mixed_mixed, mixed_mixed, haround]
  simp only [xtime_xor]
  generalize xtime (xtime (a r)) = x, xtime (xtime (a (r + 2))) = y
  generalize xtime (xtime x) = x2, xtime (xtime y) = y2
  simp only [BitVec.xor_assoc, BitVec.xor_comm, xor_left_comm, xor_xor_cancel_left, BitVec.xor_self,
    BitVec.xor_zero]

/-- MixColumns is undone by doing it three times more. -/
theorem mixColumns_bijective : Function.Bijective mixColumns := by
  refine bijective_of_four fun g => grid_ext fun r c => ?_
  have hcolumn : ∀ s : Block, (fun r => cell (mixColumns s) r c) = mixed fun r => cell s r c :=
    fun s => funext fun r => cell_mixColumns s r c
  have hfour := mixed_four (fun r => cell g r c) r
  rw [← hcolumn, ← hcolumn, ← hcolumn, ← hcolumn] at hfour
  exact hfour

/-- AddRoundKey undoes itself. -/
theorem addRoundKey_bijective (w : Schedule) (k : Nat) : Function.Bijective (addRoundKey w k) :=
  Function.Involutive.bijective (addRoundKey_addRoundKey w k)

/-- A full round can be undone. -/
theorem fullRound_bijective (w : Schedule) (r : Nat) : Function.Bijective fun g => fullRound w g r :=
  (addRoundKey_bijective w r).comp
    (mixColumns_bijective.comp (shiftRows_bijective.comp subBytes_bijective))

/-- Full rounds one after another can be undone. -/
theorem fullRounds_bijective (w : Schedule) (rs : List Nat) :
    Function.Bijective fun g => rs.foldl (fullRound w) g := by
  induction rs with
  | nil => exact Function.bijective_id
  | cons r rs ih => exact ih.comp (fullRound_bijective w r)

/-- EncryptBlock as its steps, one after another (R165). -/
theorem encryptBlock_eq_comp (w : Schedule) :
    (fun b => encryptBlock b w) = addRoundKey w 14 ∘ shiftRows ∘ subBytes ∘
      (fun g => (List.range' 1 13).foldl (fullRound w) g) ∘ addRoundKey w 0 := by
  funext b
  simp only [encryptBlock, Function.comp_apply]

/-- Settles O23: EncryptBlock is made of steps that can be undone. -/
theorem encryptBlockIsBijective : Obligations.EncryptBlockIsBijective := by
  intro w
  rw [encryptBlock_eq_comp]
  exact (addRoundKey_bijective w 14).comp (shiftRows_bijective.comp (subBytes_bijective.comp
    ((fullRounds_bijective w _).comp (addRoundKey_bijective w 0))))

/-! ## OFBXOR -/

/-- OFBXOR of a chunk that lies inside the data (R183). -/
theorem exec_ofbxor {s : State} {n : Nat} (h1 : 1 ≤ n) (h16 : n ≤ 16)
    (hd : s.this.seq.off + n ≤ s.this.work.data.length) :
    exec (.ofbxor n) s = .next (s.memWrite s.this.seq.off
      (xorChunk ((s.this.work.data.drop s.this.seq.off).take n) s.this.grid)) := by
  simp only [exec, execOfbxor, State.memRead, hd, h1, h16, and_self, if_true]

/-- Settles O27: the bytes by `xorChunk_getElem?`, their offsets by `Memory.read_write`. -/
theorem ofbxorStoresLeadingKeystreamBytes : Obligations.OfbxorStoresLeadingKeystreamBytes := by
  refine ⟨fun s n h1 h16 hd => ⟨_, exec_ofbxor h1 h16 hd, rfl, fun j hj => ?stored, fun a ha => ?kept⟩,
    fun s n hn => ?range, fun s n h1 h16 hd => ?past⟩
  case stored =>
    rw [State.memWrite_this, Memory.read_write, if_pos (by simp; omega), Nat.add_sub_cancel_left,
      xorChunk_getElem? _ _ j (by simp; omega) (by omega)]
    simp
  case kept =>
    rw [State.memWrite_this, Memory.read_write, if_neg (by simp; omega)]
  case range => exact if_neg (by omega)
  case past =>
    have hpast : ¬ s.this.seq.off + n ≤ s.this.work.data.length := Nat.not_le.mpr hd
    simp only [exec, execOfbxor, State.memRead, hpast, h1, h16, and_self, if_true, if_false]

end Sys2Proof.Machine
end

