-- ==== Sys2Proof/Proofs/MicroRuns.lean ====
section
/-! SUPPORT. Runs of the sequencer (10_state.md R31, R33): the datapath effect of its words is that of
`execWords`, and the counters go their own way beside it (30_encoding.md R80). -/

namespace Sys2Proof.Machine

/-! ## The sequencer before a list of words -/

/-- The machine `s` with the words `ws` to issue and the counters `q`. -/
def State.resequence (ws : List UopWord) (q : Seq) (s : State) : State :=
  (s.setWork { s.this.work with pending := ws }).setSeq q

section
variable (s : State) (ws : List UopWord) (q : Seq)

/-- Every machine stands before its own words with its own counters. -/
theorem State.resequence_self : s.resequence s.this.work.pending s.this.seq = s := rfl

@[simp] theorem State.resequence_w : (s.resequence ws q).w = s.w := rfl
@[simp] theorem State.resequence_ksValid : (s.resequence ws q).ksValid = s.ksValid := rfl
@[simp] theorem State.resequence_resetIn : (s.resequence ws q).resetIn = s.resetIn := rfl
@[simp] theorem State.resequence_turns : (s.resequence ws q).turns = s.turns := rfl
@[simp] theorem State.resequence_this :
    (s.resequence ws q).this =
      { s.this with work := { s.this.work with pending := ws }, seq := q } := rfl
@[simp] theorem State.resequence_scheduleInUse :
    (s.resequence ws q).scheduleInUse = s.scheduleInUse := rfl
theorem State.setW_resequence (w : Schedule) :
    (s.resequence ws q).setW w = (s.setW w).resequence ws q := rfl
theorem State.setKsValid_resequence (b : Bool) :
    (s.resequence ws q).setKsValid b = (s.setKsValid b).resequence ws q := rfl
theorem State.setGrid_resequence (g : Block) :
    (s.resequence ws q).setGrid g = (s.setGrid g).resequence ws q := rfl
theorem State.setFb_resequence (b : Block) :
    (s.resequence ws q).setFb b = (s.setFb b).resequence ws q := rfl
theorem State.setFbValid_resequence (b : Bool) :
    (s.resequence ws q).setFbValid b = (s.setFbValid b).resequence ws q := rfl
theorem State.memWrite_resequence (off : Nat) (v : List Byte) :
    (s.resequence ws q).memWrite off v = (s.memWrite off v).resequence ws q := rfl

/-- What answers a command leaves nothing of the words and the counters. -/
theorem State.respond_resequence (c : ResultCode) (p : List Byte) :
    (s.resequence ws q).respond c p = s.respond c p := rfl

/-- What leaves a core idle leaves nothing of the words and the counters. -/
theorem State.idle_resequence : (s.resequence ws q).idle = s.idle := rfl

end

/-- What follows a word: the words `rest` with the counters `q`, or, when there is none, the end of the
command. -/
def State.proceed (rest : List UopWord) (q : Seq) (s : State) : State :=
  match rest with
  | [] => s.finishCommand
  | _ :: _ => s.resequence rest q

@[simp] theorem State.proceed_nil (q : Seq) (s : State) : s.proceed [] q = s.finishCommand := rfl

/-- While words are left the sequencer stands before them. -/
theorem State.proceed_of_ne_nil {rest : List UopWord} (h : rest ≠ []) (q : Seq) (s : State) :
    s.proceed rest q = s.resequence rest q := by
  obtain ⟨word, rest, rfl⟩ := List.exists_cons_of_ne_nil h
  rfl

/-- The payload of a command is read neither from the words left nor from the counters. -/
theorem CommandKind.payload_resequence (c : CommandKind) (s : State) (ws : List UopWord) (q : Seq) :
    c.payload (s.resequence ws q) = c.payload s := by
  cases c <;> simp [CommandKind.payload]

/-- The end of a command reads neither the words left nor the counters. -/
theorem State.finishCommand_resequence (s : State) (ws : List UopWord) (q : Seq) :
    (s.resequence ws q).finishCommand = s.finishCommand := by
  cases hrun : s.this.work.running with
  | none =>
    rw [State.finishCommand_idle hrun, State.finishCommand_idle (by simpa using hrun),
      State.idle_resequence]
  | some c =>
    rw [State.finishCommand_running hrun, State.finishCommand_running (c := c) (by simpa using hrun),
      CommandKind.payload_resequence, State.setFbValid_resequence, State.respond_resequence,
      State.resequence_this]

/-- What the sequencer does after a word, in these terms. -/
theorem State.afterUop_resequence (i : Instr) (rest ws : List UopWord) (q : Seq) (s : State) :
    (s.resequence ws q).afterUop i rest =
      (s.markSchedule i).proceed rest ((q.leaving i).toward rest) := by
  have hmark : (s.resequence ws q).markSchedule i = (s.markSchedule i).resequence ws q := by
    rw [State.markSchedule_eq, State.markSchedule_eq, State.setKsValid_resequence,
      State.resequence_ksValid, State.resequence_this]
  cases rest with
  | nil =>
    have hfinish : (s.resequence ws q).afterUop i [] =
      ((s.resequence ws q).markSchedule i).finishCommand := rfl
    rw [hfinish, hmark, State.finishCommand_resequence, State.proceed_nil]
  | cons word rest => rw [State.afterUop_cons, State.proceed, State.markSchedule_eq]; rfl

/-- LDSTATE from the block operand (R145). -/
theorem exec_ldstate_block (s : State) : exec (.ldstate .block) s = .next (s.setGrid s.this.work.blk) := rfl

/-- A micro-operation does not read the words left, and of the counters only `OFF`. -/
theorem exec_resequence {i : Instr} {s t : State} {q : Seq} (hi : i.isCommand = false)
    (hoff : q.off = s.this.seq.off) (h : exec i s = .next t) (ws : List UopWord) :
    exec i (s.resequence ws q) = .next (t.resequence ws q) := by
  cases i with
  | keyexp _ | encblk _ | stream _ _ _ | ofbinit _ | ofbchunk _ => cases hi
  | ksload =>
    obtain ⟨hu, rfl⟩ := execKsload_next h
    rw [exec_ksload_unused (by simpa using hu), State.setW_resequence]
    simp
  | ksword j =>
    obtain ⟨hj, hj', hu, rfl⟩ := execKsword_next h
    rw [exec_ksword_unused hj (Nat.lt_succ_of_le hj') (by simpa using hu), State.setW_resequence]
    simp
  | addroundkey k =>
    obtain ⟨hk, rfl⟩ := execAddroundkey_next h
    rw [exec_addroundkey hk, State.setGrid_resequence]
    simp
  | ofbxor n =>
    obtain ⟨h1, h16, hd, rfl⟩ := execOfbxor_next h
    rw [exec_ofbxor h1 h16 (by simpa [hoff] using hd), State.memWrite_resequence]
    simp [hoff]
  | ldstate src =>
    cases src with
    | block =>
      rw [next_unique h (exec_ldstate_block s), exec_ldstate_block, State.setGrid_resequence]
      simp
    | feedback =>
      rw [next_unique h (exec_ldstate_feedback s), exec_ldstate_feedback, State.setGrid_resequence]
      simp
  | subbytes =>
    rw [next_unique h (exec_subbytes s), exec_subbytes, State.setGrid_resequence]
    simp
  | shiftrows =>
    rw [next_unique h (exec_shiftrows s), exec_shiftrows, State.setGrid_resequence]
    simp
  | mixcolumns =>
    rw [next_unique h (exec_mixcolumns s), exec_mixcolumns, State.setGrid_resequence]
    simp
  | ststate =>
    rw [next_unique h (exec_ststate s), exec_ststate, State.memWrite_resequence]
    simp
  | fbload =>
    rw [next_unique h (exec_fbload s), exec_fbload, State.setFb_resequence, State.setFbValid_resequence]
    simp
  | fbupdate =>
    rw [next_unique h (exec_fbupdate s), exec_fbupdate, State.setFb_resequence]
    simp

/-- The next word is issued beside the counters. -/
theorem step_resequence {i : Instr} {word : UopWord} {s t : State} {q : Seq}
    (hreset : s.resetIn = false) (hturns : s.turns = []) (hoff : q.off = s.this.seq.off)
    (hword : decodeUop word = .ok i) (h : exec i s = .next t) (rest : List UopWord) :
    step (s.resequence (word :: rest) q) =
      .next ((t.markSchedule i).proceed rest ((q.leaving i).toward rest)) := by
  have hissuing : (s.resequence (word :: rest) q).Issuing word rest :=
    ⟨by simpa using hreset, by simpa using hturns, by simp⟩
  rw [step_issuing_next hissuing hword
    (exec_resequence (decodeUop_isCommand hword) hoff h (word :: rest)), State.afterUop_resequence]

/-! ## The counters along a list of micro-operations -/

/-- The words `ws` name the micro-operations `is`. -/
abbrev Decodes (ws : List UopWord) (is : List Instr) : Prop :=
  List.Forall₂ (fun word i => decodeUop word = .ok i) ws is

/-- The counters coming to the first of `is`, or, when there is none, to what comes `next`. -/
def Seq.coming (is : List Instr) (next : Seq → Seq) : Seq → Seq :=
  match is with
  | [] => next
  | i :: _ => Seq.entering i

/-- The counters when `is` have run and `next` is how they come to what follows. -/
def Seq.along : List Instr → (Seq → Seq) → Seq → Seq
  | [], _, q => q
  | i :: is, next, q => Seq.along is next (Seq.coming is next (q.leaving i))

/-- Coming to a word is coming to its micro-operation. -/
theorem Seq.toward_cons {word : UopWord} {i : Instr} (h : decodeUop word = .ok i) (ws : List UopWord) :
    Seq.toward (word :: ws) = Seq.entering i := by
  funext q
  simp only [Seq.toward, h]

/-- Coming to words is coming to the micro-operations they name. -/
theorem Seq.toward_append {ws : List UopWord} {is : List Instr} (h : Decodes ws is)
    (tail : List UopWord) : Seq.toward (ws ++ tail) = Seq.coming is (Seq.toward tail) := by
  cases h with
  | nil => rfl
  | cons hword _ => exact Seq.toward_cons hword _

/-- The last of the micro-operations that have run. -/
theorem Seq.along_concat (is : List Instr) (i : Instr) (next : Seq → Seq) (q : Seq) :
    Seq.along (is ++ [i]) next q = next ((Seq.along is (Seq.entering i) q).leaving i) := by
  induction is generalizing q with
  | nil => rfl
  | cons i' is ih =>
    have hcoming : Seq.coming (is ++ [i]) next = Seq.coming is (Seq.entering i) := by cases is <;> rfl
    rw [List.cons_append, Seq.along, ih, hcoming, Seq.along]

/-- The counters in a sequence of micro-operations, when each one's follow from those of the one before. -/
theorem Seq.along_eq_positions {is : List Instr} (position : Nat → Seq)
    (hstep : ∀ (j : Nat) (hj : j + 1 < is.length),
      ((position j).leaving is[j]).entering is[j + 1] = position (j + 1)) :
    ∀ (j : Nat) (hj : j < is.length),
      Seq.along (is.take j) (Seq.entering is[j]) (position 0) = position j := by
  intro j
  induction j with
  | zero => exact fun _ => rfl
  | succ j ih =>
    intro hj
    have hlt : j < is.length := Nat.lt_of_succ_lt hj
    rw [← List.take_append_getElem hlt, Seq.along_concat, ih hlt]
    exact hstep j hj

/-- `OFF` does not count when the counters come to a micro-operation. -/
theorem Seq.entering_off (i : Instr) (q : Seq) : (q.entering i).off = q.off := by
  cases i <;> rfl

/-- `OFF` does not count when the counters come to a word. -/
@[simp] theorem Seq.toward_off (ws : List UopWord) (q : Seq) : (q.toward ws).off = q.off := by
  unfold Seq.toward
  split
  · rfl
  · split
    · exact Seq.entering_off _ q
    · rfl

/-- A micro-operation that sets no flag at its end and does not count `OFF`. -/
def Steady (i : Instr) : Prop := i ≠ .ksword 59 ∧ i ≠ .fbupdate

/-- Only FBUPDATE counts `OFF`. -/
theorem Seq.leaving_off {i : Instr} (h : i ≠ .fbupdate) (q : Seq) : (q.leaving i).off = q.off := by
  cases i with
  | fbupdate => exact absurd rfl h
  | addroundkey k => simp only [Seq.leaving]; split <;> rfl
  | _ => rfl

/-- Steady micro-operations leave `OFF`. -/
theorem Seq.along_off {is : List Instr} (h : ∀ i ∈ is, Steady i) {next : Seq → Seq}
    (hnext : ∀ q, (next q).off = q.off) (q : Seq) : (Seq.along is next q).off = q.off := by
  induction is generalizing q with
  | nil => rfl
  | cons i is ih =>
    obtain ⟨⟨-, hi⟩, his⟩ := List.forall_mem_cons.mp h
    have hcoming : ∀ q, (Seq.coming is next q).off = q.off := by
      cases is with
      | nil => exact hnext
      | cons i' _ => exact Seq.entering_off i'
    rw [Seq.along, ih his, hcoming, Seq.leaving_off hi]

/-- The counters of a run are as they come to what follows, if they were so before it. -/
theorem Seq.along_coming (is : List Instr) (next : Seq → Seq) (q : Seq) :
    ∃ q', Seq.along is next (Seq.coming is next q) = next q' := by
  induction is generalizing q with
  | nil => exact ⟨q, rfl⟩
  | cons i is ih => exact ih ((q.entering i).leaving i)

/-! ## Runs -/

/-- Only KSWORD(59) sets `KS_VALID`. -/
theorem State.markSchedule_of_ne {i : Instr} (h : i ≠ .ksword 59) (s : State) : s.markSchedule i = s :=
  if_neg fun hi => h hi.1

/-- A run begins with its first step. -/
theorem run_succ {s t : State} (h : step s = .next t) (n : Nat) : core.run (n + 1) s = core.run n t := by
  have hstep : core.step s = .next t := h
  simp only [Host.Core.run, hstep]

/-- A run of one step. -/
theorem run_one {s t : State} (h : step s = .next t) : core.run 1 s = .next t := run_succ h 0

/-- A run of words stops in the middle as well. -/
theorem execWords_append {ws ws' : List UopWord} {s t : State}
    (h : execWords (ws ++ ws') s = .next t) : ∃ u, execWords ws s = .next u := by
  induction ws generalizing s with
  | nil => exact ⟨s, rfl⟩
  | cons word ws ih =>
    rw [List.cons_append, execWords] at h
    rw [execWords]
    cases hword : decodeUop word with
    | error e => simp [hword] at h
    | ok i =>
      simp only [hword] at h ⊢
      cases hrun : exec i s with
      | next u => simp only [hrun] at h ⊢; exact ih h
      | fault e => simp [hrun] at h
      | refused r => simp [hrun] at h

/-- A run of words that completes also completes up to any of its words. -/
theorem execWords_take {ws : List UopWord} {s t : State} (h : execWords ws s = .next t) (j : Nat) :
    ∃ u, execWords (ws.take j) s = .next u := by
  rw [← List.take_append_drop j ws] at h
  exact execWords_append h

/-- Steady words run one step each: on the datapath as `execWords` says, and the counters beside it. -/
theorem run_words {ws tail : List UopWord} {is : List Instr} {s t : State} {q : Seq}
    (hdecodes : Decodes ws is) (hsteady : ∀ i ∈ is, Steady i) (htail : tail ≠ [])
    (hreset : s.resetIn = false) (hturns : s.turns = []) (hoff : q.off = s.this.seq.off)
    (hrun : execWords ws s = .next t) :
    core.run ws.length (s.resequence (ws ++ tail) q) =
      .next (t.resequence tail (Seq.along is (Seq.toward tail) q)) := by
  induction hdecodes generalizing s q with
  | nil => cases hrun; rfl
  | @cons word i ws is hi hdecodes ih =>
    obtain ⟨⟨hmark, hcount⟩, his⟩ := List.forall_mem_cons.mp hsteady
    cases hexec : exec i s with
    | fault e => simp [execWords, hi, hexec] at hrun
    | refused r => simp [execWords, hi, hexec] at hrun
    | next u =>
      obtain ⟨-, hseq, -, -, -, -, -, -, hturns', -, hreset', -⟩ :=
        execUop_frame (decodeUop_isCommand hi) hexec
      have hstep := step_resequence hreset hturns hoff hi hexec (ws ++ tail)
      rw [State.markSchedule_of_ne hmark, State.proceed_of_ne_nil (by simp [htail]),
        Seq.toward_append hdecodes] at hstep
      rw [execWords_cons hi hexec] at hrun
      rw [List.length_cons, List.cons_append, run_succ hstep, Seq.along]
      refine ih his (hreset'.trans hreset) (hturns'.trans hturns) ?_ hrun
      rw [← Seq.toward_append hdecodes, Seq.toward_off, Seq.leaving_off hcount, hoff, hseq]

/-- A run of words stops before any word that comes after steady ones. -/
theorem run_take {ws tail : List UopWord} {is : List Instr} {s u : State} {q : Seq} {j : Nat}
    (hdecodes : Decodes ws is) (hj : j < is.length) (hsteady : ∀ i ∈ is.take j, Steady i)
    (hreset : s.resetIn = false) (hturns : s.turns = []) (hoff : q.off = s.this.seq.off)
    (hrun : execWords (ws.take j) s = .next u) :
    core.run j (s.resequence (ws ++ tail) q) =
      .next (u.resequence (ws.drop j ++ tail) (Seq.along (is.take j) (Seq.entering is[j]) q)) := by
  have hj' : j < ws.length := hdecodes.length_eq ▸ hj
  have hnext : Seq.toward (ws.drop j ++ tail) = Seq.entering is[j] := by
    rw [List.drop_eq_getElem_cons hj', List.cons_append]
    exact Seq.toward_cons (hdecodes.get hj' hj) _
  have hpart := run_words (tail := ws.drop j ++ tail) (List.forall₂_take j hdecodes) hsteady
    (by simp [hj']) hreset hturns hoff hrun
  rwa [← List.append_assoc, List.take_append_drop, List.length_take_of_le (Nat.le_of_lt hj'),
    hnext] at hpart

/-! ## The counters in a block encryption and in a key expansion -/

/-- The micro-operations of a full round. -/
def roundInstrs (r : Nat) : List Instr := [.subbytes, .shiftrows, .mixcolumns, .addroundkey r]

/-- The micro-operations of `CIPHER(src)`. -/
def cipherInstrs (src : LoadSource) : List Instr :=
  [.ldstate src, .addroundkey 0] ++ (List.range' 1 13).flatMap roundInstrs ++
    [.subbytes, .shiftrows, .addroundkey 14]

/-- The micro-operations of a key expansion. -/
def keyExpandInstrs : List Instr := .ksload :: scheduleIndices.map .ksword

/-- The words of full rounds name their micro-operations. -/
theorem decodes_rounds {rs : List Nat} (hrs : ∀ r ∈ rs, r < 15) :
    Decodes (rs.flatMap roundProgram) (rs.flatMap roundInstrs) := by
  induction rs with
  | nil => exact .nil
  | cons r rs ih =>
    obtain ⟨hr, hrs⟩ := List.forall_mem_cons.mp hrs
    exact .cons decodeUop_subbytes (.cons decodeUop_shiftrows (.cons decodeUop_mixcolumns
      (.cons (decodeUop_addroundkey r hr) (ih hrs))))

/-- The words of `CIPHER` name its micro-operations. -/
theorem decodes_cipherProgram (src : LoadSource) : Decodes (cipherProgram src) (cipherInstrs src) := by
  have hfirst : Decodes [putUop 0x3 src.arg, putUop 0x7 0] [.ldstate src, .addroundkey 0] :=
    .cons (decodeUop_ldstate src) (.cons (decodeUop_addroundkey 0 (by decide)) .nil)
  have hlast : Decodes [putUop 0x4 0, putUop 0x5 0, putUop 0x7 14]
      [.subbytes, .shiftrows, .addroundkey 14] :=
    .cons decodeUop_subbytes (.cons decodeUop_shiftrows
      (.cons (decodeUop_addroundkey 14 (by decide)) .nil))
  exact List.rel_append (List.rel_append hfirst (decodes_rounds (by decide))) hlast

/-- The words of a key expansion name its micro-operations. -/
theorem decodes_keyExpandProgram : Decodes keyExpandProgram keyExpandInstrs := by
  refine .cons decodeUop_ksload ?_
  rw [List.forall₂_map_left_iff, List.forall₂_map_right_iff, List.forall₂_same]
  exact decodeUop_ksword

/-- The micro-operations of `CIPHER` are steady. -/
theorem steady_cipherInstrs (src : LoadSource) : ∀ i ∈ cipherInstrs src, Steady i := by
  intro i hi
  simp only [cipherInstrs, roundInstrs, List.mem_append, List.mem_flatMap, List.mem_cons,
    List.not_mem_nil, or_false] at hi
  constructor <;> rintro rfl <;> simp at hi

/-- The micro-operations of a key expansion before KSWORD(59) are steady. -/
theorem steady_keyExpandInstrs : ∀ i ∈ keyExpandInstrs.take 52, Steady i := by
  have hwords : keyExpandInstrs.take 52 = .ksload :: (List.range' 8 51).map .ksword := by rfl
  rw [hwords]
  refine List.forall_mem_cons.mpr ⟨⟨nofun, nofun⟩, fun i hi => ?_⟩
  obtain ⟨j, hj, rfl⟩ := List.mem_map.mp hi
  rw [List.mem_range'_1] at hj
  exact ⟨fun h => by simp at h; omega, nofun⟩

/-- The counters at word `j` of `CIPHER` (R31), with the fields that `CIPHER` leaves from `q`. -/
def cipherPosition (q : Seq) (j : Nat) : Seq :=
  { q with
    phase := .cipher
    rnd := if j < 2 then 0 else (j - 2) / 4 + 1
    step :=
      if j < 2 ∨ j = 56 then .addroundkey
      else if j % 4 = 2 then .subbytes
      else if j % 4 = 3 then .shiftrows
      else if j % 4 = 0 then .mixcolumns
      else .addroundkey }

/-- The counters of `CIPHER` follow from one micro-operation to the next (R31), evaluated for each. -/
theorem cipherPosition_succ (src : LoadSource) (q : Seq) (j : Nat)
    (hj : j + 1 < (cipherInstrs src).length) :
    ((cipherPosition q j).leaving (cipherInstrs src)[j]).entering (cipherInstrs src)[j + 1] =
      cipherPosition q (j + 1) := by
  have hj' : j < 56 := Nat.lt_of_succ_lt_succ hj
  interval_cases j <;> rfl

/-- Settles O50: the run by `run_take`, the counters by `cipherPosition_succ`. -/
theorem cipherCountersFollowTheRounds : Obligations.CipherCountersFollowTheRounds := by
  intro s src word extra q hreset hturns hp hseq j hj
  have hlt : j < (cipherInstrs src).length := Nat.lt_succ_of_le hj
  have hstart : s.this.seq = cipherPosition q 0 :=
    hseq.trans (congrFun (Seq.toward_cons (decodeUop_ldstate src) _) q)
  have hrun := execWords_cipherProgram (execLdstate_eq src s) []
  rw [List.append_nil] at hrun
  obtain ⟨v, hv⟩ := execWords_take hrun j
  have hu := run_take (tail := word :: extra) (q := s.this.seq) (decodes_cipherProgram src) hlt
    (fun i hi => steady_cipherInstrs src i (List.mem_of_mem_take hi)) hreset hturns rfl hv
  rw [← hp, State.resequence_self, hstart,
    Seq.along_eq_positions _ (cipherPosition_succ src q) j hlt] at hu
  exact ⟨_, hu, rfl, rfl, rfl, rfl⟩

/-- The counters at word `j` of a key expansion (R31), with the fields that it leaves from `q`. -/
def keyExpandPosition (q : Seq) (j : Nat) : Seq :=
  { q with
    phase := .kexp
    wi := if j = 0 then 8 else j + 7 }

/-- The counters of a key expansion follow from one micro-operation to the next (R31). -/
theorem keyExpandPosition_succ (q : Seq) (j : Nat) (hj : j + 1 < keyExpandInstrs.length) :
    ((keyExpandPosition q j).leaving keyExpandInstrs[j]).entering keyExpandInstrs[j + 1] =
      keyExpandPosition q (j + 1) := by
  cases j with
  | zero => rfl
  | succ j =>
    have hnext : keyExpandInstrs[j + 1 + 1] = .ksword (j + 9) := by
      simp [keyExpandInstrs, scheduleIndices]; omega
    have hthis : keyExpandInstrs[j + 1] = .ksword (j + 8) := by
      simp [keyExpandInstrs, scheduleIndices]; omega
    rw [hnext, hthis]
    rfl

/-- Settles O51: the run by `run_take`, the counters by `keyExpandPosition_succ`. -/
theorem keyExpansionCountersFollowTheWords : Obligations.KeyExpansionCountersFollowTheWords := by
  intro s word extra q hreset hturns hunused hp hseq j hj
  have hlt : j < keyExpandInstrs.length := Nat.lt_succ_of_le hj
  have hstart : s.this.seq = keyExpandPosition q 0 :=
    hseq.trans (congrFun (Seq.toward_cons decodeUop_ksload _) q)
  have hsteady : ∀ i ∈ keyExpandInstrs.take j, Steady i := fun i hi =>
    steady_keyExpandInstrs i (List.take_subset_take_left _ hj hi)
  obtain ⟨v, hv⟩ := execWords_take (keyExpansionSequenceIsKeyExpand.2 s hunused) j
  have hu := run_take (tail := word :: extra) (q := s.this.seq) decodes_keyExpandProgram hlt
    hsteady hreset hturns rfl hv
  rw [← hp, State.resequence_self, hstart,
    Seq.along_eq_positions _ (keyExpandPosition_succ q) j hlt] at hu
  exact ⟨_, hu, rfl, rfl, rfl⟩

end Sys2Proof.Machine
end

