-- ==== Sys2Proof/Proofs/SequenceRuns.lean ====
section
/-! SUPPORT. The runs of the fixed sequences inside a command (41_key_schedule.md R134, 44_ofb_stream.md R186,
R187): the key expansion, one iteration of the chunk loop, and the whole loop. -/

namespace Sys2Proof.Machine

/-! ## The end of a sequence -/

/-- A word that is not KSWORD(59) runs, and what is left comes next. -/
theorem run_last {i : Instr} {word : UopWord} {s t : State} {q : Seq} (hi : i ≠ .ksword 59)
    (hreset : s.resetIn = false) (hturns : s.turns = []) (hoff : q.off = s.this.seq.off)
    (hword : decodeUop word = .ok i) (h : exec i s = .next t) (rest : List UopWord) :
    core.run 1 (s.resequence (word :: rest) q) =
      .next (t.proceed rest ((q.leaving i).toward rest)) := by
  rw [run_one (step_resequence hreset hturns hoff hword h rest), State.markSchedule_of_ne hi]

/-- A command whose result lies in the result memory ends with it. -/
theorem State.finishCommand_bytes {s : State} {c : CommandKind} (h : s.this.work.running = some c)
    (hc : c = .encblk ∨ c = .stream ∨ c = .ofbchunk) :
    s.finishCommand = s.respond .ok s.this.work.out.bytes := by
  rw [State.finishCommand_running h]
  rcases hc with rfl | rfl | rfl <;> rfl

/-! ## The key expansion -/

/-- The words of a key expansion before its last. -/
def keyExpandInit : List UopWord := putUop 0x1 0 :: (List.range' 8 51).map (putUop 0x2)

/-- The last word of a key expansion is KSWORD(59). -/
theorem keyExpandProgram_eq : keyExpandProgram = keyExpandInit ++ [putUop 0x2 59] := by rfl

/-- They name all micro-operations but the last. -/
theorem decodes_keyExpandInit : Decodes keyExpandInit (keyExpandInstrs.take 52) := by
  have hinit : keyExpandInit = keyExpandProgram.take 52 := by rfl
  rw [hinit]
  exact List.forall₂_take 52 decodes_keyExpandProgram

/-- The last word of the expansion completes it, whatever stood there before. -/
theorem stepWord_expandInit (key : Key) (w : Schedule) :
    stepWord ((List.range' 8 51).foldl stepWord (loadKeyWords key w)) 59 = keyExpand key := by
  have hsplit : scheduleIndices = List.range' 8 51 ++ [59] := List.range'_1_concat
  have hexpand := expandInto_eq key w
  rwa [expandInto, hsplit, List.foldl_append, List.foldl_cons, List.foldl_nil] at hexpand

/-- The key expansion of a command (R134): `W` is the expansion of the key operand, `KS_VALID` is set, and
`rest` comes next. -/
theorem run_keyExpandProgram {s : State} {q : Seq} (hreset : s.resetIn = false) (hturns : s.turns = [])
    (hunused : s.scheduleInUse = false) (hrunning : s.this.work.running.isSome = true)
    (hoff : q.off = s.this.seq.off) (rest : List UopWord) :
    ∃ q' : Seq, q'.off = q.off ∧ core.run 53 (s.resequence (keyExpandProgram ++ rest) q) =
      .next (((s.setW (keyExpand s.this.work.key)).setKsValid true).proceed rest (q'.toward rest)) := by
  have hindices : ∀ i ∈ List.range' 8 51, i ∈ scheduleIndices := by decide
  have hinit := execWords_ksload_kswords hindices [] hunused
  rw [List.append_nil] at hinit
  have hlast := exec_ksword_unused (s := s.setW ((List.range' 8 51).foldl stepWord
    (loadKeyWords s.this.work.key s.w))) (i := 59) (by decide) (by decide)
    ((s.setW_scheduleInUse _).trans hunused)
  have hexpanded := stepWord_expandInit s.this.work.key s.w
  rw [State.setW_w, hexpanded, State.setW_setW] at hlast
  generalize (List.range' 8 51).foldl stepWord (loadKeyWords s.this.work.key s.w) = w at hinit hlast
  generalize keyExpand s.this.work.key = expanded at hlast ⊢
  have hrun := run_words decodes_keyExpandInit steady_keyExpandInstrs (tail := putUop 0x2 59 :: rest)
    (by simp) hreset hturns hoff hinit
  have halong := Seq.along_off steady_keyExpandInstrs (Seq.toward_off (putUop 0x2 59 :: rest)) q
  generalize Seq.along (keyExpandInstrs.take 52) (Seq.toward (putUop 0x2 59 :: rest)) q = q' at hrun halong
  have hstep := step_resequence (s := s.setW w) hreset hturns (halong.trans hoff)
    (decodeUop_ksword 59 (by decide)) hlast rest
  have hmark : (s.setW expanded).markSchedule (.ksword 59) = (s.setW expanded).setKsValid true := by
    rw [State.markSchedule_eq]; simp [hrunning]
  rw [hmark] at hstep
  refine ⟨q'.leaving (.ksword 59), (Seq.leaving_off (i := .ksword 59) (by simp) _).trans halong, ?_⟩
  rw [keyExpandProgram_eq, List.append_assoc]
  exact (run_add 52 1 _ _ hrun).trans (run_one hstep)

/-! ## The chunk loop -/

/-- What an iteration of the chunk loop does on the datapath (R180, R186): the whole keystream block in `S`
and `FB`, and the output chunk at `SEQ.OFF`. -/
def State.chunkDone (chunk : List Byte) (s : State) : State :=
  ((s.setGrid (encryptBlock s.this.fb s.w)).memWrite s.this.seq.off
    (xorChunk chunk (encryptBlock s.this.fb s.w))).setFb (encryptBlock s.this.fb s.w)

/-- The micro-operations of an iteration of the chunk loop before its last. -/
def chunkInitInstrs (n : Nat) : List Instr := cipherInstrs .feedback ++ [.ofbxor n]

/-- They are steady. -/
theorem steady_chunkInitInstrs (n : Nat) : ∀ i ∈ chunkInitInstrs n, Steady i :=
  List.forall_mem_append.mpr ⟨steady_cipherInstrs .feedback, List.forall_mem_singleton.mpr ⟨nofun, nofun⟩⟩

/-- The words of an iteration before its last name them. -/
theorem decodes_chunkInit {n : Nat} (h : n ≤ 16) :
    Decodes (cipherProgram .feedback ++ [putUop 0xA n]) (chunkInitInstrs n) :=
  List.rel_append (decodes_cipherProgram .feedback)
    (.cons (decodeUop_ofbxor n (Nat.lt_succ_of_le h)) .nil)

/-- The last word of an iteration is FBUPDATE. -/
theorem chunkProgram_eq (chunk : List Byte) :
    chunkProgram chunk = (cipherProgram .feedback ++ [putUop 0xA chunk.length]) ++ [putUop 0xB 0] := by
  rw [chunkProgram, List.append_assoc]; rfl

/-- `CIPHER` is 57 words. -/
theorem cipherProgram_length (src : LoadSource) : (cipherProgram src).length = 57 :=
  (cipherSequenceIsEncryptBlock src).1

section
variable {s : State} {chunk : List Byte} (h1 : 1 ≤ chunk.length) (h16 : chunk.length ≤ 16)
  (hchunk : (s.this.work.data.drop s.this.seq.off).take chunk.length = chunk)
include h1 h16 hchunk

/-- The words of an iteration before its last, on the datapath. -/
theorem execWords_chunkInit :
    execWords (cipherProgram .feedback ++ [putUop 0xA chunk.length]) s =
      .next ((s.setGrid (encryptBlock s.this.fb s.w)).memWrite s.this.seq.off
        (xorChunk chunk (encryptBlock s.this.fb s.w))) := by
  have hlength := congrArg List.length hchunk
  rw [List.length_take, List.length_drop] at hlength
  have hd : s.this.seq.off + chunk.length ≤ s.this.work.data.length := by omega
  rw [execWords_cipherProgram (exec_ldstate_feedback s)]
  generalize encryptBlock s.this.fb s.w = g
  have hrun := exec_ofbxor (s := s.setGrid g) h1 h16 hd
  rw [State.setGrid_this] at hrun
  rw [execWords_cons (decodeUop_ofbxor chunk.length (Nat.lt_succ_of_le h16)) hrun, hchunk]
  rfl

/-- An iteration of the chunk loop takes 59 steps, and `rest` comes next with `OFF` 16 further (R187). -/
theorem run_chunkProgram {q : Seq} (hreset : s.resetIn = false) (hturns : s.turns = [])
    (hoff : q.off = s.this.seq.off) (rest : List UopWord) :
    ∃ q' : Seq, q'.off = q.off + 16 ∧ core.run 59 (s.resequence (chunkProgram chunk ++ rest) q) =
      .next ((s.chunkDone chunk).proceed rest (q'.toward rest)) := by
  have hinit := execWords_chunkInit h1 h16 hchunk
  have hlength : (cipherProgram .feedback ++ [putUop 0xA chunk.length]).length = 58 := by
    rw [List.length_append, cipherProgram_length]; rfl
  have hrun := run_words (decodes_chunkInit h16) (steady_chunkInitInstrs _) (tail := putUop 0xB 0 :: rest)
    (by simp) hreset hturns hoff hinit
  rw [hlength] at hrun
  have halong := Seq.along_off (steady_chunkInitInstrs chunk.length)
    (Seq.toward_off (putUop 0xB 0 :: rest)) q
  generalize Seq.along (chunkInitInstrs chunk.length) (Seq.toward (putUop 0xB 0 :: rest)) q = q'
    at hrun halong
  have hstep := run_last (i := .fbupdate) (by simp) (by simpa using hreset) (by simpa using hturns)
    (by simpa using halong.trans hoff) decodeUop_fbupdate (exec_fbupdate ((s.setGrid (encryptBlock
      s.this.fb s.w)).memWrite s.this.seq.off (xorChunk chunk (encryptBlock s.this.fb s.w)))) rest
  refine ⟨q'.leaving .fbupdate, congrArg (· + 16) halong, ?_⟩
  rw [chunkProgram_eq, List.append_assoc]
  exact (run_add 58 1 _ _ hrun).trans hstep

end

/-- The counters a machine stands with do not count when others take their place. -/
theorem State.resequence_setSeq (s : State) (q q' : Seq) (ws : List UopWord) :
    (s.setSeq q).resequence ws q' = s.resequence ws q' := rfl

/-- What a chunk loop leaves of the acting core, and the response with its output. -/
def State.finishLoop (r : StreamRun) (s : State) : State :=
  ((s.setGrid r.grid).setFb r.fb).respond .ok r.out

/-- A chunk of the loop leaves everything else of the machine. -/
theorem State.chunkDone_frame (chunk : List Byte) (s : State) :
    (s.chunkDone chunk).w = s.w ∧ (s.chunkDone chunk).resetIn = s.resetIn ∧
      (s.chunkDone chunk).turns = s.turns := by
  simp [State.chunkDone]

/-- What a chunk of the loop writes of the acting core. -/
theorem State.chunkDone_this (chunk : List Byte) (s : State) :
    (s.chunkDone chunk).this = { s.this with
      grid := encryptBlock s.this.fb s.w
      fb := encryptBlock s.this.fb s.w
      work := { s.this.work with
        out := s.this.work.out.write s.this.seq.off (xorChunk chunk (encryptBlock s.this.fb s.w)) } } := by
  simp [State.chunkDone]

/-- Of a chunk of the loop nothing lasts that the end of the command does not write again. -/
theorem State.finishLoop_chunkDone (chunk : List Byte) (q : Seq) (r : StreamRun) (s : State) :
    ((s.chunkDone chunk).setSeq q).finishLoop r = s.finishLoop r := by
  rw [State.chunkDone]
  generalize encryptBlock s.this.fb s.w = g
  rfl

/-- The last chunk of a command: its result is the bytes written before and the output chunk. -/
theorem State.finishCommand_chunkDone {s : State} {c : CommandKind} (chunk : List Byte)
    (hrunning : s.this.work.running = some c) (hc : c = .encblk ∨ c = .stream ∨ c = .ofbchunk)
    (hout : ∀ cell ∈ s.this.work.out, cell.1 < s.this.seq.off) :
    (s.chunkDone chunk).finishCommand =
      s.finishLoop (streamChunk s.w ⟨s.this.grid, s.this.fb, s.this.work.out.bytes⟩ chunk) := by
  have hbytes := (Memory.bytes_write_append s.this.work.out s.this.seq.off
    (xorChunk chunk (encryptBlock s.this.fb s.w)) hout).1
  have hend := State.finishCommand_bytes (s := s.chunkDone chunk) (c := c)
    (by rwa [State.chunkDone_this]) hc
  have hrespond := State.finishLoop_chunkDone chunk s.this.seq
    (streamChunk s.w ⟨s.this.grid, s.this.fb, s.this.work.out.bytes⟩ chunk) s
  rw [hend, ← hrespond, State.finishLoop, streamChunk, ← hbytes, State.chunkDone_this, State.chunkDone]
  generalize encryptBlock s.this.fb s.w = g
  rfl

/-- The first of the chunks that are left. -/
theorem take_take_length (d : List Byte) : d.take (d.take 16).length = d.take 16 := by
  rw [List.length_take]
  rcases Nat.le_total 16 d.length with h | h
  · rw [Nat.min_eq_left h]
  · rw [Nat.min_eq_right h, List.take_length, List.take_of_length_le h]

/-- The first chunk of what is left of the data operand, and the chunks after it. -/
theorem run_firstChunk {s : State} {q : Seq} {d : List Byte} (hd : d ≠ []) (hreset : s.resetIn = false)
    (hturns : s.turns = []) (hoff : q.off = s.this.seq.off)
    (hdata : s.this.work.data.drop s.this.seq.off = d) :
    ∃ q' : Seq, q'.off = q.off + 16 ∧
      core.run 59 (s.resequence ((chunks d).flatMap chunkProgram) q) =
        .next ((s.chunkDone (d.take 16)).proceed ((chunks (d.drop 16)).flatMap chunkProgram)
          (q'.toward ((chunks (d.drop 16)).flatMap chunkProgram))) := by
  have hpos : 0 < d.length := List.length_pos_of_ne_nil hd
  rw [chunks_of_ne_nil hd, List.flatMap_cons]
  exact run_chunkProgram (by simp; omega) (by simp) (by rw [hdata, take_take_length]) hreset hturns
    hoff _

/-- The chunk loop of a STREAM: 59 steps a chunk, and its result is that of the loop of R180. -/
theorem run_chunks (d : List Byte) : d ≠ [] → ∀ {s : State} {q : Seq}, s.resetIn = false → s.turns = [] →
    q.off = s.this.seq.off → s.this.work.running = some .stream →
    s.this.work.data.drop s.this.seq.off = d →
    (∀ cell ∈ s.this.work.out, cell.1 < s.this.seq.off) →
    core.run (59 * (chunks d).length) (s.resequence ((chunks d).flatMap chunkProgram) q) =
      .next (s.finishLoop ((chunks d).foldl (streamChunk s.w)
        ⟨s.this.grid, s.this.fb, s.this.work.out.bytes⟩)) := by
  induction d using chunk_induction with
  | nil => exact fun h => absurd rfl h
  | step d hd ih =>
    intro _ s q hreset hturns hoff hrunning hdata hout
    obtain ⟨q', hq', hfirst⟩ := run_firstChunk hd hreset hturns hoff hdata
    have hlength : 59 * (chunks d).length = 59 + 59 * (chunks (d.drop 16)).length := by
      rw [chunks_of_ne_nil hd, List.length_cons]; omega
    rw [hlength]
    by_cases hlast : d.drop 16 = []
    · rw [hlast] at hfirst ⊢
      rw [chunks_of_ne_nil hd, hlast, List.foldl_cons, chunks_nil, List.foldl_nil,
        ← State.finishCommand_chunkDone _ hrunning (.inr (.inl rfl)) hout]
      rw [chunks_of_ne_nil hd, hlast] at hfirst
      exact hfirst
    · have hne : (chunks (d.drop 16)).flatMap chunkProgram ≠ [] := by
        rw [chunks_of_ne_nil hlast, List.flatMap_cons, chunkProgram_eq]
        simp
      obtain ⟨hwritten, hbelow⟩ := Memory.bytes_write_append s.this.work.out s.this.seq.off
        (xorChunk (d.take 16) (encryptBlock s.this.fb s.w)) hout
      obtain ⟨hw, hreset', hturns'⟩ := s.chunkDone_frame (d.take 16)
      have hthis := s.chunkDone_this (d.take 16)
      have hend := fun q r => State.finishLoop_chunkDone (d.take 16) q r s
      rw [run_add 59 _ _ _ hfirst, State.proceed_of_ne_nil hne, chunks_of_ne_nil hd, List.foldl_cons,
        streamChunk, ← hwritten]
      generalize s.chunkDone (d.take 16) = u at *
      generalize encryptBlock s.this.fb s.w = g at *
      have hloop := ih hlast (s := u.setSeq q') (q := q'.toward ((chunks (d.drop 16)).flatMap chunkProgram))
        (hreset'.trans hreset) (hturns'.trans hturns) (Seq.toward_off _ _)
        (by rw [State.setSeq_this, hthis]; exact hrunning)
        (by rw [State.setSeq_this, hthis, hq', hoff, ← List.drop_drop, hdata])
        (fun cell hcell => by
          rw [State.setSeq_this, hthis] at hcell
          have hlt := hbelow cell hcell
          have hshort : (xorChunk (d.take 16) g).length ≤ 16 := by simp
          rw [State.setSeq_this, hq', hoff]
          omega)
      rwa [State.resequence_setSeq, hend, State.setSeq_w, State.setSeq_this, hw, hthis] at hloop

end Sys2Proof.Machine
end

