-- ==== Sys2Proof/Proofs/CommandRuns.lean ====
section
/-! SUPPORT. How validation begins each command, and the run of its words to the response that the command
gives at the grain of commands (00_scope.md R7, 70_reset_and_hazards.md R249, R250). -/

namespace Sys2Proof.Machine

/-! ## How a command begins -/

/-- What is held while a KEYEXP runs (R133). -/
def keyexpWork (k : Key) : Work :=
  { Work.none with running := some .keyexp, key := k, pending := keyExpandProgram }

/-- What is held while an ENCBLK runs (R167). -/
def encblkWork (b : Block) : Work :=
  { Work.none with running := some .encblk, blk := b, pending := cipherProgram .block ++ [putUop 0x8 0] }

/-- What is held while an OFBINIT runs (R185). -/
def ofbinitWork (v : Block) : Work :=
  { Work.none with running := some .ofbinit, iv := v, pending := ofbinitProgram }

/-- What is held while an OFBCHUNK runs (R186). -/
def ofbchunkWork (data : List Byte) : Work :=
  { Work.none with running := some .ofbchunk, data := data, pending := chunkProgram data }

/-- What is held while a STREAM runs (R187). -/
def streamWork (k : Key) (v : Block) (data : List Byte) : Work :=
  { Work.none with
    running := some .stream, key := k, iv := v, data := data, pending := streamProgram data }

section
variable {s : State}

/-- KEYEXP begins. -/
theorem start_keyexp_accepted (hu : s.scheduleInUse = false) (k : Key) :
    start (.keyexp k.toList) s = .next (s.begin (keyexpWork k)) := by
  simp [start, startKeyexp, checkKeyexp_toList, hu, keyexpWork]

/-- ENCBLK begins. -/
theorem start_encblk_accepted (hk : s.ksValid = true) (hc : s.scheduleChanging = false) (b : Block) :
    start (.encblk b.toList) s = .next (s.begin (encblkWork b)) := by
  simp [start, startEncblk, checkEncblk_toList hk, hc, encblkWork]

/-- OFBINIT begins. -/
theorem start_ofbinit_accepted (hk : s.ksValid = true) (v : Block) :
    start (.ofbinit v.toList) s = .next (s.begin (ofbinitWork v)) := by
  simp [start, startOfbinit, checkOfbinit, exactly_toList, hk, ofbinitWork]

/-- OFBCHUNK begins. -/
theorem start_ofbchunk_accepted {data : List Byte} (h1 : 1 ≤ data.length) (h16 : data.length ≤ 16)
    (hk : s.ksValid = true) (hf : s.this.fbValid = true) (hc : s.scheduleChanging = false) :
    start (.ofbchunk data) s = .next (s.begin (ofbchunkWork data)) := by
  simp [start, startOfbchunk, checkOfbchunk_valid h1 h16 hk hf, hc, ofbchunkWork]

/-- STREAM begins. -/
theorem start_stream_accepted (hu : s.scheduleInUse = false) (k : Key) (v : Block) (data : List Byte) :
    start (.stream k.toList v.toList data) s = .next (s.begin (streamWork k v data)) := by
  simp [start, startStream, checkStream, exactly_toList, hu, streamWork]

end

/-- A command with a failing check is refused by the validation with the error of the table (R215). -/
theorem start_rejected {i : Instr} {s : State} (hi : i.isCommand = true) (h : firstFailure i s ≠ .ok) :
    start i s = .next (s.raise (firstFailure i s)) := by
  cases i with
  | keyexp key =>
    obtain ⟨k, rfl, -⟩ | ⟨-, e⟩ := checkKeyexp_firstFailure key s
    · exact absurd (firstFailure_keyexp_toList k s) h
    · simp only [start, startKeyexp, e]
  | encblk block =>
    obtain ⟨b, rfl, hk, -⟩ | ⟨-, e⟩ := checkEncblk_firstFailure block s
    · exact absurd (firstFailure_encblk_toList hk b) h
    · simp only [start, startEncblk, e]
  | stream key iv data =>
    obtain ⟨k, v, rfl, rfl, -⟩ | ⟨-, e⟩ := checkStream_firstFailure key iv data s
    · exact absurd (firstFailure_stream_toList k v data s) h
    · simp only [start, startStream, e]
  | ofbinit iv =>
    obtain ⟨v, rfl, hk, -⟩ | ⟨-, e⟩ := checkOfbinit_firstFailure iv s
    · exact absurd (firstFailure_ofbinit_toList hk v) h
    · simp only [start, startOfbinit, e]
  | ofbchunk data =>
    obtain ⟨h1, h16, hk, hf, -⟩ | ⟨-, e⟩ := checkOfbchunk_firstFailure data s
    · exact absurd (firstFailure_ofbchunk_valid h1 h16 hk hf) h
    · simp only [start, startOfbchunk, e]
  | ksload | ksword _ | ldstate _ | subbytes | shiftrows | mixcolumns | addroundkey _ | ststate
  | fbload | ofbxor _ | fbupdate => cases hi

/-- The answer of a STREAM leaves nothing of the work held, and the IV loaded in between is written over. -/
theorem State.setWork_respond_streaming (s : State) (k : Work) (w : Schedule) (g b v : Block)
    (p : List Byte) :
    (((((((s.setWork k).setW w).setKsValid true).setFb v).setFbValid true).setGrid g).setFb b).respond
        .ok p =
      (((((s.setW w).setKsValid true).setGrid g).setFb b).setFbValid true).respond .ok p := rfl

/-! ## Runs that begin where the counters have come to the first word -/

section
variable {ws tail : List UopWord} {is : List Instr} {s t : State} {q : Seq}

/-- The counters come to the words and then to what follows them; `OFF` stays. -/
theorem run_words_toward (hdecodes : Decodes ws is) (hsteady : ∀ i ∈ is, Steady i) (htail : tail ≠ [])
    (hreset : s.resetIn = false) (hturns : s.turns = []) (hoff : q.off = s.this.seq.off)
    (hrun : execWords ws s = .next t) :
    ∃ q' : Seq, q'.off = q.off ∧
      core.run ws.length (s.resequence (ws ++ tail) (q.toward (ws ++ tail))) =
        .next (t.resequence tail (q'.toward tail)) := by
  have hwords := run_words hdecodes hsteady htail hreset hturns
    ((Seq.toward_off (ws ++ tail) q).trans hoff) hrun
  have hoff' := Seq.along_off hsteady (Seq.toward_off tail) (q.toward (ws ++ tail))
  rw [Seq.toward_off] at hoff'
  obtain ⟨q', hq'⟩ := Seq.along_coming is (Seq.toward tail) q
  rw [← Seq.toward_append hdecodes] at hq'
  rw [hq'] at hwords hoff'
  exact ⟨q', (Seq.toward_off tail q').symm.trans hoff', hwords⟩

/-- Before any word that comes after steady ones the counters have come to its micro-operation. -/
theorem run_take_toward {j : Nat} (hdecodes : Decodes ws is) (hj : j < is.length)
    (hsteady : ∀ i ∈ is.take j, Steady i) (hreset : s.resetIn = false) (hturns : s.turns = [])
    (hoff : q.off = s.this.seq.off) (hrun : execWords (ws.take j) s = .next t) :
    ∃ q' : Seq, q'.off = q.off ∧
      core.run j (s.resequence (ws ++ tail) (q.toward (ws ++ tail))) =
        .next (t.resequence (ws.drop j ++ tail) (q'.entering is[j])) := by
  have hj' : j < ws.length := hdecodes.length_eq ▸ hj
  have hnext : Seq.toward (ws.drop j ++ tail) = Seq.entering is[j] := by
    rw [List.drop_eq_getElem_cons hj', List.cons_append]
    exact Seq.toward_cons (hdecodes.get hj' hj) _
  have hpart := run_words_toward (tail := ws.drop j ++ tail) (List.forall₂_take j hdecodes) hsteady
    (by simp [hj']) hreset hturns hoff hrun
  rwa [← List.append_assoc, List.take_append_drop, List.length_take_of_le (Nat.le_of_lt hj'),
    hnext] at hpart

end

/-! ## The runs -/

section
variable {s : State} (hreset : s.resetIn = false) (hturns : s.turns = [])
include hreset hturns

/-- A KEYEXP that has begun ends 53 steps later (R133, R249). -/
theorem run_keyexp (hu : s.scheduleInUse = false) (k : Key) :
    core.run 53 (s.begin (keyexpWork k)) =
      .next ((((s.setW (keyExpand k)).setKsValid true).setFbValid false).respond .ok
        (scheduleBytes (keyExpand k))) := by
  obtain ⟨q', -, hrun⟩ := run_keyExpandProgram (s := s.setWork (keyexpWork k))
    (q := s.this.seq.toward keyExpandProgram) hreset hturns hu rfl (Seq.toward_off _ _) []
  have hkey : (s.setWork (keyexpWork k)).this.work.key = k := rfl
  rw [List.append_nil, State.proceed_nil, hkey] at hrun
  have hbegin : s.begin (keyexpWork k) = (s.setWork (keyexpWork k)).resequence keyExpandProgram
    (s.this.seq.toward keyExpandProgram) := rfl
  rw [hbegin, hrun]
  generalize keyExpand k = w
  rfl

/-- An OFBINIT that has begun ends with its one step (R185, R249). -/
theorem run_ofbinit (v : Block) :
    core.run 1 (s.begin (ofbinitWork v)) =
      .next (((s.setFb v).setFbValid true).respond .ok []) :=
  run_last (s := s.setWork (ofbinitWork v)) (by simp) hreset hturns (Seq.toward_off _ _)
    decodeUop_fbload (exec_fbload _) []

/-- An ENCBLK that has begun comes to its STSTATE 57 steps later. -/
theorem run_encblk_cipher (b : Block) :
    ∃ q : Seq, q.off = s.this.seq.off ∧ core.run 57 (s.begin (encblkWork b)) =
      .next (((s.setWork (encblkWork b)).setGrid (encryptBlock b s.w)).resequence [putUop 0x8 0]
        (q.entering .ststate)) := by
  have hload : exec (.ldstate .block) (s.setWork (encblkWork b)) =
    .next ((s.setWork (encblkWork b)).setGrid b) := rfl
  have hcipher := execWords_cipherProgram hload []
  rw [List.append_nil, execWords, State.setWork_w] at hcipher
  generalize encryptBlock b s.w = g at hcipher ⊢
  have hrun := run_words_toward (s := s.setWork (encblkWork b)) (tail := [putUop 0x8 0])
    (q := s.this.seq) (decodes_cipherProgram .block) (steady_cipherInstrs .block) (by simp) hreset hturns
    rfl hcipher
  rwa [cipherProgram_length, Seq.toward_cons decodeUop_ststate] at hrun

/-- An ENCBLK that has begun ends 58 steps later (R167, R249). -/
theorem run_encblk (b : Block) :
    core.run 58 (s.begin (encblkWork b)) =
      .next ((s.setGrid (encryptBlock b s.w)).respond .ok (encryptBlock b s.w).toList) := by
  obtain ⟨q, hoff, hcipher⟩ := run_encblk_cipher hreset hturns b
  generalize encryptBlock b s.w = g at hcipher ⊢
  have hlast := run_last (s := (s.setWork (encblkWork b)).setGrid g) (q := q.entering .ststate) (by simp)
    hreset hturns ((Seq.entering_off .ststate q).trans hoff) decodeUop_ststate (exec_ststate _) []
  rw [run_add 57 1 _ _ hcipher, hlast, State.proceed_nil,
    State.finishCommand_bytes (c := .encblk) rfl (.inl rfl)]
  have hbytes := (Memory.bytes_write_append [] 0 g.toList (by simp)).1
  exact congrArg (fun p => Host.Outcome.next ((s.setGrid g).respond .ok p)) hbytes

/-- An OFBCHUNK that has begun ends 59 steps later (R186, R249). -/
theorem run_ofbchunk {data : List Byte} (h1 : 1 ≤ data.length) (h16 : data.length ≤ 16)
    (hoff : s.this.seq.off = 0) :
    core.run 59 (s.begin (ofbchunkWork data)) =
      .next (((s.setGrid (encryptBlock s.this.fb s.w)).setFb (encryptBlock s.this.fb s.w)).respond .ok
        (xorChunk data (encryptBlock s.this.fb s.w))) := by
  obtain ⟨q', -, hrun⟩ := run_chunkProgram (s := s.setWork (ofbchunkWork data))
    (q := s.this.seq.toward (chunkProgram data)) h1 h16 (by simp [ofbchunkWork, hoff]) hreset hturns
    (Seq.toward_off _ _) []
  have hbegin : s.begin (ofbchunkWork data) = (s.setWork (ofbchunkWork data)).resequence
    (chunkProgram data) (s.this.seq.toward (chunkProgram data)) := rfl
  rw [List.append_nil, State.proceed_nil, State.finishCommand_chunkDone (c := .ofbchunk) data rfl
    (.inr (.inr rfl)) (by simp [ofbchunkWork, Work.none]), ← hbegin] at hrun
  rw [hrun, State.finishLoop, streamChunk, State.setWork_this, State.setWork_w]
  generalize encryptBlock s.this.fb s.w = g
  rfl

end

/-- What the words of a STREAM before its chunk loop do on the datapath. -/
def State.streamReady (s : State) : State :=
  (((s.setW (keyExpand s.this.work.key)).setKsValid true).setFb s.this.work.iv).setFbValid true

/-- The first 54 words of a STREAM (R187): the key expansion and FBLOAD. -/
theorem run_streamOpening {s : State} {q : Seq} (hreset : s.resetIn = false) (hturns : s.turns = [])
    (hunused : s.scheduleInUse = false) (hrunning : s.this.work.running.isSome = true)
    (hoff : q.off = s.this.seq.off) (rest : List UopWord) :
    ∃ q' : Seq, q'.off = q.off ∧
      core.run (53 + 1) (s.resequence (keyExpandProgram ++ ofbinitProgram ++ rest) q) =
        .next (s.streamReady.proceed rest (q'.toward rest)) := by
  obtain ⟨q', hq', hexpand⟩ :=
    run_keyExpandProgram hreset hturns hunused hrunning hoff (ofbinitProgram ++ rest)
  rw [State.proceed_of_ne_nil (by simp [ofbinitProgram])] at hexpand
  rw [List.append_assoc, run_add 53 1 _ _ hexpand, State.streamReady]
  generalize keyExpand s.this.work.key = w
  refine ⟨(q'.toward (ofbinitProgram ++ rest)).leaving .fbload,
    (Seq.toward_off (ofbinitProgram ++ rest) q').trans hq', ?_⟩
  exact run_last (s := (s.setW w).setKsValid true) (by simp) hreset hturns
    ((Seq.toward_off _ _).trans (hq'.trans hoff)) decodeUop_fbload (exec_fbload _) rest

/-- What a machine with nothing written yet holds while its chunk loop begins. -/
theorem State.finishCommand_finishLoop {s : State} {c : CommandKind} (h : s.this.work.running = some c)
    (hc : c = .encblk ∨ c = .stream ∨ c = .ofbchunk) :
    s.finishCommand = s.finishLoop ⟨s.this.grid, s.this.fb, s.this.work.out.bytes⟩ := by
  rw [State.finishCommand_bytes h hc]
  rfl

/-- The chunk loop of a STREAM from its beginning, with no data as well (R187). -/
theorem run_streamLoop {s : State} (q : Seq) {data : List Byte} (hreset : s.resetIn = false)
    (hturns : s.turns = []) (hoff : s.this.seq.off = 0) (hq : q.off = 0)
    (hrunning : s.this.work.running = some .stream) (hdata : s.this.work.data = data)
    (hout : s.this.work.out = []) :
    core.run (59 * (chunks data).length) (s.proceed ((chunks data).flatMap chunkProgram)
      (q.toward ((chunks data).flatMap chunkProgram))) =
      .next (s.finishLoop (streamLoop s.w ⟨s.this.grid, s.this.fb, []⟩ data)) := by
  have hbytes : s.this.work.out.bytes = [] := by rw [hout]; rfl
  by_cases hd : data = []
  · have hend := State.finishCommand_finishLoop hrunning (.inr (.inl rfl))
    rw [hbytes] at hend
    rw [hd, streamLoop, chunks_nil]
    exact congrArg Host.Outcome.next hend
  · have hne : (chunks data).flatMap chunkProgram ≠ [] := by
      rw [chunks_of_ne_nil hd, List.flatMap_cons, chunkProgram_eq]
      simp
    rw [State.proceed_of_ne_nil hne, streamLoop, ← hbytes]
    exact run_chunks data hd hreset hturns (by rw [Seq.toward_off, hq, hoff]) hrunning
      (by rw [hdata, hoff, List.drop_zero]) (by simp [hout])

/-- The chunk loop of a STREAM leaves what the STREAM leaves at the grain of commands. -/
theorem State.finishLoop_streamReady (s : State) (k : Key) (v : Block) (data : List Byte) :
    (s.setWork (streamWork k v data)).streamReady.finishLoop
      (streamLoop (keyExpand k) ⟨s.this.grid, v, []⟩ data) = s.streamed k v data := by
  rw [streamLoop_eq, State.finishLoop, State.streamed, State.streamReady]
  generalize (if data = [] then s.this.grid
    else feedbackAfter (keyExpand k) v (chunks data).length) = g
  generalize feedbackAfter (keyExpand k) v (chunks data).length = b
  exact State.setWork_respond_streaming s _ _ _ _ _ _

section
variable {s : State} (hreset : s.resetIn = false) (hturns : s.turns = []) (hoff : s.this.seq.off = 0)
  (hu : s.scheduleInUse = false) (k : Key) (v : Block) (data : List Byte)
include hreset hturns

/-- The machine before the chunk loop. -/
theorem State.streamReady_streamWork :
    (s.setWork (streamWork k v data)).streamReady.w = keyExpand k ∧
      (s.setWork (streamWork k v data)).streamReady.resetIn = false ∧
      (s.setWork (streamWork k v data)).streamReady.turns = [] ∧
      (s.setWork (streamWork k v data)).streamReady.this =
        { s.this with fb := v, fbValid := true, work := streamWork k v data } := by
  simp [State.streamReady, streamWork, hreset, hturns]

include hoff hu

/-- A STREAM that has begun comes to its chunk loop 54 steps later, with `OFF` 0. -/
theorem run_stream_opening :
    ∃ q : Seq, q.off = 0 ∧ core.run (53 + 1) (s.begin (streamWork k v data)) =
      .next ((s.setWork (streamWork k v data)).streamReady.proceed
        ((chunks data).flatMap chunkProgram) (q.toward ((chunks data).flatMap chunkProgram))) := by
  obtain ⟨q, hq, hopen⟩ := run_streamOpening (s := s.setWork (streamWork k v data))
    (q := s.this.seq.toward (streamProgram data)) hreset hturns hu rfl (Seq.toward_off _ _)
    ((chunks data).flatMap chunkProgram)
  exact ⟨q, by rw [hq, Seq.toward_off, hoff], hopen⟩

/-- A STREAM that has begun ends after its words (R187, R249). -/
theorem run_stream :
    core.run (53 + 1 + 59 * ((data.length + 15) / 16)) (s.begin (streamWork k v data)) =
      .next (s.streamed k v data) := by
  obtain ⟨q, hq, hopen⟩ := run_stream_opening hreset hturns hoff hu k v data
  obtain ⟨hw, hreset', hturns', hthis⟩ := State.streamReady_streamWork hreset hturns k v data
  have hend := s.finishLoop_streamReady k v data
  rw [← chunks_length, run_add _ _ _ _ hopen, ← hend]
  generalize (s.setWork (streamWork k v data)).streamReady = u at *
  have hloop := run_streamLoop (s := u) q (data := data) hreset' hturns' (by rw [hthis]; exact hoff) hq
    (by rw [hthis]; rfl) (by rw [hthis]; rfl) (by rw [hthis]; rfl)
  rwa [hw, hthis] at hloop

end

/-- Every command whose checks pass begins, and after the micro-operations that R249 counts it has given the
answer it gives at the grain of commands. -/
theorem CommandAnswer.run {i : Instr} {s t : State} (h : CommandAnswer s i t)
    (hok : firstFailure i s = .ok) (hreset : s.resetIn = false) (hturns : s.turns = [])
    (hoff : s.this.seq.off = 0) :
    ∃ u, start i s = .next u ∧ core.run (microCount i) u = .next t := by
  cases h with
  | rejected hfail => exact absurd hok hfail
  | keyexp k hu => exact ⟨_, start_keyexp_accepted hu k, run_keyexp hreset hturns hu k⟩
  | encblk b hk hc => exact ⟨_, start_encblk_accepted hk hc b, run_encblk hreset hturns b⟩
  | stream k v data hu =>
    exact ⟨_, start_stream_accepted hu k v data, run_stream hreset hturns hoff hu k v data⟩
  | ofbinit v hk => exact ⟨_, start_ofbinit_accepted hk v, run_ofbinit hreset hturns v⟩
  | ofbchunk data h1 h16 hk hf hc =>
    exact ⟨_, start_ofbchunk_accepted h1 h16 hk hf hc, run_ofbchunk hreset hturns h1 h16 hoff⟩

/-! ## The two grains -/

/-- The machine at the grain of micro-operations. -/
def State.fine (s : State) : State := { s with grain := .microOperation }

section
variable (s : State) (f : List Byte) (rest : List (List Byte)) (w : Schedule) (g b : Block)
  (p : List Byte)

/-- An error is raised alike. -/
theorem State.accept_raise (e : ResultCode) :
    (s.fine.accept f rest).raise e = ((s.take rest).raise e).fine := rfl

/-- A KEYEXP answers alike. -/
theorem State.accept_respond_rekeyed :
    ((((s.fine.accept f rest).setW w).setKsValid true).setFbValid false).respond .ok p =
      (((((s.take rest).setW w).setKsValid true).setFbValid false).respond .ok p).fine := rfl

/-- An ENCBLK answers alike. -/
theorem State.accept_respond_setGrid :
    ((s.fine.accept f rest).setGrid g).respond .ok p = (((s.take rest).setGrid g).respond .ok p).fine := rfl

/-- An OFBINIT answers alike. -/
theorem State.accept_respond_setFb :
    (((s.fine.accept f rest).setFb b).setFbValid true).respond .ok p =
      ((((s.take rest).setFb b).setFbValid true).respond .ok p).fine := rfl

/-- An OFBCHUNK answers alike. -/
theorem State.accept_respond_setFb_setGrid :
    (((s.fine.accept f rest).setGrid g).setFb b).respond .ok p =
      ((((s.take rest).setGrid g).setFb b).respond .ok p).fine := rfl

/-- A STREAM answers alike. -/
theorem State.accept_respond_streaming :
    ((((((s.fine.accept f rest).setW w).setKsValid true).setGrid g).setFb b).setFbValid true).respond
        .ok p =
      (((((((s.take rest).setW w).setKsValid true).setGrid g).setFb b).setFbValid true).respond
        .ok p).fine := rfl

/-- The table's checks read nothing that acceptance writes. -/
theorem firstFailure_accept (i : Instr) :
    firstFailure i (s.fine.accept f rest) = firstFailure i (s.take rest) := by
  cases i <;> rfl

end

/-- A command has the same answer whether its frame has been taken or accepted. -/
theorem CommandAnswer.accept {s t : State} {i : Instr} {rest : List (List Byte)}
    (h : CommandAnswer (s.take rest) i t) (f : List Byte) :
    CommandAnswer (s.fine.accept f rest) i t.fine := by
  cases h with
  | rejected hfail =>
    rw [← State.accept_raise s f, ← firstFailure_accept s f]
    exact .rejected (by rwa [firstFailure_accept])
  | keyexp k hu =>
    rw [← State.accept_respond_rekeyed s f]
    exact .keyexp k hu
  | encblk b hk hc =>
    rw [← State.accept_respond_setGrid s f]
    exact .encblk b hk hc
  | stream k v data hu =>
    have hanswer := CommandAnswer.stream (s := s.fine.accept f rest) k v data hu
    rwa [State.streamed, State.accept_respond_streaming] at hanswer
  | ofbinit v hk =>
    rw [← State.accept_respond_setFb s f]
    exact .ofbinit v hk
  | ofbchunk data h1 h16 hk hf hc =>
    rw [← State.accept_respond_setFb_setGrid s f]
    exact .ofbchunk data h1 h16 hk hf hc

/-- Settles O52: the frame is accepted, then validated; a malformed frame or a failing check ends there, and
otherwise `CommandAnswer.run` goes on to the answer, which is the same by `CommandAnswer.accept`. -/
theorem microOperationsPerformTheCommand : Obligations.MicroOperationsPerformTheCommand := by
  intro s t f rest hready hgrain h
  have hready' : s.fine.ReadyFor f rest :=
    ⟨hready.noReset, hready.sameTurn, hready.noneHeld, hready.nonePending, hready.notBusy,
      hready.offered⟩
  have haccept := step_accept hready' rfl
  have hvalidate : step (s.fine.accept f rest) = validateFrame f (s.fine.accept f rest) :=
    step_held hready.noReset hready.sameTurn rfl rfl
  change core.run _ s.fine = .next t.fine
  rw [step_command hready hgrain, perform] at h
  rw [validateFrame] at hvalidate
  cases hf : decodeFrame f with
  | error e =>
    simp only [hf] at h hvalidate
    have ht := next_unique h rfl
    simp only [microSteps, hf]
    rw [run_succ haccept, run_one hvalidate, ht, State.accept_raise]
  | ok i =>
    simp only [hf] at h hvalidate
    have hi := decodeFrame_isCommand hf
    have hanswer := exec_answer hi h
    have hanswer' := hanswer.accept f
    have hcode := hanswer.err_eq
    simp only [microSteps, hf]
    by_cases hok : t.this.err = .ok
    · obtain ⟨u, hstart, hrun⟩ := hanswer'.run
        ((firstFailure_accept s f rest i).trans (hcode.symm.trans hok)) hready.noReset hready.sameTurn rfl
      rw [if_pos hok, Nat.add_comm, run_succ haccept, run_succ (hvalidate.trans hstart), hrun]
    · have hfail : firstFailure i (s.take rest) ≠ .ok := hcode ▸ hok
      have hstart := start_rejected hi (s := s.fine.accept f rest) (by rwa [firstFailure_accept])
      rw [if_neg hok, run_succ haccept, run_one (hvalidate.trans hstart), firstFailure_accept,
        State.accept_raise, next_unique h (exec_rejected hi hfail)]

end Sys2Proof.Machine
end

