-- ==== Sys2Proof/Proofs/OutputCounters.lean ====
section
/-! SUPPORT. `PHASE` and `OFF` while a command puts out its result (10_state.md R31, 44_ofb_stream.md R187). -/

namespace Sys2Proof.Machine

/-- The counters come to every word of `CIPHER` with `PHASE` CIPHER. -/
theorem Seq.entering_cipherInstrs {src : LoadSource} {i : Instr} (h : i ∈ cipherInstrs src) (q : Seq) :
    (q.entering i).phase = .cipher := by
  simp only [cipherInstrs, roundInstrs, List.mem_append, List.mem_flatMap, List.mem_cons,
    List.not_mem_nil, or_false] at h
  rcases h with ((rfl | rfl) | ⟨r, -, rfl | rfl | rfl | rfl⟩) | rfl | rfl | rfl <;> rfl

/-- The micro-operations of an iteration of the chunk loop. -/
def chunkInstrs (n : Nat) : List Instr := chunkInitInstrs n ++ [.fbupdate]

/-- `CIPHER` is 57 micro-operations. -/
theorem cipherInstrs_length (src : LoadSource) : (cipherInstrs src).length = 57 :=
  (decodes_cipherProgram src).length_eq.symm.trans (cipherProgram_length src)

/-- An iteration without its last micro-operation is 58. -/
theorem chunkInitInstrs_length (n : Nat) : (chunkInitInstrs n).length = 58 := by
  rw [chunkInitInstrs, List.length_append, cipherInstrs_length]; rfl

/-- An iteration is 59 micro-operations. -/
theorem chunkInstrs_length (n : Nat) : (chunkInstrs n).length = 59 := by
  rw [chunkInstrs, List.length_append, chunkInitInstrs_length]; rfl

/-- The words of an iteration name its micro-operations. -/
theorem decodes_chunkProgram {chunk : List Byte} (h : chunk.length ≤ 16) :
    Decodes (chunkProgram chunk) (chunkInstrs chunk.length) := by
  rw [chunkProgram_eq]
  exact List.rel_append (decodes_chunkInit h) (.cons decodeUop_fbupdate .nil)

/-- During an iteration `PHASE` is CIPHER in `CIPHER(1)`, and EMIT in OFBXOR and FBUPDATE (R31). -/
theorem Seq.entering_chunkInstrs (n j : Nat) (hj : j < (chunkInstrs n).length) (q : Seq) :
    (q.entering (chunkInstrs n)[j]).phase = if j < 57 then .cipher else .emit := by
  have hsplit : chunkInstrs n = cipherInstrs .feedback ++ [.ofbxor n, .fbupdate] := by
    rw [chunkInstrs, chunkInitInstrs, List.append_assoc]; rfl
  simp only [hsplit, List.getElem_append, cipherInstrs_length]
  split
  · exact Seq.entering_cipherInstrs (List.getElem_mem _) q
  · rw [chunkInstrs_length] at hj
    obtain rfl | rfl : j = 57 ∨ j = 58 := by omega
    all_goals rfl

/-- Inside an iteration of the chunk loop `OFF` stays and `PHASE` is as R31 says. -/
theorem run_withinChunk {s : State} {q : Seq} {chunk : List Byte} {j : Nat} (h1 : 1 ≤ chunk.length)
    (h16 : chunk.length ≤ 16)
    (hchunk : (s.this.work.data.drop s.this.seq.off).take chunk.length = chunk)
    (hreset : s.resetIn = false) (hturns : s.turns = []) (hoff : q.off = s.this.seq.off) (hj : j < 59)
    (rest : List UopWord) :
    ∃ t : State, core.run j (s.resequence (chunkProgram chunk ++ rest)
        (q.toward (chunkProgram chunk ++ rest))) = .next t ∧
      t.this.work.pending = (chunkProgram chunk).drop j ++ rest ∧ t.this.seq.off = q.off ∧
      t.this.seq.phase = if j < 57 then .cipher else .emit := by
  have hj' : j < (chunkInstrs chunk.length).length := (chunkInstrs_length _).symm ▸ hj
  have hsteady : ∀ i ∈ (chunkInstrs chunk.length).take j, Steady i := by
    rw [chunkInstrs, List.take_append_of_le_length (by rw [chunkInitInstrs_length]; omega)]
    exact fun i hi => steady_chunkInitInstrs _ i (List.mem_of_mem_take hi)
  obtain ⟨u, hu⟩ := execWords_take (execWords_chunkInit h1 h16 hchunk) j
  have hwords : (chunkProgram chunk).take j =
      (cipherProgram .feedback ++ [putUop 0xA chunk.length]).take j := by
    rw [chunkProgram_eq, List.take_append_of_le_length]
    rw [List.length_append, cipherProgram_length, List.length_singleton]
    omega
  obtain ⟨q', hq', hrun⟩ := run_take_toward (tail := rest) (decodes_chunkProgram h16) hj' hsteady hreset
    hturns hoff (hwords ▸ hu)
  exact ⟨_, hrun, rfl, (Seq.entering_off _ q').trans hq', Seq.entering_chunkInstrs _ j hj' q'⟩

/-! ## One chunk after another -/

/-- The machine that has done `n` whole chunks of `data`. -/
structure State.AtChunk (data : List Byte) (n : Nat) (s : State) : Prop where
  noReset : s.resetIn = false
  sameTurn : s.turns = []
  off : s.this.seq.off = 16 * n
  operand : s.this.work.data = data

/-- The words from chunk `n` of `data` on. -/
def chunkWords (data : List Byte) (n : Nat) : List UopWord :=
  (chunks (data.drop (16 * n))).flatMap chunkProgram

/-- They begin with the words of that chunk. -/
theorem chunkWords_of_lt {data : List Byte} {n : Nat} (hn : 16 * n < data.length) :
    chunkWords data n = chunkProgram ((data.drop (16 * n)).take 16) ++ chunkWords data (n + 1) := by
  have hne : data.drop (16 * n) ≠ [] := by simpa using hn
  rw [chunkWords, chunks_of_ne_nil hne, List.flatMap_cons, List.drop_drop]
  rfl

/-- There are such words. -/
theorem chunkWords_ne_nil {data : List Byte} {n : Nat} (hn : 16 * n < data.length) :
    chunkWords data n ≠ [] := by
  rw [chunkWords_of_lt hn, chunkProgram_eq]
  simp

/-- A whole chunk takes 59 steps, and `OFF` is 16 further after it (R187). -/
theorem run_toNextChunk {data : List Byte} {n : Nat} (hn : 16 * (n + 1) < data.length) {s : State}
    {q : Seq} (hs : s.AtChunk data n) (hq : q.off = 16 * n) :
    ∃ (u : State) (q' : Seq), u.AtChunk data (n + 1) ∧ q'.off = 16 * (n + 1) ∧
      core.run 59 (s.resequence (chunkWords data n) q) =
        .next (u.resequence (chunkWords data (n + 1)) (q'.toward (chunkWords data (n + 1)))) := by
  obtain ⟨hreset, hturns, hoff, hdata⟩ := hs
  have hlength : ((data.drop (16 * n)).take 16).length = 16 := by
    rw [List.length_take, List.length_drop]; omega
  obtain ⟨q', hq', hrun⟩ := run_chunkProgram (s := s) (chunk := (data.drop (16 * n)).take 16)
    (by omega) (by omega) (by rw [hoff, hdata, hlength]) hreset hturns (hq.trans hoff.symm)
    (chunkWords data (n + 1))
  obtain ⟨-, hreset', hturns'⟩ := s.chunkDone_frame ((data.drop (16 * n)).take 16)
  have hthis := s.chunkDone_this ((data.drop (16 * n)).take 16)
  rw [← chunkWords_of_lt (by omega), State.proceed_of_ne_nil (chunkWords_ne_nil hn)] at hrun
  generalize s.chunkDone ((data.drop (16 * n)).take 16) = u at *
  have hoff' : q'.off = 16 * (n + 1) := by rw [hq', hq]; rfl
  refine ⟨u.setSeq q', q', ⟨hreset'.trans hreset, hturns'.trans hturns, hoff', ?_⟩, hoff', hrun⟩
  rw [State.setSeq_this, hthis]
  exact hdata

/-- Whole chunks take 59 steps each. -/
theorem run_toChunk {data : List Byte} {s : State} {q : Seq} (hs : s.AtChunk data 0) (hq : q.off = 0)
    (n : Nat) : 16 * n < data.length →
    ∃ (u : State) (q' : Seq), u.AtChunk data n ∧ q'.off = 16 * n ∧
      core.run (59 * n) (s.resequence (chunkWords data 0) (q.toward (chunkWords data 0))) =
        .next (u.resequence (chunkWords data n) (q'.toward (chunkWords data n))) := by
  induction n with
  | zero => exact fun _ => ⟨s, q, hs, hq, rfl⟩
  | succ n ih =>
    intro hn
    obtain ⟨u, q', hu, hq', hrun⟩ := ih (by omega)
    obtain ⟨t, q'', ht, hq'', hnext⟩ := run_toNextChunk hn hu ((Seq.toward_off _ _).trans hq')
    exact ⟨t, q'', ht, hq'', (run_add (59 * n) 59 _ _ hrun).trans hnext⟩

/-- Word `j` of the words of a chunk that are left. -/
theorem head?_drop_chunkProgram {chunk : List Byte} {j : Nat} (hj : j < 59) (rest : List UopWord) :
    ((chunkProgram chunk).drop j ++ rest).head? = (chunkProgram chunk)[j]? := by
  have hlength : (chunkProgram chunk).length = 59 := by
    rw [chunkProgram, List.length_append, cipherProgram_length]; rfl
  rw [List.head?_append_of_ne_nil _ (by simp [hlength, hj]), List.head?_drop]

/-- Settles O59: the validation begins the command; `run_toChunk` and `run_withinChunk` follow the chunks
of a STREAM and the one of an OFBCHUNK, `run_encblk_cipher` the block encryption of an ENCBLK. -/
theorem outputCountersFollowTheChunks : Obligations.OutputCountersFollowTheChunks := by
  intro s f hreset hturns hp hh hseq
  have hvalidate := step_held hreset hturns hp hh
  have hoff : s.this.seq.off = 0 := by rw [hseq]; rfl
  refine ⟨fun k v data hf hu n j hn hj => ?stream, fun b hf hk hc => ?encblk,
    fun data hf h1 h16 hk hfb hc j hj => ?ofbchunk⟩
  all_goals simp only [validateFrame, hf] at hvalidate
  case stream =>
    rw [start_stream_accepted hu] at hvalidate
    obtain ⟨q, hq, hopen⟩ := run_stream_opening hreset hturns hoff hu k v data
    obtain ⟨-, hreset', hturns', hthis⟩ := State.streamReady_streamWork hreset hturns k v data
    generalize (s.setWork (streamWork k v data)).streamReady = r at *
    have hr : r.AtChunk data 0 :=
      ⟨hreset', hturns', by rw [hthis]; exact hoff, by rw [hthis]; rfl⟩
    obtain ⟨u, q', hu', hq', hto⟩ := run_toChunk hr hq n hn
    have hchunk : ((data.drop (16 * n)).take 16).length = min 16 (data.length - 16 * n) := by
      rw [List.length_take, List.length_drop]
    obtain ⟨t, ht, hpending, htoff, hphase⟩ := run_withinChunk (s := u) (q := q')
      (chunk := (data.drop (16 * n)).take 16) (by omega) (by omega)
      (by rw [hu'.off, hu'.operand, take_take_length]) hu'.noReset hu'.sameTurn (hq'.trans hu'.off.symm)
      hj (chunkWords data (n + 1))
    have hne : (chunks data).flatMap chunkProgram ≠ [] :=
      chunkWords_ne_nil (n := 0) (by omega)
    rw [State.proceed_of_ne_nil hne] at hopen
    rw [← chunkWords_of_lt hn] at ht
    refine ⟨t, ?_, ?_, htoff.trans hq', hphase⟩
    · have hcount : 1 + 53 + 1 + 59 * n + j = (53 + 1 + (59 * n + j)) + 1 := by omega
      rw [hcount, run_succ hvalidate, run_add (53 + 1) _ _ _ hopen]
      exact (run_add (59 * n) j _ _ hto).trans ht
    · rw [hpending, head?_drop_chunkProgram hj, chunkProgram, hchunk]
  case encblk =>
    rw [start_encblk_accepted hk hc] at hvalidate
    obtain ⟨q, hq, hrun⟩ := run_encblk_cipher hreset hturns b
    exact ⟨_, (run_succ hvalidate 57).trans hrun, rfl,
      (Seq.entering_off .ststate q).trans (hq.trans hoff), rfl⟩
  case ofbchunk =>
    rw [start_ofbchunk_accepted h1 h16 hk hfb hc] at hvalidate
    obtain ⟨t, ht, hpending, htoff, hphase⟩ := run_withinChunk (s := s.setWork (ofbchunkWork data))
      (q := s.this.seq) (chunk := data) (j := 57 + j) h1 h16 (by simp [ofbchunkWork, hoff]) hreset hturns
      rfl (by omega) []
    rw [List.append_nil] at ht hpending
    refine ⟨t, ?_, ?_, htoff.trans hoff, by rw [hphase, if_neg (by omega)]⟩
    · rw [Nat.add_assoc, Nat.add_comm 1, run_succ hvalidate]
      exact ht
    · rw [hpending, chunkProgram, ← cipherProgram_length .feedback, List.drop_length_add_append]

end Sys2Proof.Machine
end
